-- ==== Sys2Proof/Word.lean ====
section
/-! DEFINITION. The words of the glowing_ball CORE: the byte, the 32-bit pixel word, and the two tuples of bytes that the
spec moves about (R8, R83, R85). -/

namespace Sys2Proof

/-- A byte: 8 bits, an unsigned integer 0..255 (R8). -/
abbrev Byte := BitVec 8

/-- A pixel word `W[31:0]` (R8, R83). -/
abbrev PixelWord := BitVec 32

/-- What a conversion returns: `(r, g, b)`, red first (R85, R143, R144). -/
structure Rgb where
  r : Byte
  g : Byte
  b : Byte
deriving DecidableEq, Repr, Inhabited

/-- A Color Sample: the ordered tuple (green, red, blue, white) (R85). -/
structure Sample where
  g : Byte
  r : Byte
  b : Byte
  w : Byte
deriving DecidableEq, Repr, Inhabited

end Sys2Proof
end

