-- ==== Sys2Proof/Config.lean ====
section
/-! DEFINITION. The build-time configuration CFG of R5, valid by construction (R6), what a build fixes, and the free
values of the model. -/

namespace Sys2Proof

/-- The one active animation strategy, `ANIM_SEL` (R5 Table 1, R88). -/
inductive AnimSel
  | chase | hueBreath | hueRotate | split | hires
deriving DecidableEq, Repr, Inhabited

/-- The conversion `HUE_ROTATE` and `SPLIT` use, `CONV_SEL` (R5 Table 1, R88). -/
inductive ConvSel
  | sec3 | sec6
deriving DecidableEq, Repr, Inhabited

/-- The fields of CFG, in the order of R5 Tables 1 to 3. Lengths are clock cycles or ticks, as the tables say.
`N_INIT` is fixed at 1 and `NB` is derived (R5 Table 2), so neither is a field. -/
structure RawCfg where
  /-- `P`, pixels a frame addresses -/
  pixels : Nat
  /-- `PIN_ID`, an opaque token with no effect on any rule (log entry 36) -/
  pinId : Nat
  /-- `ANIM_SEL` -/
  animSel : AnimSel
  /-- `CONV_SEL` -/
  convSel : ConvSel
  /-- `TICK_BITS` -/
  tickBits : Nat
  /-- `CHASE_STEP` -/
  chaseStep : Nat
  /-- `D_ROT` -/
  dRot : Nat
  /-- `D_BHUE` -/
  dBHue : Nat
  /-- `BR_RISE` -/
  brRise : Nat
  /-- `BR_HOLD` -/
  brHold : Nat
  /-- `BR_FALL` -/
  brFall : Nat
  /-- `BR_PAUSE` -/
  brPause : Nat
  /-- `BR_VALUE` -/
  brValue : Byte
  /-- `BR_WMIN` -/
  brWMin : Byte
  /-- `BR_WMAX` -/
  brWMax : Byte
  /-- `D_SPLIT` -/
  dSplit : Nat
  /-- `D_HIRES` -/
  dHires : Nat
  /-- `F_CLK`, in Hz -/
  fClk : Nat
  /-- `N1` -/
  n1 : Nat
  /-- `N2` -/
  n2 : Nat
  /-- `N3` -/
  n3 : Nat
  /-- `G_BYTE` -/
  gByte : Nat
  /-- `G_PIXEL` -/
  gPixel : Nat
  /-- `N_LATCH` -/
  nLatch : Nat
  /-- `N_DELAY` -/
  nDelay : Nat
  /-- `L_CHAIN` -/
  lChain : Nat
  /-- `N_RST_LO` -/
  nRstLo : Nat
  /-- `N_RST_HI` -/
  nRstHi : Nat
  /-- `T0H_NOM`, in ns (static check of R247 only) -/
  t0hNom : Nat
  /-- `T1L_NOM`, in ns (static check of R247 only) -/
  t1lNom : Nat
  /-- `TOL`, in ns (static check of R247 only) -/
  tol : Nat
  /-- `F_BIT`, in Hz (static check of R247 only) -/
  fBit : Nat
  /-- `PCT`, in hundredths of a percent (static check of R247 only; log entry 3) -/
  pct : Nat
deriving DecidableEq, Repr

/-- R6: every field inside its legal values of R5, and `N_RST_LO < N_RST_HI ≤ N_LATCH`. -/
abbrev RawCfg.Valid (c : RawCfg) : Prop :=
  (1 ≤ c.pixels ∧ c.pixels ≤ 255) ∧ 1 ≤ c.tickBits ∧ 1 ≤ c.chaseStep ∧ 1 ≤ c.dRot ∧ 1 ≤ c.dBHue ∧
    1 ≤ c.brRise ∧ 1 ≤ c.brFall ∧ c.brWMin.toNat ≤ c.brWMax.toNat ∧ 1 ≤ c.dSplit ∧ 1 ≤ c.dHires ∧
    1 ≤ c.fClk ∧ 1 ≤ c.n1 ∧ 1 ≤ c.n2 ∧ 1 ≤ c.n3 ∧ 1 ≤ c.nLatch ∧
    c.nRstLo < c.nRstHi ∧ c.nRstHi ≤ c.nLatch

/-- CFG: a record of R5 with the proof that it is valid. An invalid configuration has no meaning (R6, U12): it cannot be
built, so no step starts from one. -/
structure Cfg extends RawCfg where
  ok : toRawCfg.Valid
deriving DecidableEq, Repr

/-- The check of R6 on a record of fields: an invalid one is refused. -/
def Cfg.ofRaw (c : RawCfg) : Option Cfg :=
  if h : c.Valid then some ⟨c, h⟩ else none

/-- CFG with another strategy selected. -/
def Cfg.setAnim (c : Cfg) (a : AnimSel) : Cfg :=
  { toRawCfg := { c.toRawCfg with animSel := a }, ok := c.ok }

/-- CFG with another conversion selected. -/
def Cfg.setConv (c : Cfg) (v : ConvSel) : Cfg :=
  { toRawCfg := { c.toRawCfg with convSel := v }, ok := c.ok }

/-- CFG with the pixel count `p` (the second operand of `renderFrame`, R160). -/
def Cfg.withPixels (c : Cfg) (p : Nat) (h : 1 ≤ p ∧ p ≤ 255) : Cfg :=
  { toRawCfg := { c.toRawCfg with pixels := p }, ok := ⟨h, c.ok.2⟩ }

/-! ### What a build fixes: the OPEN parameters (92_eei_decisions.md, "OPEN parameters"; log entry 2)

The spec gives no value, so each is a constant without a body. Where R5 constrains a field, the field of `Config.build`
below is made from free constants so that every legal value, and no other, can be what the constant stands for. -/

opaque Config.pinId : Nat
opaque Config.animSel : AnimSel
opaque Config.convSel : ConvSel
opaque Config.chaseStepLess1 : Nat
opaque Config.dBHueLess1 : Nat
opaque Config.brRiseLess1 : Nat
opaque Config.brHold : Nat
opaque Config.brFallLess1 : Nat
opaque Config.brPause : Nat
opaque Config.brValue : Byte
/-- `BR_WMIN` and `BR_WMAX`: the smaller and the larger of two free bytes. -/
opaque Config.brWhiteA : Byte
opaque Config.brWhiteB : Byte
opaque Config.dSplitLess1 : Nat
opaque Config.dHiresLess1 : Nat
/-- `N_RST_HI` is one more than this number below 2688, so it lies in `1..N_LATCH`. -/
opaque Config.nRstHiLess1 : Fin 2688
/-- `N_RST_LO` is this number modulo `N_RST_HI`, so it lies below `N_RST_HI`. -/
opaque Config.nRstLoSeed : Nat
opaque Config.pct : Nat

/-- The configuration of the build that `State.reset` stands for: the REF value of R5 where it gives one (log entry 3),
an opaque constant where the parameter is OPEN (log entry 2). Every statement is about an arbitrary CFG; this one is
only what the one constant `State.reset` holds. -/
def Config.build : Cfg where
  pixels := 13
  pinId := Config.pinId
  animSel := Config.animSel
  convSel := Config.convSel
  tickBits := 32
  chaseStep := Config.chaseStepLess1 + 1
  dRot := 10000
  dBHue := Config.dBHueLess1 + 1
  brRise := Config.brRiseLess1 + 1
  brHold := Config.brHold
  brFall := Config.brFallLess1 + 1
  brPause := Config.brPause
  brValue := Config.brValue
  brWMin := if Config.brWhiteA.toNat ≤ Config.brWhiteB.toNat then Config.brWhiteA else Config.brWhiteB
  brWMax := if Config.brWhiteA.toNat ≤ Config.brWhiteB.toNat then Config.brWhiteB else Config.brWhiteA
  dSplit := Config.dSplitLess1 + 1
  dHires := Config.dHiresLess1 + 1
  fClk := 9600000
  n1 := 3
  n2 := 3
  n3 := 6
  gByte := 0
  gPixel := 0
  nLatch := 2688
  nDelay := 9600
  lChain := 13
  nRstLo := Config.nRstLoSeed % (Config.nRstHiLess1.val + 1)
  nRstHi := Config.nRstHiLess1.val + 1
  t0hNom := 300
  t1lNom := 600
  tol := 150
  fBit := 800000
  pct := Config.pct
  ok := by
    have hlo : Config.nRstLoSeed % (Config.nRstHiLess1.val + 1) < Config.nRstHiLess1.val + 1 :=
      Nat.mod_lt _ (Nat.succ_pos _)
    have hhi : Config.nRstHiLess1.val + 1 ≤ 2688 := Config.nRstHiLess1.isLt
    have hw : (if Config.brWhiteA.toNat ≤ Config.brWhiteB.toNat then Config.brWhiteA else Config.brWhiteB).toNat ≤
        (if Config.brWhiteA.toNat ≤ Config.brWhiteB.toNat then Config.brWhiteB else Config.brWhiteA).toNat := by
      split <;> omega
    refine ⟨by decide, by decide, ?_, by decide, ?_, ?_, ?_, hw, ?_, ?_, by decide, by decide, by decide, by decide,
      by decide, hlo, hhi⟩ <;> exact Nat.succ_le_succ (Nat.zero_le _)

/-! ### Free values: what a pure function returns outside the domain its rule states

Each takes every argument the function has, so nothing relates two of its values (log entries 25 to 27). -/

/-- `env(e)` for `e ≥ BR_PERIOD`: R165 defines it "for `0 ≤ e < BR_PERIOD`" (log entry 25). -/
opaque Config.freeEnv : Cfg → Nat → Byte

/-- `ramp(i, p)` for `i ≥ P` or `p ≥ 255*P`: R169 defines it for a pixel index and "a position `0 ≤ p < 255*P`"
(log entry 26). -/
opaque Config.freeRamp : Cfg → Nat → Nat → Byte

/-- `Color(CFG, t, i)` for `t ≥ 2^TICK_BITS` or `i ≥ P`: R161 defines it "for `0 ≤ t < 2^TICK_BITS` and `0 ≤ i < P`"
(log entry 27). -/
opaque Config.freeColor : Cfg → Nat → Nat → Sample

/-- The byte-wide transient registers of R28. -/
inductive TransientReg
  | pix | cg | cr | cb | cw | shift | bitn
deriving DecidableEq, Repr

/-- What a transient register reads as where R28 and R31 leave it unspecified (U3), at cycle `c` of the run (log entry 6). -/
opaque Config.freeReg : TransientReg → Nat → Byte

/-- What `CNT` reads as while `SEQ = INIT` (R31, U3; log entry 6). -/
opaque Config.freeCnt : Nat → Nat

end Sys2Proof
end

