-- ==== Sys2Proof/Syntax.lean ====
section
/-! DEFINITION. The operations of the CORE, one constructor per row of spec/opcode_table.json (R94), and the form in
which an operation is written down as data. -/

namespace Sys2Proof

/-- The operations, in the order of spec/opcode_table.json. -/
inductive Instr
  /-- wire symbol B0 (R80) -/
  | b0
  /-- wire symbol B1 (R80) -/
  | b1
  /-- wire symbol LATCH (R80), row LATCH_SYM -/
  | latchSym
  /-- a pixel word in PIX32 (R83) -/
  | pixelWord (g r b w : Byte)
  /-- `sendByte(value)` (R114) -/
  | sendByte (value : Byte)
  /-- `writeColor(g, r, b, w)` (R115) -/
  | writeColor (g r b w : Byte)
  /-- `writeColorAll(g, r, b, w)` (R116) -/
  | writeColorAll (g r b w : Byte)
  /-- `clear()` (R117) -/
  | clear
  /-- `latch()` (R118) -/
  | latch
  /-- `ANIM_SEL` 0 (R88, R163) -/
  | animChase
  /-- `ANIM_SEL` 1 (R88, R164) -/
  | animHueBreath
  /-- `ANIM_SEL` 2 (R88, R166) -/
  | animHueRotate
  /-- `ANIM_SEL` 3 (R88, R167) -/
  | animSplit
  /-- `ANIM_SEL` 4 (R88, R168) -/
  | animHires
  /-- `CONV_SEL` 0 (R88, R143) -/
  | convSec3
  /-- `CONV_SEL` 1 (R88, R144) -/
  | convSec6
  /-- `setPinHigh()` (R110) -/
  | setPinHigh
  /-- `setPinLow()` (R111) -/
  | setPinLow
  /-- `setPinDirectionOutput()` (R112) -/
  | setPinDirectionOutput
  /-- `sendBit(bit)` (R113) -/
  | sendBit (bit : Bool)
  /-- `map(x, inMin, inMax, outMin, outMax)` (R140) -/
  | map (x inMin inMax outMin outMax : Int)
  /-- `scale(c, v)` (R142) -/
  | scale (c v : Byte)
  /-- `hsv3(h, s, v)` (R143) -/
  | hsv3 (h s v : Byte)
  /-- `hsv6(h, s, v)` (R144) -/
  | hsv6 (h s v : Byte)
  /-- `hueOf(t, D)` (R162) -/
  | hueOf (t d : Nat)
  /-- `env(e)` (R165) -/
  | env (e : Nat)
  /-- `ramp(i, p)` (R169) -/
  | ramp (i p : Nat)
  /-- `renderFrame(tick, pixelCount)` (R160) -/
  | renderFrame (tick pixelCount : Nat)
  /-- `init()` (R190) -/
  | init
  /-- `delay(n)` (R192) -/
  | delay (n : Nat)
  /-- `tickInc()` (R194) -/
  | tickInc
deriving DecidableEq, Repr

/-- The formats of the table that have a binary form (R94). -/
inductive Format
  /-- a wire symbol, written as its waveform, one bit a clock cycle at REF, the first cycle most significant (R80) -/
  | sym
  /-- a pixel word (R83) -/
  | pix32
  /-- a command word of Pixel Link (R86) -/
  | plcmd
  /-- a value of the 3-bit field `ANIM_SEL` (R88) -/
  | anim
  /-- a value of the 1-bit field `CONV_SEL` (R88) -/
  | conv
deriving DecidableEq, Repr

/-- The names of the PRIM rows: "no binary form; internal primitive or pure function, selected by name" (R94). -/
inductive PrimName
  | setPinHigh | setPinLow | setPinDirectionOutput | sendBit | map | scale | hsv3 | hsv6 | hueOf | env | ramp
  | renderFrame | init | delay | tickInc
deriving DecidableEq, Repr

/-- An operation written down as data: a word of one of the binary formats, or, for a PRIM row, its name and operands
in the order of R92 (log entry 19). -/
inductive Code
  | word (fmt : Format) (nbits value : Nat)
  | named (name : PrimName) (args : List Int)
deriving DecidableEq, Repr

/-- Why a code stands for no operation. -/
inductive DecodeError
  /-- no format of the table has this many bits (DESIGN CHOICE, safe; log entry 17) -/
  | noSuchWidth
  /-- a bit above the format's own width is set (DESIGN CHOICE, safe; log entry 17) -/
  | valueTooWide
  /-- a waveform that is no symbol of the wire alphabet (R80, R89) -/
  | noSuchSymbol
  /-- `op` 5, 6 or 7 (R90, U10) -/
  | reservedOp
  /-- `ANIM_SEL` 5, 6 or 7 (R90, U10) -/
  | reservedAnim
  /-- the wrong number of operands for the name (R92) -/
  | wrongArity
  /-- an operand outside its range: a byte, a bit or a count (R85, R92) -/
  | operandOutOfRange
deriving DecidableEq, Repr

/-- What decoding answers. -/
inductive Decoded
  | ok (i : Instr)
  | illegal (e : DecodeError)
deriving DecidableEq, Repr

end Sys2Proof
end

