-- ==== Sys2Proof/WellFormed.lean ====
section
/-! DEFINITION. The conditions the spec puts on an operation's operands as written (those that need the configuration or
the state are checked by the meanings). Bytes and bits are in range by their types. -/

namespace Sys2Proof

/-- `map` needs `inMin ≠ inMax` (R140), `hueOf` a duration `D ≥ 1` (R162), `renderFrame` a pixel count in 1..255
(R5 Table 1, R6). Every other operand of every other operation is free. -/
def wellFormed : Instr → Bool
  | .map _ inMin inMax _ _ => inMin != inMax
  | .hueOf _ d => decide (1 ≤ d)
  | .renderFrame _ p => decide (1 ≤ p) && decide (p ≤ 255)
  | .b0 | .b1 | .latchSym => true
  | .pixelWord _ _ _ _ => true
  | .sendByte _ | .writeColor _ _ _ _ | .writeColorAll _ _ _ _ | .clear | .latch => true
  | .animChase | .animHueBreath | .animHueRotate | .animSplit | .animHires => true
  | .convSec3 | .convSec6 => true
  | .setPinHigh | .setPinLow | .setPinDirectionOutput | .sendBit _ => true
  | .scale _ _ | .hsv3 _ _ _ | .hsv6 _ _ _ | .env _ | .ramp _ _ => true
  | .init | .delay _ | .tickInc => true

/-- The operation is well formed. -/
abbrev WellFormed (i : Instr) : Prop := wellFormed i = true

end Sys2Proof
end

