-- ==== Sys2Proof/Decode.lean ====
section
/-! DEFINITION. The decoder, total on every code and rejecting by name, and the encoder, both from the tables of
30_encoding.md (R80, R83, R86 to R88, R92). -/

namespace Sys2Proof

/-- The byte of `w` whose least significant bit is bit `lo`. -/
def byteAt (w lo : Nat) : Byte := BitVec.ofNat 8 (w >>> lo)

/-- The widths a word of a format may be written in: the format's own, and that rounded up to whole bytes. A symbol is
12 bits for a bit cell and 2688 for a latch at REF (R80, R81). -/
def Format.widths : Format → List Nat
  | .sym => [12, 16, 2688]
  | .pix32 => [32]
  | .plcmd => [35, 40]
  | .anim => [3, 8]
  | .conv => [1, 8]

/-- The wire symbol whose waveform, at REF and first cycle most significant, is `w` (R80, R81). The 2688 low cycles of a
latch are told from a bit cell by length alone (R91). -/
def decodeSymbol (nbits w : Nat) : Decoded :=
  if nbits = 2688 then
    if w = 0 then .ok .latchSym else .illegal .noSuchSymbol
  else if 2 ^ 12 ≤ w then .illegal .valueTooWide
  else if w = 0b111000000000 then .ok .b0
  else if w = 0b111111000000 then .ok .b1
  else .illegal .noSuchSymbol

/-- PIX32: g 31:24, r 23:16, b 15:8, w 7:0; every value legal (R83). -/
def decodePixelWord (w : Nat) : Decoded :=
  if 2 ^ 32 ≤ w then .illegal .valueTooWide
  else .ok (.pixelWord (byteAt w 24) (byteAt w 16) (byteAt w 8) (byteAt w 0))

/-- PLCMD: op 34:32, a 31:24, b 23:16, c 15:8, d 7:0; operand bits an operation does not use are ignored (R86, R87);
op 5 to 7 refused (R90). -/
def decodeCommand (w : Nat) : Decoded :=
  if 2 ^ 35 ≤ w then .illegal .valueTooWide
  else match w >>> 32 with
    | 0 => .ok (.sendByte (byteAt w 24))
    | 1 => .ok (.writeColor (byteAt w 24) (byteAt w 16) (byteAt w 8) (byteAt w 0))
    | 2 => .ok (.writeColorAll (byteAt w 24) (byteAt w 16) (byteAt w 8) (byteAt w 0))
    | 3 => .ok .clear
    | 4 => .ok .latch
    | _ => .illegal .reservedOp

/-- `ANIM_SEL` (R88); 5 to 7 refused (R90). -/
def decodeAnim (w : Nat) : Decoded :=
  if 2 ^ 3 ≤ w then .illegal .valueTooWide
  else match w with
    | 0 => .ok .animChase
    | 1 => .ok .animHueBreath
    | 2 => .ok .animHueRotate
    | 3 => .ok .animSplit
    | 4 => .ok .animHires
    | _ => .illegal .reservedAnim

/-- `CONV_SEL` (R88). -/
def decodeConv (w : Nat) : Decoded :=
  match w with
  | 0 => .ok .convSec3
  | 1 => .ok .convSec6
  | _ => .illegal .valueTooWide

/-- A word of a binary format. -/
def decodeWord (fmt : Format) (nbits w : Nat) : Decoded :=
  if nbits ∉ fmt.widths then .illegal .noSuchWidth
  else match fmt with
    | .sym => decodeSymbol nbits w
    | .pix32 => decodePixelWord w
    | .plcmd => decodeCommand w
    | .anim => decodeAnim w
    | .conv => decodeConv w

/-- An operand that is a byte (R85: "Every operand is an unsigned byte"). -/
def byteArg (x : Int) : Option Byte :=
  if 0 ≤ x ∧ x < 256 then some (BitVec.ofInt 8 x) else none

/-- An operand that is a bit (R113). -/
def bitArg (x : Int) : Option Bool :=
  if x = 0 then some false else if x = 1 then some true else none

/-- An operand that is a count or a tick. -/
def natArg : Int → Option Nat
  | .ofNat n => some n
  | .negSucc _ => none

/-- The operation, or the rejection of an operand out of range. -/
def Decoded.ofOption : Option Instr → Decoded
  | some i => .ok i
  | none => .illegal .operandOutOfRange

/-- A PRIM operation by name, operands in the order of R92. -/
def decodeNamed : PrimName → List Int → Decoded
  | .setPinHigh, [] => .ok .setPinHigh
  | .setPinLow, [] => .ok .setPinLow
  | .setPinDirectionOutput, [] => .ok .setPinDirectionOutput
  | .sendBit, [x] => .ofOption ((bitArg x).map .sendBit)
  | .map, [x, a, b, c, d] => .ok (.map x a b c d)
  | .scale, [c, v] => .ofOption do some (.scale (← byteArg c) (← byteArg v))
  | .hsv3, [h, s, v] => .ofOption do some (.hsv3 (← byteArg h) (← byteArg s) (← byteArg v))
  | .hsv6, [h, s, v] => .ofOption do some (.hsv6 (← byteArg h) (← byteArg s) (← byteArg v))
  | .hueOf, [t, d] => .ofOption do some (.hueOf (← natArg t) (← natArg d))
  | .env, [e] => .ofOption ((natArg e).map .env)
  | .ramp, [i, p] => .ofOption do some (.ramp (← natArg i) (← natArg p))
  | .renderFrame, [t, p] => .ofOption do some (.renderFrame (← natArg t) (← natArg p))
  | .init, [] => .ok .init
  | .delay, [n] => .ofOption ((natArg n).map .delay)
  | .tickInc, [] => .ok .tickInc
  | _, _ => .illegal .wrongArity

/-- The operation a code stands for, or the reason it stands for none. -/
def decode : Code → Decoded
  | .word fmt nbits w => decodeWord fmt nbits w
  | .named name args => decodeNamed name args

/-- The format of a table word of `nbits` bits, in the table's width or in whole bytes (R94). A word of 8 bits is read as
`ANIM_SEL`: the one-bit field `CONV_SEL`, rounded up to a byte, has the same width (log entry 17). -/
def formatOfWidth : Nat → Option Format
  | 1 => some .conv
  | 3 => some .anim
  | 8 => some .anim
  | 12 => some .sym
  | 16 => some .sym
  | 32 => some .pix32
  | 35 => some .plcmd
  | 40 => some .plcmd
  | 2688 => some .sym
  | _ => none

/-- The code of a table word of `nbits` bits; a width that no format has gives a code that decoding refuses. -/
def codeOfTableWord (nbits w : Nat) : Code :=
  .word ((formatOfWidth nbits).getD .plcmd) nbits w

/-- The operation the decoder reads from a table word. -/
def decodeTableWord (nbits w : Nat) : Option Instr :=
  match decode (codeOfTableWord nbits w) with
  | .ok i => some i
  | .illegal _ => none

/-- Four bytes as one 32-bit number, the first most significant: `g ++ r ++ b ++ w` (R8, R83, R85). -/
def packBytes (a b c d : Byte) : Nat :=
  a.toNat * 2 ^ 24 + b.toNat * 2 ^ 16 + c.toNat * 2 ^ 8 + d.toNat

/-- A command word: `op` in bits 34:32 above four operand bytes (R86). -/
def packCommand (op : Nat) (a b c d : Byte) : Nat :=
  op * 2 ^ 32 + packBytes a b c d

/-- A bit as an operand. -/
def bitOperand (b : Bool) : Int := if b then 1 else 0

/-- The code of an operation. Operand bits an operation does not use are 0 (R86). -/
def encode : Instr → Code
  | .b0 => .word .sym 12 0b111000000000
  | .b1 => .word .sym 12 0b111111000000
  | .latchSym => .word .sym 2688 0
  | .pixelWord g r b w => .word .pix32 32 (packBytes g r b w)
  | .sendByte v => .word .plcmd 35 (packCommand 0 v 0 0 0)
  | .writeColor g r b w => .word .plcmd 35 (packCommand 1 g r b w)
  | .writeColorAll g r b w => .word .plcmd 35 (packCommand 2 g r b w)
  | .clear => .word .plcmd 35 (packCommand 3 0 0 0 0)
  | .latch => .word .plcmd 35 (packCommand 4 0 0 0 0)
  | .animChase => .word .anim 3 0
  | .animHueBreath => .word .anim 3 1
  | .animHueRotate => .word .anim 3 2
  | .animSplit => .word .anim 3 3
  | .animHires => .word .anim 3 4
  | .convSec3 => .word .conv 1 0
  | .convSec6 => .word .conv 1 1
  | .setPinHigh => .named .setPinHigh []
  | .setPinLow => .named .setPinLow []
  | .setPinDirectionOutput => .named .setPinDirectionOutput []
  | .sendBit b => .named .sendBit [bitOperand b]
  | .map x a b c d => .named .map [x, a, b, c, d]
  | .scale c v => .named .scale [(c.toNat : Int), (v.toNat : Int)]
  | .hsv3 h s v => .named .hsv3 [(h.toNat : Int), (s.toNat : Int), (v.toNat : Int)]
  | .hsv6 h s v => .named .hsv6 [(h.toNat : Int), (s.toNat : Int), (v.toNat : Int)]
  | .hueOf t d => .named .hueOf [(t : Int), (d : Int)]
  | .env e => .named .env [(e : Int)]
  | .ramp i p => .named .ramp [(i : Int), (p : Int)]
  | .renderFrame t p => .named .renderFrame [(t : Int), (p : Int)]
  | .init => .named .init []
  | .delay n => .named .delay [(n : Int)]
  | .tickInc => .named .tickInc []

/-- A code of the configuration: consumed before the run, not by it (R88, R220; log entry 15). -/
def Code.isConfig : Code → Bool
  | .word .anim _ _ => true
  | .word .conv _ _ => true
  | _ => false

end Sys2Proof
end

