-- ==== Sys2Proof/Machine/State.lean ====
section
/-! DEFINITION. The state of the CORE as plain data, the environment state it affects (the wire trace and the pixel
chain), the ways a step can stop, and the state after reset. -/

namespace Sys2Proof.Machine

/-! ### The wire -/

/-- What the wire shows in one clock cycle: `Z` (not driven), `0` or `1` (R11). -/
inductive Level
  | z | low | high
deriving DecidableEq, Repr

/-- The wire trace `WIRE` of R11 as runs (level, number of cycles), NEWEST FIRST. Canonical form: every run has at least
one cycle and neighbours differ in level ("adjacent runs of the same level merge", R11), so equal traces are equal data. -/
abbrev Trace := List (Level × Nat)

/-- A run `(level, length)` an operation puts on the wire: one `Emit` of R10. Length 0 does nothing. -/
structure Run where
  level : Bool
  len : Nat
deriving DecidableEq, Repr

/-! ### The pixel chain: the reference receiver model of R58, R59 (environment) -/

/-- The colours the pixels show, `DISP` (R58): pairs (pixel index, pixel word), indices strictly rising. An index without
an entry is unspecified (R58; log entry 9). -/
abbrev Memory := List (Nat × PixelWord)

/-- The run the receiver is in, with its cycles so far (R59: "maximal high runs, each followed by a maximal low run").
`lead` is the time before the first high run. -/
inductive Line
  | lead (n : Nat)
  | high (n : Nat)
  | low (n : Nat)
deriving DecidableEq, Repr

/-- Why the receiver refuses the wire (R59). These are no stops of the CORE (R244). -/
inductive ChainRefusal
  /-- "high time outside the contract" (U15) -/
  | highTime
  /-- "low time between N_RST_LO and N_RST_HI" (U5) -/
  | lowTime
  /-- "latch inside a word" (U6) -/
  | latchInsideWord
deriving DecidableEq, Repr

/-- What the model knows of the chain. -/
inductive ChainStatus
  /-- `RX`, `PART` are what R59 computes -/
  | tracking
  /-- unspecified "from that moment until the first latch after the restart" (R241, U8; log entry 10) -/
  | lost
  /-- the receiver refused: nothing may be concluded about the pixels (R59) -/
  | refused (why : ChainRefusal)
deriving DecidableEq, Repr

/-- The chain's state (R58). -/
structure Chain where
  status : ChainStatus
  line : Line
  /-- complete words since the last latch, slot 0 first -/
  rx : List PixelWord
  /-- bits of the word not yet complete, first bit first -/
  part : List Bool
  disp : Memory
deriving DecidableEq, Repr

/-- The chain a model starts with: "DISP unspecified until the first latch … RX and PART empty" (R58; log entry 8). -/
def Chain.start : Chain := ⟨.tracking, .lead 0, [], [], []⟩

/-- The chain of which nothing is known (R241; log entry 10). -/
def Chain.unknown : Chain := ⟨.lost, .lead 0, [], [], []⟩

/-! ### The CORE -/

/-- The sequencer position `SEQ` (R22): `RUN(k, n)` is run `k` of the frame with `n` cycles still to spend. -/
inductive SeqPos
  | init
  | run (k n : Nat)
deriving DecidableEq, Repr

/-- What the last pure function returned (the model's own; log entry 20). -/
inductive Ret
  | nothing
  | int (v : Int)
  | byte (v : Byte)
  | rgb (v : Rgb)
deriving DecidableEq, Repr

/-- The reasons the hardware itself stops an operation: there are none. "The CORE raises no synchronous exception"
(R210), so this type has no constructor (log entry 33). -/
inductive Fault
deriving DecidableEq, Repr

/-- The cases the spec gives no meaning: "`refuse(reason)` means the model gives the situation no meaning … it is not an
event of the hardware" (R10). Every one is safe: the model stops where the spec says nothing. -/
inductive Refusal
  /-- raised by an arm of exec for an operation without a meaning: none is left (safe) -/
  | notModelled (mnemonic : String)
  /-- raised by the operations of R113 to R118, setPinHigh and setPinLow with `DIR = 0` (R110, R111, R119, U11) (safe) -/
  | pinNotDriven
  /-- raised by the operations of R113 to R118 with `IE = 1` (R119, R213, U11) (safe) -/
  | interruptsEnabled
  /-- raised by LATCH, LATCH_SYM and renderFrame when the bits sent since the previous latch are no multiple of 32
  (R54, R118, U6) (safe) -/
  | latchInsideWord
  /-- raised by map with `inMin = inMax` and by hueOf with `D = 0`, which is such a map (R140, U13) (safe) -/
  | mapDomain
  /-- raised by renderFrame with a pixel count outside 1..255 (R6, U12) (safe) -/
  | invalidConfiguration
  /-- raised by the configuration codes once the run has begun: "no runtime reconfiguration" (R4(e), R5; log entry 15) (safe) -/
  | runtimeReconfiguration
  /-- raised by step when the code to be run stands for no operation (R90, U10) (safe) -/
  | illegalCode (why : DecodeError)
  /-- raised by step when `SEQ` is no position of R22 (log entry 30) (safe) -/
  | noSuchPosition
deriving DecidableEq, Repr

/-- The state. First the CORE's own (R20), then its input port, then what it affects (R11, R58), then a count a rule
needs (R54), then the model's own fields. The transient registers of R28 are views: Machine/Registers.lean. -/
structure State where
  /-- `TICK` (R21): a Nat, below `2^TICK_BITS` in every state a step leads to -/
  tick : Nat
  /-- `SEQ` (R22) -/
  seq : SeqPos
  /-- `PIN` (R24); the port `dout` -/
  pin : Bool
  /-- `DIR` (R25); the port `dout_oe` -/
  dir : Bool
  /-- `IE` (R26) -/
  ie : Bool
  /-- the level of the input `rst_n` (R215, R220): true is released -/
  rstN : Bool
  /-- `WIRE` (R11), newest run first -/
  wire : Trace
  /-- the pixel chain (R58) -/
  chain : Chain
  /-- bits sent since the previous latch (R54, U6; log entry 21) -/
  sent : Nat
  /-- `CFG` (R5), the same for a whole run (log entry 1) -/
  cfg : Cfg
  /-- the operation placed for the next step (the model's own; log entry 14) -/
  code : Option Code
  /-- the value the last pure function returned (the model's own; log entry 20) -/
  ret : Ret
deriving DecidableEq, Repr

/-- The value `PIN` has at reset: the spec gives none (R24, R31, U1). DESIGN CHOICE, unsafe: log entry 4. -/
def State.pinAtReset : Bool := false

/-- The value `IE` has at reset: the spec gives none; "it may be 1 before initialisation" (R26, R31, U2). DESIGN CHOICE,
unsafe: log entry 5. -/
def State.ieAtReset : Bool := true

/-- The state immediately after reset is released (R31, R240), for the configuration `cfg`. -/
def State.resetWith (cfg : Cfg) : State where
  tick := 0
  seq := .init
  pin := State.pinAtReset
  dir := false
  ie := State.ieAtReset
  rstN := true
  wire := []
  chain := Chain.start
  sent := 0
  cfg := cfg
  code := none
  ret := .nothing

/-- The state after reset of the build `Config.build`. -/
def State.reset : State := State.resetWith Config.build

end Sys2Proof.Machine
end

