-- ==== Sys2Proof/Machine/Operands.lean ====
section
/-! DEFINITION. Operand assembly and the order of bits and bytes on the wire, decided here once (R52, R82, R83, R85),
and the lengths derived from the configuration (R5, R121, R198). -/

namespace Sys2Proof.Machine

/-- The bits of a byte in the order they are sent: bit 7 first (R82). -/
def byteBits (v : Byte) : List Bool :=
  [v.getLsbD 7, v.getLsbD 6, v.getLsbD 5, v.getLsbD 4, v.getLsbD 3, v.getLsbD 2, v.getLsbD 1, v.getLsbD 0]

/-- Byte number `j` of a Color Sample in wire order: 0 green, 1 red, 2 blue, 3 white (R23, R52). -/
def sampleByte (c : Sample) (j : Nat) : Byte :=
  match j with
  | 0 => c.g
  | 1 => c.r
  | 2 => c.b
  | _ => c.w

/-- The pixel word of a Color Sample, `W = g ++ r ++ b ++ w` (R52, R83, R85). -/
def packSample (c : Sample) : PixelWord :=
  c.g ++ c.r ++ c.b ++ c.w

/-- The word of 32 received bits, "first bit = bit 31" (R59). -/
def wordOfBits (bits : List Bool) : PixelWord :=
  BitVec.ofNat 32 (bits.foldl (fun acc b => 2 * acc + b.toNat) 0)

/-- A converted colour and a white channel as a sample: the conversions return red first, the wire order is green first
(R85). -/
def sampleOfRgb (c : Rgb) (w : Byte) : Sample := ⟨c.g, c.r, c.b, w⟩

/-- An exact integer as a byte. Every use has the integer in 0..255 (R172). -/
def toByte (x : Int) : Byte := BitVec.ofInt 8 x

/-- `NB = N1 + N2 + N3`, the bit cell (R5 Table 2, R80). -/
def bitCycles (c : Cfg) : Nat := c.n1 + c.n2 + c.n3

/-- `8*NB + G_BYTE`, the duration of a byte (R114). -/
def byteCycles (c : Cfg) : Nat := 8 * bitCycles c + c.gByte

/-- `NW = 32*NB + 4*G_BYTE + G_PIXEL`, the duration of a pixel word (R115). -/
def wordCycles (c : Cfg) : Nat := 32 * bitCycles c + 4 * c.gByte + c.gPixel

/-- `C_FRAME = P*NW + N_LATCH + N_DELAY`, the frame period (R198). -/
def frameCycles (c : Cfg) : Nat := c.pixels * wordCycles c + c.nLatch + c.nDelay

/-! ### The runs of a bit, a byte, a pixel word -/

/-- `sendBit`: region 1 high, region 2 the bit, region 3 low (R80, R113). -/
def bitRuns (c : Cfg) (b : Bool) : List Run :=
  [⟨true, c.n1⟩, ⟨b, c.n2⟩, ⟨false, c.n3⟩]

/-- `sendByte`: eight bits, bit 7 first, and the byte gap (R82, R114). -/
def byteRuns (c : Cfg) (v : Byte) : List Run :=
  (byteBits v).flatMap (bitRuns c) ++ [⟨false, c.gByte⟩]

/-- `writeColor`: green, red, blue, white, and the pixel gap (R83, R115). -/
def wordRuns (c : Cfg) (s : Sample) : List Run :=
  byteRuns c s.g ++ byteRuns c s.r ++ byteRuns c s.b ++ byteRuns c s.w ++ [⟨false, c.gPixel⟩]

/-- `LATCH`: the line low for `N_LATCH` cycles (R80, R118). -/
def latchRun (c : Cfg) : Run := ⟨false, c.nLatch⟩

end Sys2Proof.Machine
end

