-- ==== Sys2Proof/Machine/Receiver.lean ====
section
/-! DEFINITION. The reference receiver model (R57 to R59, R61, R62, R65): what the pixel chain makes of the wire. It is
the observation on the CORE, not part of it (R4(d)); it never stops the CORE (R244). -/

namespace Sys2Proof.Machine

/-! ### DISP as a sparse list with strictly rising indices -/

/-- The canonical form: indices strictly rising. An index without an entry is unspecified, so no entry is redundant. -/
def Memory.wf : Memory → Bool
  | [] => true
  | [_] => true
  | (a, _) :: (b, w) :: rest => decide (a < b) && Memory.wf ((b, w) :: rest)

/-- What pixel `k` shows; `none` is unspecified (R58; log entry 9). -/
def Memory.read : Memory → Nat → Option PixelWord
  | [], _ => none
  | (a, w) :: rest, k => if k = a then some w else Memory.read rest k

/-- `DISP[k] := w` (R59), keeping the canonical form. -/
def Memory.write : Memory → Nat → PixelWord → Memory
  | [], k, w => [(k, w)]
  | (a, v) :: rest, k, w =>
    if k < a then (k, w) :: (a, v) :: rest
    else if k = a then (a, w) :: rest
    else (a, v) :: Memory.write rest k w

/-- `DISP[k], DISP[k+1], … := words` (the loop of `LatchEvent`, R59). -/
def Memory.writeFrom : Memory → Nat → List PixelWord → Memory
  | m, _, [] => m
  | m, k, w :: ws => Memory.writeFrom (m.write k w) (k + 1) ws

/-! ### The receiver -/

/-- The receiver gives the wire no meaning from here on (R59). -/
def Chain.refuse (c : Chain) (why : ChainRefusal) : Chain := { c with status := .refused why }

/-- A high run of `h` cycles has ended: one bit, told by its exact high time (R59). Bits of a chain that is lost are not
known. -/
def Chain.takeBit (cfg : Cfg) (h : Nat) (c : Chain) : Chain :=
  match c.status with
  | .tracking =>
    if h = cfg.n1 ∨ h = cfg.n1 + cfg.n2 then
      let part := c.part ++ [decide (h = cfg.n1 + cfg.n2)]
      if part.length = 32 then { c with rx := c.rx ++ [wordOfBits part], part := [] } else { c with part := part }
    else c.refuse .highTime
  | .lost => c
  | .refused _ => c

/-- `LatchEvent()` of R59: the words received so far are displayed, those for pixels at `L_CHAIN` and beyond drop off the
end, and the other pixels keep what they showed (R57, R61, R65). A chain that is lost is known to be empty after its first
latch; what that latch displays stays unspecified (R241; log entry 10). -/
def Chain.latchEvent (cfg : Cfg) (c : Chain) : Chain :=
  match c.status with
  | .tracking =>
    if c.part = [] then { c with disp := c.disp.writeFrom 0 (c.rx.take cfg.lChain), rx := [] }
    else c.refuse .latchInsideWord
  | .lost => { c with status := .tracking, rx := [], part := [] }
  | .refused _ => c

/-- The low run has grown from `m` to `n` cycles: it latches "as soon as it has lasted `N_RST_HI` cycles" (R59). -/
def Chain.lowGrows (cfg : Cfg) (m n : Nat) (c : Chain) : Chain :=
  if m < cfg.nRstHi ∧ cfg.nRstHi ≤ n then c.latchEvent cfg else c

/-- A low run of `l` cycles has ended: a latch, or short enough to skip, or refused (R59). -/
def Chain.lowEnds (cfg : Cfg) (l : Nat) (c : Chain) : Chain :=
  match c.status with
  | .tracking => if cfg.nRstHi ≤ l ∨ l ≤ cfg.nRstLo then c else c.refuse .lowTime
  | .lost => c
  | .refused _ => c

/-- `n ≥ 1` more cycles of high. -/
def Chain.feedHigh (cfg : Cfg) (n : Nat) (c : Chain) : Chain :=
  match c.line with
  | .lead _ => { c with line := .high n }
  | .high m => { c with line := .high (m + n) }
  | .low l => { c.lowEnds cfg l with line := .high n }

/-- `n ≥ 1` more cycles of low. -/
def Chain.feedLow (cfg : Cfg) (n : Nat) (c : Chain) : Chain :=
  match c.line with
  | .lead m => { c.lowGrows cfg m (m + n) with line := .lead (m + n) }
  | .high h => { (c.takeBit cfg h).lowGrows cfg 0 n with line := .low n }
  | .low m => { c.lowGrows cfg m (m + n) with line := .low (m + n) }

/-- The wire is not driven. Before the first driven cycle the receiver reads nothing (R59). After it, the spec leaves open
what a floating data input reads as (R241, U8), and by the model's choice nothing is known of the chain from then on until
a latch, as after a reset; a chain that has refused stays refused (DEDUCED; log entry 38). -/
def Chain.undriven (c : Chain) : Chain :=
  if c.line = .lead 0 then c
  else match c.status with
    | .tracking => Chain.unknown
    | .lost => Chain.unknown
    | .refused _ => c

/-- `n ≥ 1` more cycles of the wire. -/
def Chain.feed (cfg : Cfg) (l : Level) (n : Nat) (c : Chain) : Chain :=
  match l with
  | .z => c.undriven
  | .low => c.feedLow cfg n
  | .high => c.feedHigh cfg n

/-! ### The symbol trace (R11, R80, R91) -/

/-- The symbols of the wire alphabet (R80). -/
inductive WireSymbol
  | b0 | b1 | latch
deriving DecidableEq, Repr

/-- The bit symbol whose high time is `h`. -/
def symbolOfHigh (cfg : Cfg) (h : Nat) : Option WireSymbol :=
  if h = cfg.n1 then some .b0 else if h = cfg.n1 + cfg.n2 then some .b1 else none

/-- The symbols of a list of runs, oldest first: a high run is a bit cell, and the low run after it holds a `LATCH` when
it lasts `N_LATCH` cycles, "by length alone" (R91). The spec is silent on a wire that ends inside a symbol or shows no
symbol; the model's choices (DESIGN CHOICE; log entry 37): a high run that ends the trace is no symbol yet, since more high
cycles may follow; a bit counts once its high run has ended and a `LATCH` once the low run has lasted `N_LATCH` cycles;
`Z` is no symbol; and a trace with a high run of another length has no symbol trace, `none`. -/
def symbolsOf (cfg : Cfg) : List (Level × Nat) → Option (List WireSymbol)
  | [] => some []
  | (.z, _) :: rest => symbolsOf cfg rest
  | (.low, n) :: rest => do
    let tail ← symbolsOf cfg rest
    if cfg.nLatch ≤ n then some (.latch :: tail) else some tail
  | [(.high, _)] => some []
  | (.high, n) :: rest => do
    let s ← symbolOfHigh cfg n
    let tail ← symbolsOf cfg rest
    some (s :: tail)

/-- The symbol trace of a wire trace (R11). -/
def Trace.symbols (cfg : Cfg) (t : Trace) : Option (List WireSymbol) := symbolsOf cfg t.reverse

end Sys2Proof.Machine
end

