-- ==== Sys2Proof/Machine/Flags.lean ====
section
/-! DEFINITION. The control-and-status bits `PIN`, `DIR`, `IE` (R24 to R27) and the preconditions they decide (R110,
R119). The CORE has no condition flags (R30): no operation computes one. -/

namespace Sys2Proof.Machine

/-- The level a driven line has for a bit. -/
def Level.ofBit (b : Bool) : Level := if b then .high else .low

/-- What the wire shows when the pin is set to `b`: the level if `DIR = 1`, `Z` if not (R24, R220). -/
def State.shows (s : State) (b : Bool) : Level := if s.dir then Level.ofBit b else .z

/-- The wire as the ports drive it now: `dout` is `PIN`, `dout_oe` is `DIR` (R220). -/
def State.dout (s : State) : Level := s.shows s.pin

/-- The precondition of `setPinHigh` and `setPinLow`: with `DIR = 0` a model refuses them (R110, R111). -/
def State.whenDriven (s : State) (k : Host.Outcome State Fault Refusal) : Host.Outcome State Fault Refusal :=
  if s.dir then k else .refused .pinNotDriven

/-- The preconditions of every operation of R113 to R118: `DIR = 1` and `IE = 0` (R119, R213). -/
def State.whenLinkReady (s : State) (k : Host.Outcome State Fault Refusal) : Host.Outcome State Fault Refusal :=
  if s.dir then (if s.ie then .refused .interruptsEnabled else k) else .refused .pinNotDriven

end Sys2Proof.Machine
end

