-- ==== Sys2Proof/Machine/Ops.lean ====
section
/-! DEFINITION. The shared operations: `Emit` and the wire trace (R10, R11), sending and latching (R113 to R118), the
one event of the hardware, reset (R215, R240, R241; there is no exception to take and no return, R210, R216), and placing
an operation for the next step. -/

namespace Sys2Proof.Machine

/-! ### The wire trace -/

/-- `n` more cycles of level `l`; a run of the same level grows (R11). -/
def Trace.push (t : Trace) (l : Level) (n : Nat) : Trace :=
  if n = 0 then t
  else match t with
    | [] => [(l, n)]
    | (l', m) :: rest => if l' = l then (l', m + n) :: rest else (l, n) :: (l', m) :: rest

/-- The canonical form of R11: no empty run, and neighbours differ in level. -/
def Trace.wf : Trace → Bool
  | [] => true
  | [(_, n)] => decide (1 ≤ n)
  | (l, n) :: (l', m) :: rest => decide (1 ≤ n) && decide (l ≠ l') && Trace.wf ((l', m) :: rest)

/-- The number of cycles of the trace: the cycle index the next cycle gets (R11, R218). -/
def Trace.cycles (t : Trace) : Nat := (t.map Prod.snd).sum

/-- The trace cycle by cycle, cycle 0 first (R11). -/
def Trace.levels (t : Trace) : List Level := t.reverse.flatMap (fun r => List.replicate r.2 r.1)

/-! ### Emit -/

/-- `n` cycles pass with the wire at `l`: the trace grows and the chain sees it. -/
def State.pass (s : State) (l : Level) (n : Nat) : State :=
  if n = 0 then s else { s with wire := s.wire.push l n, chain := s.chain.feed s.cfg l n }

/-- `Emit(l, n)`: "sets `PIN <- l` and holds it for exactly `n` clock cycles, appending `n` copies of `l` to the wire
trace; `Emit(l, 0)` does nothing" (R10). With `DIR = 0` the wire stays `Z` (R24; log entry 23). -/
def State.emit (s : State) (r : Run) : State :=
  if r.len = 0 then s else { s.pass (s.shows r.level) r.len with pin := r.level }

/-- A list of `Emit`s in order. -/
def State.emitRuns (s : State) (rs : List Run) : State := rs.foldl State.emit s

/-! ### Sending and latching -/

/-- The count of bits sent since the previous latch becomes `n` (R54; log entry 21). -/
def State.setSent (s : State) (n : Nat) : State := { s with sent := n }

/-- Send `bits` bits as the runs `rs`, under the preconditions of R119. -/
def State.transmit (s : State) (bits : Nat) (rs : List Run) : Host.Outcome State Fault Refusal :=
  s.whenLinkReady (.next ((s.emitRuns rs).setSent (s.sent + bits)))

/-- Send `bits` bits as the runs `rs` and then latch: refused "when the number of bytes sent since the previous latch is
not a multiple of 4" (R54, R118; counted in bits, U6, log entry 21). -/
def State.transmitAndLatch (s : State) (bits : Nat) (rs : List Run) : Host.Outcome State Fault Refusal :=
  s.whenLinkReady
    (if (s.sent + bits) % 32 = 0 then .next ((s.emitRuns (rs ++ [latchRun s.cfg])).setSent 0)
     else .refused .latchInsideWord)

/-- Answer a value: a pure function "reads no state and writes none" (41_color_conversion.md); only the model's own `RET`
holds what it returned (log entry 20). -/
def State.answer (s : State) (v : Ret) : Host.Outcome State Fault Refusal := .next { s with ret := v }

/-! ### Reset, the only event -/

/-- `rst_n` asserted: "every piece of state takes its reset value … the pin stops being driven" (R215), the wire is `Z`,
cycle numbering starts anew on release (R240), and what the chain holds is unspecified (R241, U8). Nothing of the
interrupted frame is kept; the placed operation, if any, is dropped. CFG stays (R220). -/
def State.applyReset (s : State) : State :=
  { State.resetWith s.cfg with rstN := s.rstN, chain := Chain.unknown }

/-! ### The operation placed for the next step (log entries 14, 15) -/

/-- The code this step takes: a configuration code at once; any other only after `INIT`, since `init` is "the only step
taken from `SEQ = INIT`" (R190). -/
def State.codeToRun (s : State) : Option Code :=
  match s.code with
  | none => none
  | some c => if s.seq = .init ∧ c.isConfig = false then none else some c

end Sys2Proof.Machine
end

