-- ==== Sys2Proof/Machine/ConfigCodes.lean ====
section
/-! DEFINITION. The configuration codes `ANIM_SEL` and `CONV_SEL` (R88): each selects its strategy or its conversion in
CFG. "CFG is a set of elaboration-time constants" (R220), "fixed for a run; no operation writes it" (R5), so a code has
its effect before the run begins, at `SEQ = INIT`, and is refused after (R4(e); log entry 15). -/

namespace Sys2Proof.Machine

/-- Elaborate with the configuration `c`, before the run begins. -/
def State.configure (s : State) (c : Cfg) : Host.Outcome State Fault Refusal :=
  if s.seq = .init then .next { s with cfg := c } else .refused .runtimeReconfiguration

/-- `ANIM_SEL = 0` (R88): the strategy is `ColorChase` (R161, R163). -/
def execAnimChase (s : State) : Host.Outcome State Fault Refusal := s.configure (s.cfg.setAnim .chase)

/-- `ANIM_SEL = 1` (R88): the strategy is `ColorBreath` (R161, R164). -/
def execAnimHueBreath (s : State) : Host.Outcome State Fault Refusal := s.configure (s.cfg.setAnim .hueBreath)

/-- `ANIM_SEL = 2` (R88): the strategy is `ColorRotate` (R161, R166). -/
def execAnimHueRotate (s : State) : Host.Outcome State Fault Refusal := s.configure (s.cfg.setAnim .hueRotate)

/-- `ANIM_SEL = 3` (R88): the strategy is `ColorSplit` (R161, R167). -/
def execAnimSplit (s : State) : Host.Outcome State Fault Refusal := s.configure (s.cfg.setAnim .split)

/-- `ANIM_SEL = 4` (R88): the strategy is `ColorHires` (R161, R168). -/
def execAnimHires (s : State) : Host.Outcome State Fault Refusal := s.configure (s.cfg.setAnim .hires)

/-- `CONV_SEL = 0` (R88): `HUE_ROTATE` and `SPLIT` use the three-sector mapping (R143). -/
def execConvSec3 (s : State) : Host.Outcome State Fault Refusal := s.configure (s.cfg.setConv .sec3)

/-- `CONV_SEL = 1` (R88): `HUE_ROTATE` and `SPLIT` use the six-sector mapping (R144). -/
def execConvSec6 (s : State) : Host.Outcome State Fault Refusal := s.configure (s.cfg.setConv .sec6)

end Sys2Proof.Machine
end

