-- ==== Sys2Proof/Machine/ColorConversion.lean ====
section
/-! DEFINITION. Colour-space conversion and integer arithmetic (R140 to R148): `map`, `scale`, `hsv3`, `hsv6`, and the
meanings of the four operations. Arithmetic is exact over the integers (R148). -/

namespace Sys2Proof.Machine

/-- `map(x, a, b, c, d) = c + tdiv((x - a) * (d - c), (b - a))`, `tdiv` truncating toward zero and applied before `c` is
added (R9, R140). Meaningful for `a ≠ b`. -/
def remap (x a b c d : Int) : Int := c + Int.tdiv ((x - a) * (d - c)) (b - a)

/-- `scale(c, v) = map(c, 0, 255, 0, v)` (R142). -/
def scale (c v : Byte) : Byte := toByte (remap c.toNat 0 255 0 v.toNat)

/-- A colour with its value applied to each channel (R142, R143, R144). -/
def scaleRgb (c : Rgb) (v : Byte) : Rgb := ⟨scale c.r v, scale c.g v, scale c.b v⟩

/-- The three arcs of R143 at full value. -/
def hue3 (h : Byte) : Rgb :=
  let x : Int := h.toNat
  if h.toNat < 85 then ⟨toByte (remap x 0 85 255 0), toByte (remap x 0 85 0 255), 0⟩
  else if h.toNat < 170 then ⟨0, toByte (remap x 85 170 255 0), toByte (remap x 85 170 0 255)⟩
  else ⟨toByte (remap x 170 255 0 255), 0, toByte (remap x 170 255 255 0)⟩

/-- `hsv3(h, s, v)`: three-sector mapping, saturation ignored (R143, R145). -/
def hsv3 (h _s v : Byte) : Rgb := scaleRgb (hue3 h) v

/-- The sector table of R144 and R168: `dn = 255 - up`, one channel held at 255 and one at 0. -/
def sectorRgb (sec : Nat) (up : Byte) : Rgb :=
  let dn : Byte := 255 - up
  match sec with
  | 0 => ⟨255, up, 0⟩
  | 1 => ⟨dn, 255, 0⟩
  | 2 => ⟨0, 255, up⟩
  | 3 => ⟨0, dn, 255⟩
  | 4 => ⟨up, 0, 255⟩
  | _ => ⟨255, 0, dn⟩

/-- The six arcs of R144 at full value: the hue scaled by 6 and cut every 255; 255 itself is sector 0 again. -/
def hue6 (h : Byte) : Rgb :=
  let x := 6 * h.toNat
  let sec := if x / 255 = 6 then 0 else x / 255
  sectorRgb sec (BitVec.ofNat 8 (x % 255))

/-- `hsv6(h, s, v)`: six-sector mapping, saturation ignored (R144, R145). -/
def hsv6 (h _s v : Byte) : Rgb := scaleRgb (hue6 h) v

/-! ### The meanings -/

/-- `map` (R140): a pure function; `inMin = inMax` is refused (U13). -/
def execMap (x inMin inMax outMin outMax : Int) (s : State) : Host.Outcome State Fault Refusal :=
  if inMin = inMax then .refused .mapDomain else s.answer (.int (remap x inMin inMax outMin outMax))

/-- `scale` (R142). -/
def execScale (c v : Byte) (s : State) : Host.Outcome State Fault Refusal := s.answer (.byte (scale c v))

/-- `hsv3` (R143). -/
def execHsv3 (h sat v : Byte) (s : State) : Host.Outcome State Fault Refusal := s.answer (.rgb (hsv3 h sat v))

/-- `hsv6` (R144). -/
def execHsv6 (h sat v : Byte) (s : State) : Host.Outcome State Fault Refusal := s.answer (.rgb (hsv6 h sat v))

end Sys2Proof.Machine
end

