-- ==== Sys2Proof/Machine/AnimationEngine.lean ====
section
/-! DEFINITION. The Animation Engine (R160 to R174): the five strategies, `Color`, and the meanings of `hueOf`, `env`,
`ramp` and `renderFrame`. Every function is pure in the tick, the pixel index and the configuration (R170). -/

namespace Sys2Proof.Machine

/-- `hueOf(t, D) = map(t mod D, 0, D, 0, 255)`, for `D ≥ 1` (R162). -/
def hueOf (t d : Nat) : Byte := toByte (remap ((t % d : Nat) : Int) 0 d 0 255)

/-- The conversion `CONV_SEL` chooses, at saturation 255 and the value `v` (R88, R166, R167). -/
def convert (c : Cfg) (h v : Byte) : Rgb :=
  match c.convSel with
  | .sec3 => hsv3 h 255 v
  | .sec6 => hsv6 h 255 v

/-- `PRIMARY[phase]` of R163: red, green, blue. -/
def primary (phase : Nat) : Rgb :=
  match phase with
  | 0 => ⟨255, 0, 0⟩
  | 1 => ⟨0, 255, 0⟩
  | _ => ⟨0, 0, 255⟩

/-- `ColorChase(t, i)` (R163). -/
def colorChase (c : Cfg) (t i : Nat) : Sample :=
  let q := t / c.chaseStep
  let sweep := q % c.pixels
  let phase := (q / c.pixels) % 3
  sampleOfRgb (if i < sweep then primary phase else primary ((phase + 2) % 3)) 0

/-- `BR_PERIOD` (R164). -/
def brPeriod (c : Cfg) : Nat := c.brRise + c.brHold + c.brFall + c.brPause

/-- The four segments of `env(e)` for `0 ≤ e < BR_PERIOD` (R165): rising, plateau, falling, pause. -/
def envSegments (c : Cfg) (e : Nat) : Byte :=
  let a := c.brRise
  let b := a + c.brHold
  let f := b + c.brFall
  if e < a then toByte (remap e 0 a c.brWMin.toNat c.brWMax.toNat)
  else if e < b then c.brWMax
  else if e < f then toByte (remap e b f c.brWMax.toNat c.brWMin.toNat)
  else c.brWMin

/-- `env(e)`; outside the domain R165 states, a free value (log entry 25). -/
def env (c : Cfg) (e : Nat) : Byte :=
  if e < brPeriod c then envSegments c e else Config.freeEnv c e

/-- `ColorBreath(t, i)` (R164). -/
def colorBreath (c : Cfg) (t _i : Nat) : Sample :=
  sampleOfRgb (hsv6 (hueOf t c.dBHue) 255 c.brValue) (env c (t % brPeriod c))

/-- `ColorRotate(t, i)` (R166). -/
def colorRotate (c : Cfg) (t _i : Nat) : Sample :=
  sampleOfRgb (convert c (hueOf t c.dRot) 255) 0

/-- The two single-channel samples a split shows, `A` and `B`, from the derived colour: the tests in the order R167 gives
them. -/
def splitPair (x : Rgb) : Sample × Sample :=
  if x.b = 0 then (⟨0, x.r, 0, 0⟩, ⟨x.g, 0, 0, 0⟩)
  else if x.r = 0 then (⟨x.g, 0, 0, 0⟩, ⟨0, 0, x.b, 0⟩)
  else (⟨0, 0, x.b, 0⟩, ⟨0, x.r, 0, 0⟩)

/-- `ColorSplit(t, i)` (R167). -/
def colorSplit (c : Cfg) (t i : Nat) : Sample :=
  let ab := splitPair (convert c (hueOf t c.dSplit) 255)
  let swap := (t / (2 * c.dSplit)) % 2
  let halves := if swap = 0 then ab else (ab.2, ab.1)
  if i < c.pixels / 2 then halves.1 else halves.2

/-- The three cases of `ramp(i, p)` for `0 ≤ p < 255*P` (R169): behind the front, at it, ahead of it. -/
def rampCases (i p : Nat) : Byte :=
  if i < p / 255 then 255 else if i = p / 255 then BitVec.ofNat 8 (p % 255) else 0

/-- `ramp(i, p)`; outside the domain R169 states, a free value (log entry 26). -/
def ramp (c : Cfg) (i p : Nat) : Byte :=
  if i < c.pixels ∧ p < 255 * c.pixels then rampCases i p else Config.freeRamp c i p

/-- `H` of R168: the position of the sweep in the whole rainbow, `0 .. 1530*P - 1`. -/
def hiresPosition (c : Cfg) (t : Nat) : Nat :=
  (remap ((t % c.dHires : Nat) : Int) 0 c.dHires 0 (1530 * c.pixels)).toNat

/-- `ColorHires(t, i)` (R168). -/
def colorHires (c : Cfg) (t i : Nat) : Sample :=
  let pos := hiresPosition c t
  sampleOfRgb (sectorRgb (pos / (255 * c.pixels)) (ramp c i (pos % (255 * c.pixels)))) 0

/-- The strategy `ANIM_SEL` selects (R161: "a static choice"). -/
def strategy (c : Cfg) (t i : Nat) : Sample :=
  match c.animSel with
  | .chase => colorChase c t i
  | .hueBreath => colorBreath c t i
  | .hueRotate => colorRotate c t i
  | .split => colorSplit c t i
  | .hires => colorHires c t i

/-- `Color(CFG, t, i)` for `0 ≤ t < 2^TICK_BITS` and `0 ≤ i < P` (R161); outside, a free value (log entry 27). -/
def color (c : Cfg) (t i : Nat) : Sample :=
  if t < 2 ^ c.tickBits ∧ i < c.pixels then strategy c t i else Config.freeColor c t i

/-- The runs of the `P` pixel words of a frame, in ascending index order (R160, R195). -/
def pixelRuns (c : Cfg) (t : Nat) : List Run :=
  (List.range c.pixels).flatMap (fun i => wordRuns c (color c t i))

/-! ### The meanings -/

/-- `hueOf` (R162). `D = 0` is a `map` with `inMin = inMax` (R140; log entry 28). -/
def execHueOf (t d : Nat) (s : State) : Host.Outcome State Fault Refusal :=
  if d = 0 then .refused .mapDomain else s.answer (.byte (hueOf t d))

/-- `env` (R165). -/
def execEnv (e : Nat) (s : State) : Host.Outcome State Fault Refusal := s.answer (.byte (env s.cfg e))

/-- `ramp` (R169). -/
def execRamp (i p : Nat) (s : State) : Host.Outcome State Fault Refusal := s.answer (.byte (ramp s.cfg i p))

/-- `renderFrame(t, P)` (R160): `P` pixel words in ascending index order, then a latch. A pixel count outside 1..255 makes
no valid configuration (R6; log entry 29). -/
def execRenderFrame (t p : Nat) (s : State) : Host.Outcome State Fault Refusal :=
  if h : 1 ≤ p ∧ p ≤ 255 then s.transmitAndLatch (32 * p) (pixelRuns (s.cfg.withPixels p h) t)
  else .refused .invalidConfiguration

end Sys2Proof.Machine
end

