-- ==== Sys2Proof/Machine/PixelLink.lean ====
section
/-! DEFINITION. Pixel Link (R110 to R122): the pin primitives, the wire symbols, the pixel word and the five operations
of its contract. -/

namespace Sys2Proof.Machine

/-! ### Pin primitives: no time of their own (R110 to R112) -/

/-- `setPinHigh()`: `PIN <- 1` (R110). -/
def execSetPinHigh (s : State) : Host.Outcome State Fault Refusal := s.whenDriven (.next { s with pin := true })

/-- `setPinLow()`: `PIN <- 0` (R111). -/
def execSetPinLow (s : State) : Host.Outcome State Fault Refusal := s.whenDriven (.next { s with pin := false })

/-- The effect of `setPinDirectionOutput()`: `DIR <- 1` (R112). -/
def State.driveOutput (s : State) : State := { s with dir := true }

/-- `setPinDirectionOutput()` (R112). -/
def execSetPinDirectionOutput (s : State) : Host.Outcome State Fault Refusal := .next s.driveOutput

/-! ### Bits -/

/-- `sendBit(bit)` (R113). -/
def execSendBit (b : Bool) (s : State) : Host.Outcome State Fault Refusal := s.transmit 1 (bitRuns s.cfg b)

/-- The wire symbol `B0`: high `N1`, low `N2 + N3` (R80), "emitted by sendBit(0)". -/
def execB0 (s : State) : Host.Outcome State Fault Refusal := s.transmit 1 (bitRuns s.cfg false)

/-- The wire symbol `B1`: high `N1 + N2`, low `N3` (R80), "emitted by sendBit(1)". -/
def execB1 (s : State) : Host.Outcome State Fault Refusal := s.transmit 1 (bitRuns s.cfg true)

/-! ### Bytes and words -/

/-- `sendByte(value)` (R114). -/
def execSendByte (v : Byte) (s : State) : Host.Outcome State Fault Refusal := s.transmit 8 (byteRuns s.cfg v)

/-- A pixel word on the wire: BYTE(g) BYTE(r) BYTE(b) BYTE(w) and the pixel gap (R83). -/
def execPixelWord (g r b w : Byte) (s : State) : Host.Outcome State Fault Refusal :=
  s.transmit 32 (wordRuns s.cfg ⟨g, r, b, w⟩)

/-- `writeColor(g, r, b, w)` (R115). -/
def execWriteColor (g r b w : Byte) (s : State) : Host.Outcome State Fault Refusal :=
  s.transmit 32 (wordRuns s.cfg ⟨g, r, b, w⟩)

/-- The runs of `n` copies of one pixel word. -/
def copiesOf (c : Cfg) (n : Nat) (x : Sample) : List Run := (List.replicate n (wordRuns c x)).flatten

/-- `writeColorAll(g, r, b, w)`: `P` times `writeColor` (R116). -/
def execWriteColorAll (g r b w : Byte) (s : State) : Host.Outcome State Fault Refusal :=
  s.transmit (32 * s.cfg.pixels) (copiesOf s.cfg s.cfg.pixels ⟨g, r, b, w⟩)

/-- `clear()`: `3*P` times `writeColor(0, 0, 0, 0)` (R117). -/
def execClear (s : State) : Host.Outcome State Fault Refusal :=
  s.transmit (32 * (3 * s.cfg.pixels)) (copiesOf s.cfg (3 * s.cfg.pixels) ⟨0, 0, 0, 0⟩)

/-! ### Latch -/

/-- `latch()` (R118). -/
def execLatch (s : State) : Host.Outcome State Fault Refusal := s.transmitAndLatch 0 []

/-- The wire symbol `LATCH`: the line low for `N_LATCH` cycles (R80), what `latch()` puts on the wire (R118). -/
def execLatchSym (s : State) : Host.Outcome State Fault Refusal := s.transmitAndLatch 0 []

end Sys2Proof.Machine
end

