-- ==== Sys2Proof/Machine/FrameDriver.lean ====
section
/-! DEFINITION. The Frame Driver (R190 to R200): `init`, `delay`, `tickInc`, the frame as a list of runs, and the clock
step of R196. -/

namespace Sys2Proof.Machine

/-! ### The frame as a list of runs (R23, R195) -/

/-- `FrameRuns(CFG, t)` (R195): the pixel words, the latch, the delay. -/
def frameRuns (c : Cfg) (t : Nat) : List Run :=
  pixelRuns c t ++ [latchRun c, ⟨false, c.nDelay⟩]

/-- `101*P + 2`, the number of runs of a frame (R22). -/
def frameRunCount (c : Cfg) : Nat := 101 * c.pixels + 2

/-- `len(k)`: the length of run `k`, by the coordinates of R23. It does not depend on the tick. -/
def runLen (c : Cfg) (k : Nat) : Nat :=
  if k < 101 * c.pixels then
    let q := k % 101
    if q = 100 then c.gPixel
    else if q % 25 = 24 then c.gByte
    else match (q % 25) % 3 with
      | 0 => c.n1
      | 1 => c.n2
      | _ => c.n3
  else if k = 101 * c.pixels then c.nLatch
  else c.nDelay

/-- `lvl(k)`: the level of run `k` of the frame of tick `t`, by the coordinates of R23: region 1 high, region 2 bit
`7 - (s div 3)` of byte `j` of pixel `i`, everything else low. -/
def runLevel (c : Cfg) (t k : Nat) : Bool :=
  if k < 101 * c.pixels then
    let q := k % 101
    if q = 100 then false
    else if q % 25 = 24 then false
    else match (q % 25) % 3 with
      | 0 => true
      | 1 => (sampleByte (color c t (k / 101)) (q / 25)).getLsbD (7 - (q % 25) / 3)
      | _ => false
  else false

/-- `SEQ` is a position of R22: `INIT`, or `RUN(k, n)` with `k` one of the runs and `1 ≤ n ≤ len(k)`. -/
def isPosition (c : Cfg) : SeqPos → Bool
  | .init => true
  | .run k n => decide (k < frameRunCount c) && decide (1 ≤ n) && decide (n ≤ runLen c k)

/-- The least run index `≥ k` with `len ≥ 1` among the next `fuel`, if there is one (R196). -/
def firstRun (c : Cfg) : Nat → Nat → Option Nat
  | 0, _ => none
  | fuel + 1, k => if 1 ≤ runLen c k then some k else firstRun c fuel (k + 1)

/-- "the least index > k with len(k') >= 1, if there is one" (R196). -/
def nextRun (c : Cfg) (k : Nat) : Option Nat := firstRun c (frameRunCount c - (k + 1)) (k + 1)

/-- The count of bits sent since the previous latch, once run `k` has ended: region 3 ends a bit, the latch run ends the
frame (R54; log entry 21). -/
def sentAfter (c : Cfg) (k sent : Nat) : Nat :=
  if k < 101 * c.pixels then
    if k % 101 ≠ 100 ∧ (k % 101) % 25 ≠ 24 ∧ ((k % 101) % 25) % 3 = 2 then sent + 1 else sent
  else if k = 101 * c.pixels then 0
  else sent

/-! ### The operations -/

/-- `SEQ <- RUN(k, n)` and "`PIN <- lvl(k)` of the new `SEQ`" (R196). -/
def State.enter (s : State) (k n : Nat) : State :=
  { s with seq := .run k n, pin := runLevel s.cfg s.tick k }

/-- The effect of `init()` (R190): one cycle with the wire `Z`; `IE <- 0`; `DIR <- 1`; `SEQ <- RUN(0, N1)`, and `PIN` at
the level of that run (R24, R31). -/
def State.initialise (s : State) : State :=
  let s := s.pass .z 1
  (State.driveOutput { s with ie := false }).enter 0 s.cfg.n1

/-- `init()` (R190). -/
def execInit (s : State) : Host.Outcome State Fault Refusal := .next s.initialise

/-- `delay(n)`: `Emit(0, n)` (R192). -/
def execDelay (n : Nat) (s : State) : Host.Outcome State Fault Refusal := .next (s.emit ⟨false, n⟩)

/-- The effect of `tickInc()`: `TICK <- (TICK + 1) mod 2^TICK_BITS` (R21, R194). -/
def State.advanceTick (s : State) : State := { s with tick := (s.tick + 1) % 2 ^ s.cfg.tickBits }

/-- `tickInc()` (R194). -/
def execTickInc (s : State) : Host.Outcome State Fault Refusal := .next s.advanceTick

/-! ### The clock step (R196) -/

/-- The state after the last cycle of run `k`: the next run that takes time, or the next frame. -/
def State.leaveRun (s : State) (k : Nat) : State :=
  let s := s.setSent (sentAfter s.cfg k s.sent)
  match nextRun s.cfg k with
  | some k' => s.enter k' (runLen s.cfg k')
  | none => s.advanceTick.enter 0 s.cfg.n1

/-- One clock cycle in `RUN(k, n)`: "during a cycle in which `SEQ = RUN(k, n)` the wire is `lvl(k)`", then `SEQ` moves on
(R196). -/
def State.clockRun (s : State) (k n : Nat) : State :=
  let s := s.emit ⟨runLevel s.cfg s.tick k, 1⟩
  if 1 < n then s.enter k (n - 1) else s.leaveRun k

/-- The clock step of R196. A `SEQ` that is no position of R22 is refused (log entry 30). -/
def clockStep (s : State) : Host.Outcome State Fault Refusal :=
  match s.seq with
  | .init => .next s.initialise
  | .run k n => if isPosition s.cfg (.run k n) then .next (s.clockRun k n) else .refused .noSuchPosition

/-! ### The wire in closed form (R199) -/

/-- `WIRE[c]` of R199, from the configuration and the cycle number alone. -/
def wireAt (cfg : Cfg) (c : Nat) : Level :=
  if c = 0 then .z
  else
    let n := (c - 1) / frameCycles cfg
    let o := (c - 1) % frameCycles cfg
    if cfg.pixels * wordCycles cfg ≤ o then .low
    else
      let i := o / wordCycles cfg
      let o1 := o % wordCycles cfg
      if 4 * byteCycles cfg ≤ o1 then .low
      else
        let j := o1 / byteCycles cfg
        let o2 := o1 % byteCycles cfg
        if 8 * bitCycles cfg ≤ o2 then .low
        else
          let o3 := o2 % bitCycles cfg
          let bit := (sampleByte (color cfg (n % 2 ^ cfg.tickBits) i) j).getLsbD (7 - o2 / bitCycles cfg)
          if o3 < cfg.n1 then .high
          else if o3 < cfg.n1 + cfg.n2 then Level.ofBit bit
          else .low

end Sys2Proof.Machine
end

