-- ==== Sys2Proof/Machine/Dispatch.lean ====
section
/-! DEFINITION. One arm per operation, each a direct call of its meaning. -/

namespace Sys2Proof.Machine

def exec (i : Instr) (s : State) : Host.Outcome State Fault Refusal :=
  match i with
  | .b0 => Sys2Proof.Machine.execB0 s
  | .b1 => Sys2Proof.Machine.execB1 s
  | .latchSym => Sys2Proof.Machine.execLatchSym s
  | .pixelWord g r b w => Sys2Proof.Machine.execPixelWord g r b w s
  | .sendByte v => Sys2Proof.Machine.execSendByte v s
  | .writeColor g r b w => Sys2Proof.Machine.execWriteColor g r b w s
  | .writeColorAll g r b w => Sys2Proof.Machine.execWriteColorAll g r b w s
  | .clear => Sys2Proof.Machine.execClear s
  | .latch => Sys2Proof.Machine.execLatch s
  | .animChase => Sys2Proof.Machine.execAnimChase s
  | .animHueBreath => Sys2Proof.Machine.execAnimHueBreath s
  | .animHueRotate => Sys2Proof.Machine.execAnimHueRotate s
  | .animSplit => Sys2Proof.Machine.execAnimSplit s
  | .animHires => Sys2Proof.Machine.execAnimHires s
  | .convSec3 => Sys2Proof.Machine.execConvSec3 s
  | .convSec6 => Sys2Proof.Machine.execConvSec6 s
  | .setPinHigh => Sys2Proof.Machine.execSetPinHigh s
  | .setPinLow => Sys2Proof.Machine.execSetPinLow s
  | .setPinDirectionOutput => Sys2Proof.Machine.execSetPinDirectionOutput s
  | .sendBit b => Sys2Proof.Machine.execSendBit b s
  | .map x inMin inMax outMin outMax => Sys2Proof.Machine.execMap x inMin inMax outMin outMax s
  | .scale c v => Sys2Proof.Machine.execScale c v s
  | .hsv3 h sat v => Sys2Proof.Machine.execHsv3 h sat v s
  | .hsv6 h sat v => Sys2Proof.Machine.execHsv6 h sat v s
  | .hueOf t d => Sys2Proof.Machine.execHueOf t d s
  | .env e => Sys2Proof.Machine.execEnv e s
  | .ramp k p => Sys2Proof.Machine.execRamp k p s
  | .renderFrame t p => Sys2Proof.Machine.execRenderFrame t p s
  | .init => Sys2Proof.Machine.execInit s
  | .delay n => Sys2Proof.Machine.execDelay n s
  | .tickInc => Sys2Proof.Machine.execTickInc s

end Sys2Proof.Machine
end

