-- ==== Sys2Proof/Machine/Registers.lean ====
section
/-! DEFINITION. The transient registers of R28 as views of the state: "every one of them is a function of
(CFG, TICK, SEQ)". Where R28 and R31 leave one unspecified (U3) it reads as a free value that may change every cycle
(log entry 6). -/

namespace Sys2Proof.Machine

/-- The run index, while it lies in the pixel part of the frame, `k < 101*P` (R28). -/
def State.pixelRun (s : State) : Option Nat :=
  match s.seq with
  | .init => none
  | .run k _ => if k < 101 * s.cfg.pixels then some k else none

/-- What register `r` reads as while it is unspecified. -/
def State.unspecified (s : State) (r : TransientReg) : Byte := Config.freeReg r s.wire.cycles

/-- `PIX`: the Pixel Index being sent (R28). -/
def State.pix (s : State) : Byte :=
  match s.pixelRun with
  | some k => BitVec.ofNat 8 (k / 101)
  | none => s.unspecified .pix

/-- The Color Sample of pixel `PIX` (R28), while there is one. -/
def State.currentColor (s : State) : Option Sample :=
  s.pixelRun.map (fun k => color s.cfg s.tick (k / 101))

/-- `CG` (R28). -/
def State.cg (s : State) : Byte := (s.currentColor.map Sample.g).getD (s.unspecified .cg)

/-- `CR` (R28). -/
def State.cr (s : State) : Byte := (s.currentColor.map Sample.r).getD (s.unspecified .cr)

/-- `CB` (R28). -/
def State.cb (s : State) : Byte := (s.currentColor.map Sample.b).getD (s.unspecified .cb)

/-- `CW` (R28). -/
def State.cw (s : State) : Byte := (s.currentColor.map Sample.w).getD (s.unspecified .cw)

/-- `SHIFT`: the byte being serialised, byte `j` of the sample (R23, R28); in the pixel gap there is none. -/
def State.shift (s : State) : Byte :=
  match s.pixelRun with
  | some k =>
    if k % 101 = 100 then s.unspecified .shift
    else sampleByte (color s.cfg s.tick (k / 101)) ((k % 101) / 25)
  | none => s.unspecified .shift

/-- `BITN`, 3 bits: `7 - (s div 3)` when `s < 24` (R23, R28). -/
def State.bitn (s : State) : BitVec 3 :=
  match s.pixelRun with
  | some k =>
    if k % 101 ≠ 100 ∧ (k % 101) % 25 < 24 then BitVec.ofNat 3 (7 - ((k % 101) % 25) / 3)
    else (s.unspecified .bitn).setWidth 3
  | none => (s.unspecified .bitn).setWidth 3

/-- `CNT`: the cycles left in the current run, the `n` of `RUN(k, n)` (R28, R218). -/
def State.cnt (s : State) : Nat :=
  match s.seq with
  | .init => Config.freeCnt s.wire.cycles
  | .run _ n => n

end Sys2Proof.Machine
end

