-- ==== Sys2Proof/Machine/Step.lean ====
section
/-! DEFINITION. One step: reset wins (R214, R215); else the operation placed for this step, if one is to be taken (log
entry 14); else one clock cycle of the CORE on its own (R196). -/

namespace Sys2Proof.Machine

/-- One step of the machine. -/
def step (s : State) : Host.Outcome State Fault Refusal :=
  if s.rstN = false then .next s.applyReset
  else match s.codeToRun with
    | none => clockStep s
    | some c =>
      match decode c with
      | .ok i => exec i { s with code := none }
      | .illegal e => .refused (.illegalCode e)

/-- `s` with a table word placed so that the very next step runs it: reset released, the word in the slot and, unless it
is a configuration code, the `init` step taken, since no operation runs from `SEQ = INIT` (R190; log entry 14). -/
def State.withFetchWord (s : State) (nbits w : Nat) : State :=
  let c := codeOfTableWord nbits w
  let s := if s.seq = .init ∧ c.isConfig = false then s.initialise else s
  { s with rstN := true, code := some c }

end Sys2Proof.Machine
end

