-- ==== Sys2Proof/Safety.lean ====
section
/-! DEFINITION. The terms claims use: the invariant of a run, the static hazard conditions (R244 to R248), readiness of
Pixel Link and of the chain, waveforms cycle by cycle, and runs of operations. -/

namespace Sys2Proof.Machine

/-! ### Invariants of a run -/

/-- What every state a step leads to satisfies: `TICK` fits its width (R21), `SEQ` is a position (R22), the pin is driven
with interrupts masked exactly once `INIT` is over (R25, R26, R119), before which the chain has seen no driven cycle (R59),
and the trace and `DISP` are in canonical form with `PART` shorter than a word (R11, R58). -/
structure Inv (s : State) : Prop where
  tick : s.tick < 2 ^ s.cfg.tickBits
  position : isPosition s.cfg s.seq = true
  beforeInit : s.seq = .init → s.dir = false ∧ s.chain.line = .lead 0
  afterInit : s.seq ≠ .init → s.dir = true ∧ s.ie = false
  wire : s.wire.wf = true
  disp : s.chain.disp.wf = true
  part : s.chain.part.length < 32

/-- `PIN` equals the level of the current run (R24: "from the first cycle after the initialisation step `PIN` equals the
level of the current run of the frame"). Placed operations may leave it otherwise for a moment (log entry 35). -/
def PinFollowsRun (s : State) : Prop :=
  ∀ k n, s.seq = .run k n → s.pin = runLevel s.cfg s.tick k

/-! ### Readiness -/

/-- The preconditions of R119. -/
abbrev LinkReady (s : State) : Prop := s.dir = true ∧ s.ie = false

/-- A whole number of pixel words has been sent since the previous latch (R54, R249). -/
abbrev WholeWords (s : State) : Prop := s.sent % 32 = 0

/-- A rising edge may end the receiver's run (R59): it is the time before the first bit, or a low run short enough to
skip, or one that has latched. -/
def LineQuiet (c : Cfg) : Line → Prop
  | .lead _ => True
  | .high _ => False
  | .low l => l ≤ c.nRstLo ∨ c.nRstHi ≤ l

/-- The receiver is tracking, between words, and ready for a rising edge. -/
def ChainQuiet (c : Cfg) (ch : Chain) : Prop :=
  ch.status = .tracking ∧ ch.part = [] ∧ LineQuiet c ch.line

/-! ### Static hazard conditions (R244) -/

/-- R246: the longest low inside a frame is not mistaken for a latch. -/
abbrev NoEarlyLatch (c : Cfg) : Prop := c.n2 + c.n3 + c.gByte + c.gPixel ≤ c.nRstLo

/-- R248: the latch hold reaches the chain's threshold. Part of validity (R6). -/
abbrev LatchLongEnough (c : Cfg) : Prop := c.nRstHi ≤ c.nLatch

/-- R247, multiplied out to exact integers: `|N1/F_CLK - T0H_NOM| ≤ TOL`, `|N3/F_CLK - T1L_NOM| ≤ TOL` (times in ns) and
`|NB/F_CLK - 1/F_BIT| ≤ PCT * (1/F_BIT)` (`PCT` in hundredths of a percent). -/
abbrev BitTimingInTolerance (c : Cfg) : Prop :=
  |(c.n1 : Int) * 1000000000 - c.t0hNom * c.fClk| ≤ c.tol * c.fClk ∧
  |(c.n3 : Int) * 1000000000 - c.t1lNom * c.fClk| ≤ c.tol * c.fClk ∧
  |(bitCycles c : Int) * c.fBit - c.fClk| * 10000 ≤ c.pct * c.fClk

/-! ### Waveforms, one level a clock cycle (R80, R82, R83) -/

/-- A bit cell: `N1` high, `N2` at the bit, `N3` low (R80). -/
def bitWave (c : Cfg) (b : Bool) : List Level :=
  List.replicate c.n1 .high ++ List.replicate c.n2 (Level.ofBit b) ++ List.replicate c.n3 .low

/-- BYTE: bit 7 first, then `G_BYTE` low (R82). -/
def byteWave (c : Cfg) (v : Byte) : List Level :=
  (List.range 8).flatMap (fun m => bitWave c (v.getLsbD (7 - m))) ++ List.replicate c.gByte .low

/-- PIX32 on the wire: green, red, blue, white, then `G_PIXEL` low (R83). -/
def wordWave (c : Cfg) (g r b w : Byte) : List Level :=
  byteWave c g ++ byteWave c r ++ byteWave c b ++ byteWave c w ++ List.replicate c.gPixel .low

/-- FRAME: the pixel words in order, then a latch (R84, R160). -/
def frameWave (c : Cfg) (t : Nat) : List Level :=
  (List.range c.pixels).flatMap (fun i =>
    wordWave c (color c t i).g (color c t i).r (color c t i).b (color c t i).w) ++ List.replicate c.nLatch .low

/-- From `s` to `t` exactly the levels `ls` were put on the wire. -/
abbrev Emitted (s t : State) (ls : List Level) : Prop := t.wire.levels = s.wire.levels ++ ls

/-! ### Runs -/

/-- Operations in order, stopping at the first that has no next state. -/
def execAll : List Instr → State → Host.Outcome State Fault Refusal
  | [], s => .next s
  | i :: is, s =>
    match exec i s with
    | .next t => execAll is t
    | .fault r => .fault r
    | .refused r => .refused r

/-- `n` steps of the machine. -/
abbrev runSteps (n : Nat) (s : State) : Host.Outcome State Fault Refusal := Host.Core.run Sys2Proof.core n s

/-- Nothing is placed and reset is released: the CORE runs on its own. -/
abbrev RunsAlone (s : State) : Prop := s.rstN = true ∧ s.code = none

/-! ### Kinds of operation -/

/-- The rows that put bits or a latch on the wire: the operations of R113 to R118 and the symbols and words they send. -/
def isLinkOperation : Instr → Bool
  | .b0 | .b1 | .latchSym | .sendByte _ | .writeColor _ _ _ _ | .writeColorAll _ _ _ _ | .pixelWord _ _ _ _ => true
  | .clear | .latch | .sendBit _ => true
  | .animChase | .animHueBreath | .animHueRotate | .animSplit | .animHires | .convSec3 | .convSec6 => false
  | .setPinHigh | .setPinLow | .setPinDirectionOutput => false
  | .map _ _ _ _ _ | .scale _ _ | .hsv3 _ _ _ | .hsv6 _ _ _ | .hueOf _ _ | .env _ | .ramp _ _ => false
  | .renderFrame _ _ | .init | .delay _ | .tickInc => false

/-- The configuration codes (R88). -/
def isConfigCode : Instr → Bool
  | .animChase | .animHueBreath | .animHueRotate | .animSplit | .animHires | .convSec3 | .convSec6 => true
  | .b0 | .b1 | .latchSym | .sendByte _ | .writeColor _ _ _ _ | .writeColorAll _ _ _ _ | .pixelWord _ _ _ _ => false
  | .clear | .latch | .sendBit _ => false
  | .setPinHigh | .setPinLow | .setPinDirectionOutput => false
  | .map _ _ _ _ _ | .scale _ _ | .hsv3 _ _ _ | .hsv6 _ _ _ | .hueOf _ _ | .env _ | .ramp _ _ => false
  | .renderFrame _ _ | .init | .delay _ | .tickInc => false

/-- The pure functions (41_color_conversion.md; R162, R165, R169). -/
def isPureFunction : Instr → Bool
  | .map _ _ _ _ _ | .scale _ _ | .hsv3 _ _ _ | .hsv6 _ _ _ | .hueOf _ _ | .env _ | .ramp _ _ => true
  | .b0 | .b1 | .latchSym | .sendByte _ | .writeColor _ _ _ _ | .writeColorAll _ _ _ _ | .pixelWord _ _ _ _ => false
  | .clear | .latch | .sendBit _ => false
  | .animChase | .animHueBreath | .animHueRotate | .animSplit | .animHires | .convSec3 | .convSec6 => false
  | .setPinHigh | .setPinLow | .setPinDirectionOutput => false
  | .renderFrame _ _ | .init | .delay _ | .tickInc => false

/-- The rows that close a frame with a latch. -/
def endsWithLatch : Instr → Bool
  | .latch | .latchSym | .renderFrame _ _ => true
  | .b0 | .b1 | .sendByte _ | .writeColor _ _ _ _ | .writeColorAll _ _ _ _ | .pixelWord _ _ _ _ => false
  | .clear | .sendBit _ => false
  | .animChase | .animHueBreath | .animHueRotate | .animSplit | .animHires | .convSec3 | .convSec6 => false
  | .setPinHigh | .setPinLow | .setPinDirectionOutput => false
  | .map _ _ _ _ _ | .scale _ _ | .hsv3 _ _ _ | .hsv6 _ _ _ | .hueOf _ _ | .env _ | .ramp _ _ => false
  | .init | .delay _ | .tickInc => false

/-- The strategy's period in ticks (R171). -/
def periodOf (c : Cfg) : Nat :=
  match c.animSel with
  | .chase => c.chaseStep * c.pixels * 3
  | .hueBreath => Nat.lcm c.dBHue (brPeriod c)
  | .hueRotate => c.dRot
  | .split => 4 * c.dSplit
  | .hires => c.dHires

end Sys2Proof.Machine
end

