-- ==== Sys2Proof/Certificates/Slice0/Obligations.lean ====
section
/-! DEFINITION. The statements for the provers, each from a rule of spec/ (OBLIGATIONS.json names the rule and quotes
it). -/

open Sys2Proof Sys2Proof.Machine

/-! ## Encodings -/

/-- A few words written out from the tables of 30_encoding.md and from the programs of 95_test_vectors.md (R80, R83, R86
to R88) decode to the operation they stand for. -/
def Obligations.WordsOfTheTableDecode : Prop :=
  decode (.word .plcmd 35 0x0A5000000) = .ok (.sendByte 0xA5) ∧
  decode (.word .plcmd 35 0x112345678) = .ok (.writeColor 0x12 0x34 0x56 0x78) ∧
  decode (.word .plcmd 35 0x281007E00) = .ok (.writeColorAll 0x81 0x00 0x7E 0x00) ∧
  decode (.word .plcmd 35 0x300000000) = .ok .clear ∧
  decode (.word .plcmd 35 0x400000000) = .ok .latch ∧
  decode (.word .pix32 32 0x00FF0000) = .ok (.pixelWord 0x00 0xFF 0x00 0x00) ∧
  decode (.word .sym 12 0b111000000000) = .ok .b0 ∧
  decode (.word .sym 12 0b111111000000) = .ok .b1 ∧
  decode (.word .sym 2688 0) = .ok .latchSym ∧
  decode (.word .anim 3 0b011) = .ok .animSplit ∧
  decode (.word .conv 1 1) = .ok .convSec6 ∧
  decode (.named .map [1, 0, 2, 255, 0]) = .ok (.map 1 0 2 255 0)

/-- Decode and encode agree: no bit of an operand is dropped, for every operation and every operand the encodings admit. -/
def Obligations.EncodedOperationDecodesToItself : Prop :=
  ∀ i : Instr, WellFormed i → decode (encode i) = .ok i

/-- The command word: `op` 34:32 with the five operation codes and the reserved ones (R87), the operand bytes by their bit
positions, operand bits an operation does not use ignored on decode and 0 on encode. -/
def Obligations.CommandWordFieldsByPosition : Prop :=
  (∀ x : BitVec 35,
    let a := x.extractLsb' 24 8
    let b := x.extractLsb' 16 8
    let c := x.extractLsb' 8 8
    let d := x.extractLsb' 0 8
    let op := x.extractLsb' 32 3
    (op = 0 → decode (.word .plcmd 35 x.toNat) = .ok (.sendByte a)) ∧
    (op = 1 → decode (.word .plcmd 35 x.toNat) = .ok (.writeColor a b c d)) ∧
    (op = 2 → decode (.word .plcmd 35 x.toNat) = .ok (.writeColorAll a b c d)) ∧
    (op = 3 → decode (.word .plcmd 35 x.toNat) = .ok .clear) ∧
    (op = 4 → decode (.word .plcmd 35 x.toNat) = .ok .latch) ∧
    (op = 5 ∨ op = 6 ∨ op = 7 → decode (.word .plcmd 35 x.toNat) = .illegal .reservedOp)) ∧
  (∀ v : Byte, encode (.sendByte v) = .word .plcmd 35 (((0 : BitVec 3) ++ v ++ (0 : BitVec 24) : BitVec 35).toNat)) ∧
  (∀ g r b w : Byte,
    encode (.writeColor g r b w) = .word .plcmd 35 (((1 : BitVec 3) ++ g ++ r ++ b ++ w : BitVec 35).toNat) ∧
    encode (.writeColorAll g r b w) = .word .plcmd 35 (((2 : BitVec 3) ++ g ++ r ++ b ++ w : BitVec 35).toNat)) ∧
  encode .clear = .word .plcmd 35 (((3 : BitVec 3) ++ (0 : BitVec 32) : BitVec 35).toNat) ∧
  encode .latch = .word .plcmd 35 (((4 : BitVec 3) ++ (0 : BitVec 32) : BitVec 35).toNat)

/-- The reserved values 5 to 7 of `op`, whatever the operand bits, and of `ANIM_SEL` are refused, not taken as
no-operations: the step that would run one stops. -/
def Obligations.ReservedCodesAreRefused : Prop :=
  ∀ s : State, s.rstN = true →
    (∀ w, 5 * 2 ^ 32 ≤ w → w < 2 ^ 35 → s.seq ≠ .init → s.code = some (.word .plcmd 35 w) →
      step s = .refused (.illegalCode .reservedOp)) ∧
    (∀ w, 5 ≤ w → w ≤ 7 → s.code = some (.word .anim 3 w) →
      step s = .refused (.illegalCode .reservedAnim))

/-- R83: the fields of a pixel word by position, every value legal, and what it puts on the wire. -/
def Obligations.PixelWordFieldsAndWire : Prop :=
  (∀ x : PixelWord,
    decode (.word .pix32 32 x.toNat) =
      .ok (.pixelWord (x.extractLsb' 24 8) (x.extractLsb' 16 8) (x.extractLsb' 8 8) (x.extractLsb' 0 8))) ∧
  (∀ x : PixelWord,
    encode (.pixelWord (x.extractLsb' 24 8) (x.extractLsb' 16 8) (x.extractLsb' 8 8) (x.extractLsb' 0 8)) =
      .word .pix32 32 x.toNat) ∧
  (∀ g r b w s, LinkReady s → ∃ t, exec (.pixelWord g r b w) s = .next t ∧
    Emitted s t (wordWave s.cfg g r b w) ∧ t.sent = s.sent + 32)

/-! ## The step -/

/-- With reset released, the step runs exactly the operation whose code is placed, with the slot emptied; from `INIT` the
only step other than a configuration code is `init`, and the placed code waits; with no code placed the step is the clock
step. The slot is the model's own (log entry 14). -/
def Obligations.StepRunsThePlacedOperation : Prop :=
  ∀ s : State, s.rstN = true →
    (∀ c i, s.code = some c → decode c = .ok i → (s.seq ≠ .init ∨ c.isConfig = true) →
      step s = exec i { s with code := none }) ∧
    (∀ c e, s.code = some c → decode c = .illegal e → (s.seq ≠ .init ∨ c.isConfig = true) →
      step s = .refused (.illegalCode e)) ∧
    (∀ c, s.code = some c → s.seq = .init → c.isConfig = false → step s = exec .init s) ∧
    (s.code = none → step s = clockStep s)

/-- Placing a table word makes the very next step run its operation: at `INIT` for a configuration code, after the effect
of `init` for any other (log entry 14). -/
def Obligations.PlacedTableWordRunsNext : Prop :=
  ∀ (s : State) (nbits w : Nat) (i : Instr), s.rstN = true → decodeTableWord nbits w = some i →
    (isConfigCode i = true ∨ s.seq ≠ .init → step (s.withFetchWord nbits w) = exec i { s with code := none }) ∧
    (isConfigCode i = false → s.seq = .init →
      ∃ u, exec .init { s with code := none } = .next u ∧ step (s.withFetchWord nbits w) = exec i u)

/-! ## Reset and initialisation -/

/-- R31, for every configuration: the values after reset, and after the one-cycle initialisation step, the transient
registers among them; the wire is `Z` and then `1`. (`PIN` and `IE` after reset, which the rule leaves unspecified, are the
model's own choice, log entries 4 and 5, and not claimed here.) -/
def Obligations.ResetValuesAndFirstStep : Prop :=
  ∀ cfg : Cfg,
    let s := State.resetWith cfg
    s.tick = 0 ∧ s.seq = .init ∧ s.dir = false ∧ s.dout = .z ∧ s.wire = [] ∧ s.cfg = cfg ∧
    ∃ t, step s = .next t ∧ t.tick = 0 ∧ t.seq = .run 0 cfg.n1 ∧ t.dir = true ∧ t.pin = true ∧ t.ie = false ∧
      t.dout = .high ∧ t.wire.levels = [.z] ∧ t.cfg = cfg ∧
      t.pix = 0 ∧ t.cg = (color cfg 0 0).g ∧ t.cr = (color cfg 0 0).r ∧ t.cb = (color cfg 0 0).b ∧
      t.cw = (color cfg 0 0).w ∧ t.shift = (color cfg 0 0).g ∧ t.bitn = 7 ∧ t.cnt = cfg.n1

/-- Reset wins in any state and over any placed operation (R215): every piece of state takes its reset value, the pin stops
being driven, nothing of the frame is kept, and on release the CORE begins again at `INIT` with `TICK = 0`. The chain is
unknown, showing no colour that is known (R241, U8; log entry 10). The model's own fields begin anew too: the slot is empty,
no bits are counted as sent and nothing is returned (log entry 13). -/
def Obligations.AssertedResetWinsOverEverything : Prop :=
  ∀ s : State, s.rstN = false →
    ∃ t, step s = .next t ∧ t.tick = 0 ∧ t.seq = .init ∧ t.dir = false ∧ t.dout = .z ∧ t.wire = [] ∧
      t.rstN = false ∧ t.cfg = s.cfg ∧
      t.chain.status = .lost ∧ t.chain.rx = [] ∧ t.chain.part = [] ∧ (∀ k, t.chain.disp.read k = none) ∧
      t.code = none ∧ t.sent = 0 ∧ t.ret = .nothing ∧
      ∃ u, step { t with rstN := true } = .next u ∧ u.tick = 0 ∧ u.seq = .run 0 s.cfg.n1 ∧ u.dir = true ∧ u.ie = false ∧
        u.wire.levels = [.z] ∧ u.chain = t.chain

/-- From `INIT`, `init()` masks interrupts, drives the pin, and stands at the first run of the frame, after one cycle of `Z`;
it touches neither `TICK` nor the chain and sends nothing (R190; that nothing has been driven at `INIT` is part of the
invariant). It is the only step taken from `INIT`, and no step but reset leads back to `INIT`: by the model's choices a
configuration code, which comes before the run, is taken at `INIT` (log entry 15), any other placed code waits (log entry
14), and `init` placed later has its effect again (log entry 24). -/
def Obligations.InitDrivesPinMasksInterrupts : Prop :=
  (∀ s : State, s.seq = .init →
    ∃ t, exec .init s = .next t ∧ t.ie = false ∧ t.dir = true ∧ t.seq = .run 0 s.cfg.n1 ∧ t.pin = true ∧
      Emitted s t [.z] ∧ t.tick = s.tick ∧ (s.chain.line = .lead 0 → t.chain = s.chain) ∧
      t.sent = s.sent ∧ t.cfg = s.cfg ∧ t.ret = s.ret ∧
      t.code = s.code ∧ t.rstN = s.rstN ∧
      (s.rstN = true → (∀ c, s.code = some c → c.isConfig = false) → step s = .next t)) ∧
  (∀ s t : State, s.rstN = true → s.seq ≠ .init → step s = .next t → t.seq ≠ .init)

/-! ## Pixel Link -/

/-- R80: the three wire symbols as waveforms, for every configuration; `LATCH` after whole words. -/
def Obligations.WireSymbolWaveforms : Prop :=
  ∀ s : State, LinkReady s →
    (∃ t, exec .b0 s = .next t ∧
      Emitted s t (List.replicate s.cfg.n1 .high ++ List.replicate (s.cfg.n2 + s.cfg.n3) .low)) ∧
    (∃ t, exec .b1 s = .next t ∧
      Emitted s t (List.replicate (s.cfg.n1 + s.cfg.n2) .high ++ List.replicate s.cfg.n3 .low)) ∧
    (WholeWords s → ∃ t, exec .latchSym s = .next t ∧ Emitted s t (List.replicate s.cfg.nLatch .low))

/-- R113: `sendBit(bit)` puts one bit cell on the wire, that of the symbol `B0` or `B1`, and ends with the line low. -/
def Obligations.SendBitPutsOneCellOnTheWire : Prop :=
  ∀ (b : Bool) (s : State), LinkReady s →
    ∃ t, exec (.sendBit b) s = .next t ∧ Emitted s t (bitWave s.cfg b) ∧
      t.wire.cycles = s.wire.cycles + (s.cfg.n1 + s.cfg.n2 + s.cfg.n3) ∧ t.pin = false ∧ t.dout = .low ∧
      exec (if b then .b1 else .b0) s = .next t

/-- R82, R114: `sendByte(value)`, command word `op` 0: eight cells, bit 7 first, then `G_BYTE` low cycles. -/
def Obligations.SendBytePutsEightCellsMsbFirst : Prop :=
  ∀ (v : Byte) (s : State), LinkReady s →
    encode (.sendByte v) = .word .plcmd 35 (packCommand 0 v 0 0 0) ∧
    ∃ t, exec (.sendByte v) s = .next t ∧ Emitted s t (byteWave s.cfg v) ∧
      t.wire.cycles = s.wire.cycles + (8 * (s.cfg.n1 + s.cfg.n2 + s.cfg.n3) + s.cfg.gByte) ∧ t.sent = s.sent + 8

/-- R115: `writeColor`, command word `op` 1, sends green, red, blue, white and the pixel gap. Over a quiet chain it fills
exactly the next slot with the word sent, and it does not latch. -/
def Obligations.WriteColorFillsExactlyOneSlot : Prop :=
  ∀ (g r b w : Byte) (s : State), LinkReady s →
    encode (.writeColor g r b w) = .word .plcmd 35 (packCommand 1 g r b w) ∧
    ∃ t, exec (.writeColor g r b w) s = .next t ∧ Emitted s t (wordWave s.cfg g r b w) ∧
      t.wire.cycles = s.wire.cycles + (32 * (s.cfg.n1 + s.cfg.n2 + s.cfg.n3) + 4 * s.cfg.gByte + s.cfg.gPixel) ∧
      t.sent = s.sent + 32 ∧
      (NoEarlyLatch s.cfg → ChainQuiet s.cfg s.chain →
        t.chain.rx = s.chain.rx ++ [(g ++ r ++ b ++ w : BitVec 32)] ∧ t.chain.disp = s.chain.disp ∧
        ChainQuiet s.cfg t.chain)

/-- A `sendByte` leaves the machine exactly as its eight `sendBit`s and the byte gap do (R93, R114), and a `writeColor`
exactly as its four `sendByte`s and the pixel gap do (R53, R93, R115). -/
def Obligations.PseudoOperationsExpand : Prop :=
  ∀ s : State, LinkReady s →
    (∀ v : Byte,
      execAll [.sendBit (v.getLsbD 7), .sendBit (v.getLsbD 6), .sendBit (v.getLsbD 5), .sendBit (v.getLsbD 4),
        .sendBit (v.getLsbD 3), .sendBit (v.getLsbD 2), .sendBit (v.getLsbD 1), .sendBit (v.getLsbD 0),
        .delay s.cfg.gByte] s = exec (.sendByte v) s) ∧
    (∀ g r b w : Byte,
      execAll [.sendByte g, .sendByte r, .sendByte b, .sendByte w, .delay s.cfg.gPixel] s = exec (.writeColor g r b w) s)

/-- R116, R117: `writeColorAll` (`op` 2) is `writeColor` exactly `P` times and `clear` (`op` 3) is
`writeColor(0, 0, 0, 0)` exactly `3*P` times, no more and no fewer: over a quiet chain they fill exactly so many slots, and
neither latches. -/
def Obligations.BroadcastAndClearRepeatWriteColor : Prop :=
  ∀ s : State, LinkReady s →
    (∀ g r b w : Byte,
      encode (.writeColorAll g r b w) = .word .plcmd 35 (packCommand 2 g r b w) ∧
      exec (.writeColorAll g r b w) s = execAll (List.replicate s.cfg.pixels (.writeColor g r b w)) s ∧
      ∃ t, exec (.writeColorAll g r b w) s = .next t ∧ t.sent = s.sent + 32 * s.cfg.pixels ∧
        t.wire.cycles = s.wire.cycles + s.cfg.pixels * wordCycles s.cfg ∧
        (NoEarlyLatch s.cfg → ChainQuiet s.cfg s.chain →
          t.chain.rx = s.chain.rx ++ List.replicate s.cfg.pixels (g ++ r ++ b ++ w : BitVec 32) ∧
          t.chain.disp = s.chain.disp)) ∧
    encode .clear = .word .plcmd 35 (packCommand 3 0 0 0 0) ∧
    exec .clear s = execAll (List.replicate (3 * s.cfg.pixels) (.writeColor 0 0 0 0)) s ∧
    ∃ t, exec .clear s = .next t ∧ t.sent = s.sent + 32 * (3 * s.cfg.pixels) ∧
      t.wire.cycles = s.wire.cycles + 3 * s.cfg.pixels * wordCycles s.cfg ∧
      (NoEarlyLatch s.cfg → ChainQuiet s.cfg s.chain →
        t.chain.rx = s.chain.rx ++ List.replicate (3 * s.cfg.pixels) 0 ∧ t.chain.disp = s.chain.disp)

/-- `latch()` and the symbol `LATCH` hold the line low for `N_LATCH` cycles after whole words, and are refused
inside a word, and so is `renderFrame`, whose words would leave its latch there. Words are counted in bits, the model's
choice (log entry 21): a loose bit counts as one. -/
def Obligations.LatchHoldsLowAfterWholeWordsOnly : Prop :=
  ∀ s : State, LinkReady s →
    (∀ i, i = Instr.latch ∨ i = Instr.latchSym →
      (WholeWords s → ∃ t, exec i s = .next t ∧ Emitted s t (List.replicate s.cfg.nLatch .low) ∧
        t.pin = false ∧ t.sent = 0) ∧
      (¬ WholeWords s → exec i s = .refused .latchInsideWord)) ∧
    (∀ t p, 1 ≤ p → p ≤ 255 → ¬ WholeWords s → exec (.renderFrame t p) s = .refused .latchInsideWord) ∧
    (∀ i, i = Instr.b0 ∨ i = Instr.b1 ∨ i = .sendBit false ∨ i = .sendBit true →
      ∃ t, exec i s = .next t ∧ t.sent = s.sent + 1)

/-- R119: every operation of R113 to R118, and the symbols and words they send, is refused with `DIR = 0` and with
`IE = 1`, and so is `renderFrame`, which is made of them (R160); the CORE's own first step establishes both, and no later
step undoes them. -/
def Obligations.LinkOperationsNeedDrivenPinAndMaskedInterrupts : Prop :=
  (∀ (i : Instr) (s : State),
    (isLinkOperation i = true ∨ ∃ t p, i = .renderFrame t p ∧ 1 ≤ p ∧ p ≤ 255) →
    (s.dir = false → exec i s = .refused .pinNotDriven) ∧
    (s.dir = true → s.ie = true → exec i s = .refused .interruptsEnabled)) ∧
  (∀ s t : State, RunsAlone s → s.seq = .init → step s = .next t → LinkReady t) ∧
  (∀ s t : State, s.rstN = true → s.seq ≠ .init → LinkReady s → step s = .next t → LinkReady t)

/-- R110, R111, R112: the pin primitives write their bit and nothing else; the first two are refused with `DIR = 0`, the
third may be performed again and then changes nothing. -/
def Obligations.PinPrimitivesWriteTheirBit : Prop :=
  ∀ s : State,
    (s.dir = true → exec .setPinHigh s = .next { s with pin := true } ∧ ({ s with pin := true } : State).dout = .high) ∧
    (s.dir = true → exec .setPinLow s = .next { s with pin := false } ∧ ({ s with pin := false } : State).dout = .low) ∧
    (s.dir = false → exec .setPinHigh s = .refused .pinNotDriven ∧ exec .setPinLow s = .refused .pinNotDriven) ∧
    exec .setPinDirectionOutput s = .next { s with dir := true } ∧
    (s.dir = true → exec .setPinDirectionOutput s = .next s)

/-- R121: the durations in one table; they depend on CFG alone, never on an operand value. Every operation ends low. -/
def Obligations.DurationsDependOnConfigurationAlone : Prop :=
  ∀ s : State, LinkReady s →
    let nb := s.cfg.n1 + s.cfg.n2 + s.cfg.n3
    let nw := 32 * nb + 4 * s.cfg.gByte + s.cfg.gPixel
    let takes (i : Instr) (n : Nat) := ∃ t, exec i s = .next t ∧ t.wire.cycles = s.wire.cycles + n ∧ t.dout = .low
    (∀ b, takes (.sendBit b) nb) ∧ takes .b0 nb ∧ takes .b1 nb ∧
    (∀ v, takes (.sendByte v) (8 * nb + s.cfg.gByte)) ∧
    (∀ g r b w, takes (.writeColor g r b w) nw ∧ takes (.pixelWord g r b w) nw) ∧
    (∀ g r b w, takes (.writeColorAll g r b w) (s.cfg.pixels * nw)) ∧
    takes .clear (3 * s.cfg.pixels * nw) ∧
    (WholeWords s → takes .latch s.cfg.nLatch ∧ takes .latchSym s.cfg.nLatch)

/-! ## Frames: what an operation leaves unchanged -/

/-- Which operation writes which register of the CORE: `TICK` by `tickInc` only (R21), `SEQ` and `IE` by `init` only (R22,
R26), `DIR` by `init` and `setPinDirectionOutput` only (R25), CFG by a configuration code only (R5), `RET` by a pure
function only; the reset input and the slot by none. -/
def Obligations.EachRegisterHasItsOnlyWriters : Prop :=
  ∀ (i : Instr) (s t : State), exec i s = .next t →
    t.rstN = s.rstN ∧ t.code = s.code ∧
    (i ≠ .tickInc → t.tick = s.tick) ∧
    (i ≠ .init → t.seq = s.seq ∧ t.ie = s.ie) ∧
    (i ≠ .init → i ≠ .setPinDirectionOutput → t.dir = s.dir) ∧
    (isConfigCode i = false → t.cfg = s.cfg) ∧
    (isPureFunction i = false → t.ret = s.ret)

/-- What does not transmit leaves the wire, the chain and the count of bits sent alone: a pure function, a configuration
code, a pin primitive and `tickInc`, whatever the operands; all but `setPinHigh` and `setPinLow` leave `PIN` too. -/
def Obligations.OperationsOffTheWireLeaveTheWire : Prop :=
  ∀ (i : Instr) (s t : State),
    (isPureFunction i = true ∨ isConfigCode i = true ∨ i = .setPinHigh ∨ i = .setPinLow ∨ i = .setPinDirectionOutput ∨
      i = .tickInc) →
    exec i s = .next t →
    t.wire = s.wire ∧ t.chain = s.chain ∧ t.sent = s.sent ∧ (i ≠ .setPinHigh → i ≠ .setPinLow → t.pin = s.pin)

/-- The pixels' memory: with no early latch possible (R246), sending changes no displayed colour, of any pixel (R61: what is
sent becomes visible at a latch only); and no operation that sends or latches changes a pixel at `L_CHAIN` or beyond
(R57). -/
def Obligations.SendingChangesNoDisplayedColour : Prop :=
  ∀ (i : Instr) (s t : State), s.chain.disp.wf = true → exec i s = .next t →
    (NoEarlyLatch s.cfg → isLinkOperation i = true → endsWithLatch i = false → ∀ k, t.chain.disp.read k = s.chain.disp.read k) ∧
    (isLinkOperation i = true ∨ endsWithLatch i = true →
      ∀ k, s.cfg.lChain ≤ k → t.chain.disp.read k = s.chain.disp.read k)

/-! ## The pixel chain: the reference receiver -/

/-- R59: a high run of `N1` cycles is the bit 0, one of `N1 + N2` the bit 1, and any other is refused; a low run between the
two thresholds is refused when it ends, and one that reaches `N_RST_HI` inside a word when it does. A chain that reset left
unknown (log entry 10) takes no bit as known, and is known to be empty after its first long low run. An undriven wire shows
nothing before the first driven cycle, and makes the chain unknown after it unless it has refused (the model's choice, log
entry 38). Refusals are the receiver's: they stop no operation (log entry 12). -/
def Obligations.ReceiverReadsBitsByTheirHighTime : Prop :=
  ∀ (c : Cfg) (ch : Chain) (m n : Nat), 1 ≤ n →
    (ch.status = .tracking → ch.line = .high m → n < c.nRstHi →
      (∀ b : Bool, m = (if b then c.n1 + c.n2 else c.n1) → ch.part.length < 31 →
        ch.feed c .low n = { ch with line := .low n, part := ch.part ++ [b] }) ∧
      (m ≠ c.n1 → m ≠ c.n1 + c.n2 → (ch.feed c .low n).status = .refused .highTime)) ∧
    (ch.status = .tracking → ch.line = .low m →
      (m ≤ c.nRstLo ∨ c.nRstHi ≤ m → ch.feed c .high n = { ch with line := .high n }) ∧
      (c.nRstLo < m → m < c.nRstHi → (ch.feed c .high n).status = .refused .lowTime) ∧
      (ch.part ≠ [] → m < c.nRstHi → c.nRstHi ≤ m + n → (ch.feed c .low n).status = .refused .latchInsideWord)) ∧
    (ch.status = .lost →
      (ch.feed c .high n).status = .lost ∧ (ch.feed c .high n).disp = ch.disp ∧
      (ch.line = .low m → m < c.nRstHi → c.nRstHi ≤ m + n →
        (ch.feed c .low n).status = .tracking ∧ (ch.feed c .low n).rx = [] ∧ (ch.feed c .low n).part = [] ∧
        (ch.feed c .low n).disp = ch.disp)) ∧
    (ch.line = .lead 0 → ch.feed c .z n = ch) ∧
    (ch.line ≠ .lead 0 → (∀ why, ch.status ≠ .refused why) → ch.feed c .z n = Chain.unknown) ∧
    (∀ why, ch.status = .refused why → ch.feed c .z n = ch)

/-- A low run that reaches `N_RST_HI` displays every word received since the last latch, drops those at
`L_CHAIN` and beyond, leaves the other pixels as they were and empties the buffer; a low run that has latched already
does nothing more. Stated for the operations that only hold the line low: `latch()`, the symbol `LATCH` and `delay(n)`. -/
def Obligations.LongLowRunLatchesOnce : Prop :=
  ∀ (s : State) (m n : Nat) (i : Instr), LinkReady s → WholeWords s →
    s.chain.status = .tracking → s.chain.part = [] → s.chain.line = .low m → s.chain.disp.wf = true →
    ((i = .latch ∨ i = .latchSym) ∧ n = s.cfg.nLatch ∨ i = .delay n) →
    ∃ t, exec i s = .next t ∧
      (m < s.cfg.nRstHi → s.cfg.nRstHi ≤ m + n →
        t.chain.rx = [] ∧
        ∀ k, t.chain.disp.read k =
          if k < min s.chain.rx.length s.cfg.lChain then s.chain.rx[k]? else s.chain.disp.read k) ∧
      (s.cfg.nRstHi ≤ m → t.chain.rx = s.chain.rx ∧ t.chain.disp = s.chain.disp)

/-- The picture a frame leaves: from a chain that is quiet and empty, in a configuration without early latch, one
`renderFrame` makes pixel `k` show `Color(CFG, t, k)` for every `k` below `P` and `L_CHAIN`, leaves every other pixel as it
was, and leaves the chain quiet and empty for the next frame. That word `k` reaches pixel `k` is general knowledge that the
spec marks as such (log entry 32). -/
def Obligations.RenderedFrameIsDisplayed : Prop :=
  ∀ (s : State) (t : Nat), LinkReady s → WholeWords s → NoEarlyLatch s.cfg → ChainQuiet s.cfg s.chain →
    s.chain.rx = [] → s.chain.disp.wf = true →
    ∃ u, exec (.renderFrame t s.cfg.pixels) s = .next u ∧
      (∀ k, k < min s.cfg.pixels s.cfg.lChain →
        u.chain.disp.read k =
          some ((color s.cfg t k).g ++ (color s.cfg t k).r ++ (color s.cfg t k).b ++ (color s.cfg t k).w : BitVec 32)) ∧
      (∀ k, min s.cfg.pixels s.cfg.lChain ≤ k → u.chain.disp.read k = s.chain.disp.read k) ∧
      ChainQuiet s.cfg u.chain ∧ u.chain.rx = []

/-! ## Colour-space conversion -/

/-- R140: `map` truncates the quotient toward zero and then adds `outMin`; with `inMin = inMax` it is refused. It
changes nothing but the value returned. -/
def Obligations.MapTruncatesTowardZero : Prop :=
  ∀ (x a b c d : Int) (s : State),
    let q : Nat := ((x - a) * (d - c)).natAbs / (b - a).natAbs
    (a ≠ b → exec (.map x a b c d) s =
      .next { s with ret := .int (c + Int.sign ((x - a) * (d - c)) * Int.sign (b - a) * q) }) ∧
    (a = b → exec (.map x a b c d) s = .refused .mapDomain)

/-- `map`: endpoints exact, monotone, in range between them, and outside them the values of the examples of R141. -/
def Obligations.MapLaws : Prop :=
  (∀ a b c d : Int, a ≠ b → remap a a b c d = c ∧ remap b a b c d = d) ∧
  (∀ a b c d x y : Int, a < b → x ≤ y →
    (c ≤ d → remap x a b c d ≤ remap y a b c d) ∧ (d ≤ c → remap y a b c d ≤ remap x a b c d)) ∧
  (∀ a b c d x : Int, a < b → a ≤ x → x ≤ b → min c d ≤ remap x a b c d ∧ remap x a b c d ≤ max c d) ∧
  remap 300 0 255 0 100 = 117 ∧ remap 3 0 2 0 255 = 382 ∧ remap (-1) 0 2 0 255 = -127 ∧ remap (-5) 0 10 0 3 = -1

/-- R142: `scale(c, v) = (c * v) div 255`, at most `v`. -/
def Obligations.ScaleIsProductOver255 : Prop :=
  ∀ (c v : Byte) (s : State), ∃ x : Byte, exec (.scale c v) s = .next { s with ret := .byte x } ∧
    x.toNat = c.toNat * v.toNat / 255 ∧ x.toNat ≤ v.toNat ∧ (x.toNat : Int) = remap c.toNat 0 255 0 v.toNat

/-- R143: the three arcs in closed form (the rising channel `3*k`, the falling one `255 - 3*k`), each scaled by the value. -/
def Obligations.ThreeSectorArcs : Prop :=
  ∀ (h sat v : Byte) (s : State), ∃ x : Rgb, exec (.hsv3 h sat v) s = .next { s with ret := .rgb x } ∧
    (h.toNat < 85 → x.r.toNat = (255 - 3 * h.toNat) * v.toNat / 255 ∧ x.g.toNat = 3 * h.toNat * v.toNat / 255 ∧ x.b = 0) ∧
    (85 ≤ h.toNat → h.toNat < 170 → x.r = 0 ∧ x.g.toNat = (255 - 3 * (h.toNat - 85)) * v.toNat / 255 ∧
      x.b.toNat = 3 * (h.toNat - 85) * v.toNat / 255) ∧
    (170 ≤ h.toNat → x.r.toNat = 3 * (h.toNat - 170) * v.toNat / 255 ∧ x.g = 0 ∧
      x.b.toNat = (255 - 3 * (h.toNat - 170)) * v.toNat / 255)

/-- R144: the six arcs, each scaled by the value: with `6*h = 255*sec + off`, one channel is held at the value, one at 0,
and the third rises with `off` or falls with `255 - off`; hue 255 is pure red. -/
def Obligations.SixSectorArcs : Prop :=
  ∀ (h sat v : Byte) (s : State), ∃ x : Rgb, exec (.hsv6 h sat v) s = .next { s with ret := .rgb x } ∧
    ∀ sec off : Nat, 6 * h.toNat = 255 * sec + off → off < 255 →
      let up := off * v.toNat / 255
      let dn := (255 - off) * v.toNat / 255
      let rgb := (x.r.toNat, x.g.toNat, x.b.toNat)
      (sec = 0 → rgb = (v.toNat, up, 0)) ∧ (sec = 1 → rgb = (dn, v.toNat, 0)) ∧ (sec = 2 → rgb = (0, v.toNat, up)) ∧
      (sec = 3 → rgb = (0, dn, v.toNat)) ∧ (sec = 4 → rgb = (up, 0, v.toNat)) ∧ (sec = 5 → rgb = (v.toNat, 0, dn)) ∧
      (sec = 6 → rgb = (v.toNat, 0, 0))

/-- R145, R146: saturation is ignored; every channel is at most the value; at every seam the lower arc's formula, extended
to the seam, gives the colour of the upper arc. And at full value the two conversions agree at the hues 0, 85, 170 and 255
and nowhere else. -/
def Obligations.ConversionsMeetAtSeamsAndStayDistinct : Prop :=
  (∀ h s1 s2 v : Byte, hsv3 h s1 v = hsv3 h s2 v ∧ hsv6 h s1 v = hsv6 h s2 v) ∧
  (∀ h sat v : Byte, (hsv3 h sat v).r ≤ v ∧ (hsv3 h sat v).g ≤ v ∧ (hsv3 h sat v).b ≤ v ∧
    (hsv6 h sat v).r ≤ v ∧ (hsv6 h sat v).g ≤ v ∧ (hsv6 h sat v).b ≤ v) ∧
  (hue3 85 = ⟨toByte (remap 85 0 85 255 0), toByte (remap 85 0 85 0 255), 0⟩ ∧
    hue3 170 = ⟨0, toByte (remap 170 85 170 255 0), toByte (remap 170 85 170 0 255)⟩ ∧
    hue3 0 = ⟨toByte (remap 255 170 255 0 255), 0, toByte (remap 255 170 255 255 0)⟩) ∧
  (∀ sec, sec ≤ 5 → sectorRgb sec 255 = sectorRgb ((sec + 1) % 6) 0) ∧
  (∀ h sat : Byte, hsv3 h sat 255 = hsv6 h sat 255 ↔ h = 0 ∨ h = 85 ∨ h = 170 ∨ h = 255)

/-! ## Animation Engine -/

/-- R162: `hueOf(t, D) = ((t mod D) * 255) div D`, in 0..254, for a duration `D ≥ 1`. -/
def Obligations.HueOfIsTickPhase : Prop :=
  ∀ (t d : Nat) (s : State), 1 ≤ d →
    ∃ x : Byte, exec (.hueOf t d) s = .next { s with ret := .byte x } ∧ x.toNat = (t % d) * 255 / d ∧ x.toNat ≤ 254

/-- R165: the four segments of the envelope, between its floor and its peak. -/
def Obligations.EnvelopeSegments : Prop :=
  ∀ (e : Nat) (s : State),
    let lo := s.cfg.brWMin.toNat
    let hi := s.cfg.brWMax.toNat
    let a := s.cfg.brRise
    let b := a + s.cfg.brHold
    let c := b + s.cfg.brFall
    e < c + s.cfg.brPause →
    ∃ x : Byte, exec (.env e) s = .next { s with ret := .byte x } ∧
      (e < a → x.toNat = lo + e * (hi - lo) / a) ∧
      (a ≤ e → e < b → x.toNat = hi) ∧
      (b ≤ e → e < c → x.toNat = hi - (e - b) * (hi - lo) / (c - b)) ∧
      (c ≤ e → x.toNat = lo) ∧
      lo ≤ x.toNat ∧ x.toNat ≤ hi

/-- R169: behind the sweep front 255, at the front the fraction, ahead of it 0. -/
def Obligations.RampFollowsTheFront : Prop :=
  ∀ (i front frac : Nat) (s : State), frac < 255 → i < s.cfg.pixels → 255 * front + frac < 255 * s.cfg.pixels →
    ∃ x : Byte, exec (.ramp i (255 * front + frac)) s = .next { s with ret := .byte x } ∧
      (i < front → x = 255) ∧ (i = front → x.toNat = frac) ∧ (front < i → x = 0) ∧ front ≤ s.cfg.pixels - 1

/-- The model's choices for operands outside the domain a rule states: `env` and `ramp` run and return a free value (log
entries 25, 26), `init` outside `INIT` has its effect (log entry 24), `hueOf` with `D = 0` is a `map` outside its domain and
refused (log entry 28), and so is `renderFrame` with a pixel count that no configuration has (log entry 29). -/
def Obligations.OperandsOutsideTheStatedDomain : Prop :=
  ∀ (e i p t : Nat) (s : State),
    (∃ x : Byte, exec (.env e) s = .next { s with ret := .byte x }) ∧
    (∃ x : Byte, exec (.ramp i p) s = .next { s with ret := .byte x }) ∧
    (∃ u, exec .init s = .next u ∧ u.ie = false ∧ u.dir = true ∧ u.seq = .run 0 s.cfg.n1 ∧ u.tick = s.tick ∧
      Emitted s u [.z] ∧ u.chain = s.chain.feed s.cfg .z 1 ∧ u.cfg = s.cfg) ∧
    exec (.hueOf t 0) s = .refused .mapDomain ∧
    (¬ (1 ≤ p ∧ p ≤ 255) → exec (.renderFrame t p) s = .refused .invalidConfiguration)

/-- R160: `renderFrame(t, P)` leaves the machine exactly as the `P` `writeColor`s of `Color(CFG, t, i)`, `i` ascending, and
a `latch()`; it puts `P` pixel words and one latch on the wire, takes `P*NW + N_LATCH` cycles whatever the tick and the
strategy, and changes nothing but the wire, the chain, `PIN` and the count of bits sent. Where every pixel has the same
colour it is `writeColorAll` and `latch()`. -/
def Obligations.RenderFrameIsWordsThenLatch : Prop :=
  ∀ (s : State) (t : Nat), LinkReady s → WholeWords s →
    let c := color s.cfg t
    let f := exec (.renderFrame t s.cfg.pixels) s
    f = execAll ((List.range s.cfg.pixels).map (fun i => .writeColor (c i).g (c i).r (c i).b (c i).w) ++ [.latch]) s ∧
    (∃ u, f = .next u ∧ Emitted s u (frameWave s.cfg t) ∧
      u.wire.cycles = s.wire.cycles + s.cfg.pixels * wordCycles s.cfg + s.cfg.nLatch ∧
      u = { s with wire := u.wire, chain := u.chain, pin := false, sent := 0 }) ∧
    (t < 2 ^ s.cfg.tickBits → s.cfg.animSel = .hueRotate ∨ s.cfg.animSel = .hueBreath →
      f = execAll [.writeColorAll (c 0).g (c 0).r (c 0).b (c 0).w, .latch] s)

/-- `renderFrame` with a pixel count of its own in 1..255 completes from a ready machine, as the words of a configuration
with that count and a latch (log entry 29). -/
def Obligations.RenderFrameTakesAnyLegalPixelCount : Prop :=
  ∀ (s : State) (t p : Nat) (h : 1 ≤ p ∧ p ≤ 255), LinkReady s → WholeWords s →
    let c := color (s.cfg.withPixels p h) t
    let is := (List.range p).map (fun i => Instr.writeColor (c i).g (c i).r (c i).b (c i).w) ++ [.latch]
    exec (.renderFrame t p) s = execAll is s ∧
    ∃ u, exec (.renderFrame t p) s = .next u ∧ u.wire.cycles = s.wire.cycles + p * wordCycles s.cfg + s.cfg.nLatch ∧
      u.pin = false ∧ u.sent = 0 ∧ u.cfg = s.cfg

/-- R163: chase. At tick `S * (P * m + w) + r` the pixels below the sweep count `w` show the primary `m mod 3` and the rest
the one before it; white is 0. -/
def Obligations.ChaseSweepsPrimaryColours : Prop :=
  ∀ (c : Cfg) (m w r i : Nat), c.animSel = .chase → w < c.pixels → r < c.chaseStep → i < c.pixels →
    c.chaseStep * (c.pixels * m + w) + r < 2 ^ c.tickBits →
    color c (c.chaseStep * (c.pixels * m + w) + r) i =
      (let now := if i < w then m % 3 else (m + 2) % 3
       if now = 0 then ⟨0, 255, 0, 0⟩ else if now = 1 then ⟨255, 0, 0, 0⟩ else ⟨0, 0, 255, 0⟩)

/-- R164: hue breath. Every pixel shows the six-sector colour of the long-period hue at the fixed value, with the envelope
as white; the envelope is always read inside its domain. -/
def Obligations.BreathIsHueWithEnvelopeWhite : Prop :=
  ∀ (c : Cfg) (t i : Nat) (h : Byte), c.animSel = .hueBreath → t < 2 ^ c.tickBits → i < c.pixels →
    h.toNat = (t % c.dBHue) * 255 / c.dBHue →
    (color c t i).r = (hsv6 h 255 c.brValue).r ∧ (color c t i).g = (hsv6 h 255 c.brValue).g ∧
    (color c t i).b = (hsv6 h 255 c.brValue).b ∧
    (color c t i).w = envSegments c (t % (c.brRise + c.brHold + c.brFall + c.brPause)) ∧
    c.brWMin.toNat ≤ (color c t i).w.toNat ∧ (color c t i).w.toNat ≤ c.brWMax.toNat

/-- R166: hue rotate and custom-palette rotate. Every pixel shows the hue of the tick at full value, white 0, by the
conversion `CONV_SEL` selects; at tick 5000 of a period of 10000 the hue is 127. -/
def Obligations.RotateShowsOneHueOnEveryPixel : Prop :=
  ∀ (c : Cfg) (t i : Nat) (h : Byte), c.animSel = .hueRotate → t < 2 ^ c.tickBits → i < c.pixels →
    h.toNat = (t % c.dRot) * 255 / c.dRot →
    (c.convSel = .sec3 → color c t i = ⟨(hsv3 h 255 255).g, (hsv3 h 255 255).r, (hsv3 h 255 255).b, 0⟩) ∧
    (c.convSel = .sec6 → color c t i = ⟨(hsv6 h 255 255).g, (hsv6 h 255 255).r, (hsv6 h 255 255).b, 0⟩) ∧
    (c.dRot = 10000 → t = 5000 → c.convSel = .sec3 → packSample (color c t i) = 0x81007E00) ∧
    (c.dRot = 10000 → t = 5000 → c.convSel = .sec6 → packSample (color c t i) = 0xFF00FC00)

/-- R167: split. `A` and `B` are each one channel of the colour of the tick's hue, chosen by the tests in the order of the
rule; one half of the chain shows `A` and the other `B`, and they change places every two hue cycles. The two never show
the same channel, and at no tick are both dark; one of them is dark at the hues 0, 85 and 170 only. -/
def Obligations.SplitHalvesShowDifferentChannels : Prop :=
  ∀ (c : Cfg) (t i : Nat) (h : Byte), c.animSel = .split → t < 2 ^ c.tickBits → i < c.pixels →
    h.toNat = (t % c.dSplit) * 255 / c.dSplit →
    let x := if c.convSel = .sec3 then hsv3 h 255 255 else hsv6 h 255 255
    ∃ A B : Sample,
      (x.b = 0 → A = ⟨0, x.r, 0, 0⟩ ∧ B = ⟨x.g, 0, 0, 0⟩) ∧
      (x.b ≠ 0 → x.r = 0 → A = ⟨x.g, 0, 0, 0⟩ ∧ B = ⟨0, 0, x.b, 0⟩) ∧
      (x.b ≠ 0 → x.r ≠ 0 → x.g = 0 ∧ A = ⟨0, 0, x.b, 0⟩ ∧ B = ⟨0, x.r, 0, 0⟩) ∧
      (t / (2 * c.dSplit) % 2 = 0 → color c t i = if i < c.pixels / 2 then A else B) ∧
      (t / (2 * c.dSplit) % 2 = 1 → color c t i = if i < c.pixels / 2 then B else A) ∧
      (A ≠ ⟨0, 0, 0, 0⟩ ∨ B ≠ ⟨0, 0, 0, 0⟩) ∧
      (h = 0 ∨ h = 85 ∨ h = 170 ↔ A = ⟨0, 0, 0, 0⟩ ∨ B = ⟨0, 0, 0, 0⟩) ∧
      (A.g = 0 ∨ B.g = 0) ∧ (A.r = 0 ∨ B.r = 0) ∧ (A.b = 0 ∨ B.b = 0)

/-- R168: the high-resolution rainbow. The sweep stands at `H = (t mod D) * 1530*P div D`, below `1530*P`; with
`H = 255*P*sec + 255*front + frac` the blending channel is 255 behind pixel `front`, the fraction at it and 0 ahead, taken
upward or downward by the sector table of R144. -/
def Obligations.HiresSweepsAlongTheChain : Prop :=
  ∀ (c : Cfg) (t i sec front frac : Nat), c.animSel = .hires → t < 2 ^ c.tickBits → i < c.pixels →
    (t % c.dHires) * (1530 * c.pixels) / c.dHires = 255 * c.pixels * sec + 255 * front + frac →
    front < c.pixels → frac < 255 →
    let up := if i < front then 255 else if i = front then frac else 0
    let x := color c t i
    let rgb := (x.r.toNat, x.g.toNat, x.b.toNat)
    sec ≤ 5 ∧ x.w = 0 ∧
    (sec = 0 → rgb = (255, up, 0)) ∧ (sec = 1 → rgb = (255 - up, 255, 0)) ∧ (sec = 2 → rgb = (0, 255, up)) ∧
    (sec = 3 → rgb = (0, 255 - up, 255)) ∧ (sec = 4 → rgb = (up, 0, 255)) ∧ (sec = 5 → rgb = (255, 0, 255 - up))

/-- R171: every strategy's colours repeat after its period. -/
def Obligations.StrategiesArePeriodic : Prop :=
  ∀ (c : Cfg) (t i : Nat), t + periodOf c < 2 ^ c.tickBits → i < c.pixels →
    color c (t + periodOf c) i = color c t i

/-- R170: a render is a pure function of tick and configuration: two ready machines with one configuration, whatever else
they hold, put the same cycles on the wire. -/
def Obligations.RenderingHasNoHiddenState : Prop :=
  ∀ (s1 s2 t1 t2 : State) (t p : Nat), s1.cfg = s2.cfg →
    exec (.renderFrame t p) s1 = .next t1 → exec (.renderFrame t p) s2 = .next t2 →
    ∃ ls, Emitted s1 t1 ls ∧ Emitted s2 t2 ls

/-- The symbol trace of a frame: 32 bit symbols a pixel, pixels ascending, green, red, blue, white, bit 7 first, and one
`LATCH`, no header, no count and no checksum; they follow the symbols of the wire so far, whatever that is (nothing, the `Z`
of `init`, earlier frames), unless it ends high, inside a bit cell (log entry 37). -/
def Obligations.FrameSymbolTrace : Prop :=
  ∀ (s : State) (t : Nat) (sofar : List WireSymbol), LinkReady s → WholeWords s → NoEarlyLatch s.cfg →
    (∀ r, s.wire.head? = some r → r.1 ≠ .high) → s.wire.symbols s.cfg = some sofar →
    ∃ u, exec (.renderFrame t s.cfg.pixels) s = .next u ∧
      u.wire.symbols s.cfg = some (sofar ++
        (List.range s.cfg.pixels).flatMap (fun i => (List.range 4).flatMap (fun j => (List.range 8).map (fun m =>
          if (sampleByte (color s.cfg t i) j).getLsbD (7 - m) then WireSymbol.b1 else WireSymbol.b0))) ++ [.latch])

/-- A configuration code, before the run, selects its strategy or its conversion, which is then what `Color`
computes, and changes nothing else; once the run has begun it is refused (the model's reading of "no runtime
reconfiguration", log entry 15). -/
def Obligations.ConfigurationCodesSelect : Prop :=
  (∀ s : State, s.seq = .init →
    exec .animChase s = .next { s with cfg := s.cfg.setAnim .chase } ∧
    exec .animHueBreath s = .next { s with cfg := s.cfg.setAnim .hueBreath } ∧
    exec .animHueRotate s = .next { s with cfg := s.cfg.setAnim .hueRotate } ∧
    exec .animSplit s = .next { s with cfg := s.cfg.setAnim .split } ∧
    exec .animHires s = .next { s with cfg := s.cfg.setAnim .hires } ∧
    exec .convSec3 s = .next { s with cfg := s.cfg.setConv .sec3 } ∧
    exec .convSec6 s = .next { s with cfg := s.cfg.setConv .sec6 }) ∧
  (∀ (s : State) (i : Instr), isConfigCode i = true → s.seq ≠ .init → exec i s = .refused .runtimeReconfiguration) ∧
  (∀ (c : Cfg) (a : AnimSel), (c.setAnim a).toRawCfg = { c.toRawCfg with animSel := a }) ∧
  (∀ (c : Cfg) (v : ConvSel), (c.setConv v).toRawCfg = { c.toRawCfg with convSel := v }) ∧
  (∀ (c : Cfg) (t i : Nat), t < 2 ^ c.tickBits → i < c.pixels →
    color (c.setAnim .chase) t i = colorChase c t i ∧
    color (c.setAnim .hueBreath) t i = colorBreath c t i ∧
    color (c.setAnim .hueRotate) t i = colorRotate c t i ∧
    color (c.setAnim .split) t i = colorSplit c t i ∧
    color (c.setAnim .hires) t i = colorHires c t i)

/-! ## Frame Driver -/

/-- R192: `delay(n)` holds the line low for exactly `n` cycles; `delay(0)` does nothing; all else but the chain's view is
unchanged. -/
def Obligations.DelayHoldsTheLineLow : Prop :=
  ∀ (n : Nat) (s : State), ∃ t, exec (.delay n) s = .next t ∧
    (s.dir = true → Emitted s t (List.replicate n .low)) ∧ t.wire.cycles = s.wire.cycles + n ∧
    (n = 0 → t = s) ∧ (1 ≤ n → t.pin = false) ∧
    t = { s with wire := t.wire, chain := t.chain, pin := t.pin }

/-- R194: `tickInc()` counts the tick modulo `2^TICK_BITS` and changes nothing else; the last value wraps to 0. -/
def Obligations.TickIncCountsAndWraps : Prop :=
  ∀ s : State, exec .tickInc s = .next { s with tick := (s.tick + 1) % 2 ^ s.cfg.tickBits } ∧
    (s.tick + 1 < 2 ^ s.cfg.tickBits → (s.tick + 1) % 2 ^ s.cfg.tickBits = s.tick + 1) ∧
    (s.tick + 1 = 2 ^ s.cfg.tickBits → (s.tick + 1) % 2 ^ s.cfg.tickBits = 0)

/-- R195: the run list of a frame, entry by entry. -/
def Obligations.FrameRunListEntries : Prop :=
  ∀ (c : Cfg) (t : Nat),
    (frameRuns c t).length = 101 * c.pixels + 2 ∧
    (∀ i j m, i < c.pixels → j < 4 → m < 8 →
      let k := 101 * i + 25 * j + 3 * (7 - m)
      (frameRuns c t)[k]? = some ⟨true, c.n1⟩ ∧
      (frameRuns c t)[k + 1]? = some ⟨(sampleByte (color c t i) j).getLsbD m, c.n2⟩ ∧
      (frameRuns c t)[k + 2]? = some ⟨false, c.n3⟩ ∧
      (frameRuns c t)[101 * i + 25 * j + 24]? = some ⟨false, c.gByte⟩ ∧
      (frameRuns c t)[101 * i + 100]? = some ⟨false, c.gPixel⟩) ∧
    (frameRuns c t)[101 * c.pixels]? = some ⟨false, c.nLatch⟩ ∧
    (frameRuns c t)[101 * c.pixels + 1]? = some ⟨false, c.nDelay⟩

/-- The levels and lengths the clock step reads off a run index are those of the run list, entry by entry. -/
def Obligations.RunCoordinatesMatchRunList : Prop :=
  ∀ (c : Cfg) (t k : Nat), k < frameRunCount c → (frameRuns c t)[k]? = some ⟨runLevel c t k, runLen c k⟩

/-- R28: the transient registers as functions of (CFG, TICK, SEQ), in every run of the pixel part of the frame. -/
def Obligations.TransientRegistersFollowThePosition : Prop :=
  ∀ (s : State) (i n : Nat), i < s.cfg.pixels →
    let c := color s.cfg s.tick i
    let colours := s.pix.toNat = i ∧ s.cg = c.g ∧ s.cr = c.r ∧ s.cb = c.b ∧ s.cw = c.w ∧ s.cnt = n
    (∀ j m q, j < 4 → m < 8 → q < 3 → s.seq = .run (101 * i + 25 * j + 3 * (7 - m) + q) n →
      colours ∧ s.shift = sampleByte c j ∧ s.bitn.toNat = m) ∧
    (∀ j, j < 4 → s.seq = .run (101 * i + 25 * j + 24) n → colours ∧ s.shift = sampleByte c j) ∧
    (s.seq = .run (101 * i + 100) n → colours)

/-- The clock step (R196). From `INIT` it is `init`, with the wire `Z`. In `RUN(k, n)` the wire shows the level of run `k`;
then either a cycle is counted, or the next run that takes time is entered, or, when none is left, the tick counts and the
next frame begins. `PIN` is the level of the new position, and nothing else changes but the chain's view and the model's
count of the bits sent since the last latch (log entry 21): the last cycle of a region 3 counts a bit, and that of the latch
run ends the count. -/
def Obligations.ClockStepFollowsTheRunList : Prop :=
  ∀ s : State, RunsAlone s →
    (s.seq = .init → ∃ t, exec .init s = .next t ∧ step s = .next t ∧ Emitted s t [.z]) ∧
    ∀ k n, s.seq = .run k n → isPosition s.cfg s.seq = true →
      ∃ t, step s = .next t ∧ Emitted s t [s.shows (runLevel s.cfg s.tick k)] ∧
        t.dir = s.dir ∧ t.ie = s.ie ∧ t.cfg = s.cfg ∧ t.ret = s.ret ∧ RunsAlone t ∧ PinFollowsRun t ∧
        (1 < n → t.seq = .run k (n - 1) ∧ t.tick = s.tick) ∧
        (n = 1 → ∀ k', k < k' → k' < frameRunCount s.cfg → 1 ≤ runLen s.cfg k' →
          (∀ j, k < j → j < k' → runLen s.cfg j = 0) → t.seq = .run k' (runLen s.cfg k') ∧ t.tick = s.tick) ∧
        (n = 1 → (∀ j, k < j → j < frameRunCount s.cfg → runLen s.cfg j = 0) →
          t.seq = .run 0 s.cfg.n1 ∧ t.tick = (s.tick + 1) % 2 ^ s.cfg.tickBits) ∧
        (let endsBit := ∃ i j m, i < s.cfg.pixels ∧ j < 4 ∧ m < 8 ∧ k = 101 * i + 25 * j + 3 * m + 2
         (1 < n → t.sent = s.sent) ∧ (n = 1 → endsBit → t.sent = s.sent + 1) ∧
         (n = 1 → k = 101 * s.cfg.pixels → t.sent = 0) ∧
         (¬ endsBit → k ≠ 101 * s.cfg.pixels → t.sent = s.sent))

/-- "The two agree by construction". From the first cycle of a frame, `C_FRAME` clock steps leave the machine
exactly as one iteration of the main loop does: `renderFrame(TICK, P)`, `delay(N_DELAY)`, `tickInc()`; only `PIN` is
already at the first level of the next frame. -/
def Obligations.FramePeriodOfStepsIsOneLoopIteration : Prop :=
  ∀ s : State, RunsAlone s → LinkReady s → WholeWords s → s.seq = .run 0 s.cfg.n1 →
    ∃ u, execAll [.renderFrame s.tick s.cfg.pixels, .delay s.cfg.nDelay, .tickInc] s = .next u ∧
      runSteps (frameCycles s.cfg) s = .next { u with pin := true }

/-- Frame `n` begins `N_INIT + n*C_FRAME` cycles after reset, with `TICK = n mod 2^TICK_BITS`, for every
configuration and every `n`. -/
def Obligations.FrameStartsEveryPeriod : Prop :=
  ∀ (cfg : Cfg) (n : Nat),
    ∃ s, runSteps (1 + n * frameCycles cfg) (State.resetWith cfg) = .next s ∧
      s.seq = .run 0 cfg.n1 ∧ s.tick = n % 2 ^ cfg.tickBits ∧ s.wire.cycles = 1 + n * frameCycles cfg ∧
      s.pin = true ∧ s.dir = true ∧ s.ie = false ∧ s.cfg = cfg

/-- R199: the wire as a function of the cycle number: for every configuration and every number of cycles the CORE
runs on from reset, never stopping, and shows in each cycle what the closed form says. -/
def Obligations.WireFollowsClosedForm : Prop :=
  ∀ (cfg : Cfg) (n : Nat),
    ∃ s, runSteps n (State.resetWith cfg) = .next s ∧ s.wire.levels = (List.range n).map (wireAt cfg)

/-! ## Invariants and whole-machine rules -/

/-- Every step, whether of the clock, of a placed operation or of reset, keeps the invariant. -/
def Obligations.EveryStepKeepsTheInvariant : Prop :=
  ∀ s t : State, Inv s → step s = .next t → Inv t

/-- The state after reset satisfies the invariant, for every configuration. -/
def Obligations.ResetStateSatisfiesTheInvariant : Prop :=
  ∀ cfg : Cfg, Inv (State.resetWith cfg)

/-- The CORE on its own never stops: in a state of the invariant with nothing placed, every step has a next
state, with nothing placed again; and from then on `PIN` is the level of the current run (R24). -/
def Obligations.TheCoreNeverStops : Prop :=
  ∀ s : State, Inv s → s.code = none →
    ∃ t, step s = .next t ∧ t.code = none ∧ Inv t ∧ PinFollowsRun t

/-- From the first step on, the configuration is constant, the pin stays driven and interrupts stay
masked, in every step but one of reset. -/
def Obligations.ConfigurationAndPinStayFixedAfterInit : Prop :=
  ∀ s t : State, Inv s → s.rstN = true → s.seq ≠ .init → step s = .next t →
    t.cfg = s.cfg ∧ t.seq ≠ .init ∧ t.dir = true ∧ t.ie = false ∧ t.rstN = true
end

