-- ==== Sys2Proof/Laws/State.lean ====
section
/-! SUPPORT. What each update of the state leaves alone, one lemma per field, so that no proof unfolds a record update. -/

namespace Sys2Proof.Machine

variable (s : State) (l : Level) (n k : Nat) (r : Run) (rs : List Run)

/-! ### Time passing -/

@[simp] theorem State.pass_zero : s.pass l 0 = s := rfl
@[simp] theorem State.pass_tick : (s.pass l n).tick = s.tick := by unfold State.pass; split <;> rfl
@[simp] theorem State.pass_seq : (s.pass l n).seq = s.seq := by unfold State.pass; split <;> rfl
@[simp] theorem State.pass_pin : (s.pass l n).pin = s.pin := by unfold State.pass; split <;> rfl
@[simp] theorem State.pass_dir : (s.pass l n).dir = s.dir := by unfold State.pass; split <;> rfl
@[simp] theorem State.pass_ie : (s.pass l n).ie = s.ie := by unfold State.pass; split <;> rfl
@[simp] theorem State.pass_rstN : (s.pass l n).rstN = s.rstN := by unfold State.pass; split <;> rfl
@[simp] theorem State.pass_sent : (s.pass l n).sent = s.sent := by unfold State.pass; split <;> rfl
@[simp] theorem State.pass_cfg : (s.pass l n).cfg = s.cfg := by unfold State.pass; split <;> rfl
@[simp] theorem State.pass_code : (s.pass l n).code = s.code := by unfold State.pass; split <;> rfl
@[simp] theorem State.pass_ret : (s.pass l n).ret = s.ret := by unfold State.pass; split <;> rfl
@[simp] theorem State.pass_wire : (s.pass l n).wire = s.wire.push l n := by
  unfold State.pass; split
  · subst n; rfl
  · rfl

/-- The chain sees the cycles that pass; no cycle shows it nothing. -/
theorem State.pass_chain : (s.pass l n).chain = if n = 0 then s.chain else s.chain.feed s.cfg l n := by
  unfold State.pass; split <;> rfl

@[simp] theorem State.pass_shows (b : Bool) : (s.pass l n).shows b = s.shows b := by simp [State.shows]

/-! ### Emit -/

@[simp] theorem State.emit_tick : (s.emit r).tick = s.tick := by unfold State.emit; split <;> simp
@[simp] theorem State.emit_seq : (s.emit r).seq = s.seq := by unfold State.emit; split <;> simp
@[simp] theorem State.emit_dir : (s.emit r).dir = s.dir := by unfold State.emit; split <;> simp
@[simp] theorem State.emit_ie : (s.emit r).ie = s.ie := by unfold State.emit; split <;> simp
@[simp] theorem State.emit_rstN : (s.emit r).rstN = s.rstN := by unfold State.emit; split <;> simp
@[simp] theorem State.emit_sent : (s.emit r).sent = s.sent := by unfold State.emit; split <;> simp
@[simp] theorem State.emit_cfg : (s.emit r).cfg = s.cfg := by unfold State.emit; split <;> simp
@[simp] theorem State.emit_code : (s.emit r).code = s.code := by unfold State.emit; split <;> simp
@[simp] theorem State.emit_ret : (s.emit r).ret = s.ret := by unfold State.emit; split <;> simp

/-- `Emit(l, 0)` does nothing (R10). -/
@[simp] theorem State.emit_empty (b : Bool) : s.emit ⟨b, 0⟩ = s := rfl

/-- `Emit` puts its cycles on the wire, as the pin direction shows them (R10, R24). -/
@[simp] theorem State.emit_wire : (s.emit r).wire = s.wire.push (s.shows r.level) r.len := by
  unfold State.emit; split
  · next h => simp [h, Trace.push]
  · simp

/-- The pin stays where an `Emit` of at least one cycle put it (R10). -/
theorem State.emit_pin : (s.emit r).pin = if r.len = 0 then s.pin else r.level := by
  unfold State.emit; split <;> rfl

/-- The chain sees what `Emit` puts on the wire. -/
theorem State.emit_chain :
    (s.emit r).chain = if r.len = 0 then s.chain else s.chain.feed s.cfg (s.shows r.level) r.len := by
  unfold State.emit; split
  · rfl
  · next h => simp [State.pass_chain, h]

@[simp] theorem State.emit_shows (b : Bool) : (s.emit r).shows b = s.shows b := by simp [State.shows]

/-! ### A list of Emits -/

@[simp] theorem State.emitRuns_nil : s.emitRuns [] = s := rfl
@[simp] theorem State.emitRuns_cons : s.emitRuns (r :: rs) = (s.emit r).emitRuns rs := rfl
theorem State.emitRuns_append (rs' : List Run) : s.emitRuns (rs ++ rs') = (s.emitRuns rs).emitRuns rs' := by
  simp [State.emitRuns, List.foldl_append]

@[simp] theorem State.emitRuns_tick : (s.emitRuns rs).tick = s.tick := by
  induction rs generalizing s with | nil => rfl | cons r rs ih => simp [ih]
@[simp] theorem State.emitRuns_seq : (s.emitRuns rs).seq = s.seq := by
  induction rs generalizing s with | nil => rfl | cons r rs ih => simp [ih]
@[simp] theorem State.emitRuns_dir : (s.emitRuns rs).dir = s.dir := by
  induction rs generalizing s with | nil => rfl | cons r rs ih => simp [ih]
@[simp] theorem State.emitRuns_ie : (s.emitRuns rs).ie = s.ie := by
  induction rs generalizing s with | nil => rfl | cons r rs ih => simp [ih]
@[simp] theorem State.emitRuns_rstN : (s.emitRuns rs).rstN = s.rstN := by
  induction rs generalizing s with | nil => rfl | cons r rs ih => simp [ih]
@[simp] theorem State.emitRuns_sent : (s.emitRuns rs).sent = s.sent := by
  induction rs generalizing s with | nil => rfl | cons r rs ih => simp [ih]
@[simp] theorem State.emitRuns_cfg : (s.emitRuns rs).cfg = s.cfg := by
  induction rs generalizing s with | nil => rfl | cons r rs ih => simp [ih]
@[simp] theorem State.emitRuns_code : (s.emitRuns rs).code = s.code := by
  induction rs generalizing s with | nil => rfl | cons r rs ih => simp [ih]
@[simp] theorem State.emitRuns_ret : (s.emitRuns rs).ret = s.ret := by
  induction rs generalizing s with | nil => rfl | cons r rs ih => simp [ih]
@[simp] theorem State.emitRuns_shows (b : Bool) : (s.emitRuns rs).shows b = s.shows b := by simp [State.shows]

/-! ### The count of bits sent -/

@[simp] theorem State.setSent_sent : (s.setSent n).sent = n := rfl
@[simp] theorem State.setSent_tick : (s.setSent n).tick = s.tick := rfl
@[simp] theorem State.setSent_seq : (s.setSent n).seq = s.seq := rfl
@[simp] theorem State.setSent_pin : (s.setSent n).pin = s.pin := rfl
@[simp] theorem State.setSent_dir : (s.setSent n).dir = s.dir := rfl
@[simp] theorem State.setSent_ie : (s.setSent n).ie = s.ie := rfl
@[simp] theorem State.setSent_rstN : (s.setSent n).rstN = s.rstN := rfl
@[simp] theorem State.setSent_wire : (s.setSent n).wire = s.wire := rfl
@[simp] theorem State.setSent_chain : (s.setSent n).chain = s.chain := rfl
@[simp] theorem State.setSent_cfg : (s.setSent n).cfg = s.cfg := rfl
@[simp] theorem State.setSent_code : (s.setSent n).code = s.code := rfl
@[simp] theorem State.setSent_ret : (s.setSent n).ret = s.ret := rfl
@[simp] theorem State.setSent_setSent (m : Nat) : (s.setSent m).setSent n = s.setSent n := rfl
@[simp] theorem State.setSent_shows (b : Bool) : (s.setSent n).shows b = s.shows b := rfl

/-- What Emits do does not depend on the count of bits sent, so that count may be set before or after. -/
@[simp] theorem State.emit_setSent : (s.setSent n).emit r = (s.emit r).setSent n := by
  unfold State.emit State.pass State.shows State.setSent; split <;> rfl

@[simp] theorem State.emitRuns_setSent : (s.setSent n).emitRuns rs = (s.emitRuns rs).setSent n := by
  induction rs generalizing s with
  | nil => rfl
  | cons r rs ih => rw [State.emitRuns_cons, State.emit_setSent, ih]; rfl

/-! ### Entering a run, driving the pin, the tick -/

@[simp] theorem State.enter_tick : (s.enter k n).tick = s.tick := rfl
@[simp] theorem State.enter_seq : (s.enter k n).seq = .run k n := rfl
@[simp] theorem State.enter_pin : (s.enter k n).pin = runLevel s.cfg s.tick k := rfl
@[simp] theorem State.enter_dir : (s.enter k n).dir = s.dir := rfl
@[simp] theorem State.enter_ie : (s.enter k n).ie = s.ie := rfl
@[simp] theorem State.enter_rstN : (s.enter k n).rstN = s.rstN := rfl
@[simp] theorem State.enter_wire : (s.enter k n).wire = s.wire := rfl
@[simp] theorem State.enter_chain : (s.enter k n).chain = s.chain := rfl
@[simp] theorem State.enter_sent : (s.enter k n).sent = s.sent := rfl
@[simp] theorem State.enter_cfg : (s.enter k n).cfg = s.cfg := rfl
@[simp] theorem State.enter_code : (s.enter k n).code = s.code := rfl
@[simp] theorem State.enter_ret : (s.enter k n).ret = s.ret := rfl

@[simp] theorem State.advanceTick_tick : s.advanceTick.tick = (s.tick + 1) % 2 ^ s.cfg.tickBits := rfl
@[simp] theorem State.advanceTick_seq : s.advanceTick.seq = s.seq := rfl
@[simp] theorem State.advanceTick_pin : s.advanceTick.pin = s.pin := rfl
@[simp] theorem State.advanceTick_dir : s.advanceTick.dir = s.dir := rfl
@[simp] theorem State.advanceTick_ie : s.advanceTick.ie = s.ie := rfl
@[simp] theorem State.advanceTick_rstN : s.advanceTick.rstN = s.rstN := rfl
@[simp] theorem State.advanceTick_wire : s.advanceTick.wire = s.wire := rfl
@[simp] theorem State.advanceTick_chain : s.advanceTick.chain = s.chain := rfl
@[simp] theorem State.advanceTick_sent : s.advanceTick.sent = s.sent := rfl
@[simp] theorem State.advanceTick_cfg : s.advanceTick.cfg = s.cfg := rfl
@[simp] theorem State.advanceTick_code : s.advanceTick.code = s.code := rfl
@[simp] theorem State.advanceTick_ret : s.advanceTick.ret = s.ret := rfl

@[simp] theorem State.driveOutput_dir : s.driveOutput.dir = true := rfl
@[simp] theorem State.driveOutput_tick : s.driveOutput.tick = s.tick := rfl
@[simp] theorem State.driveOutput_seq : s.driveOutput.seq = s.seq := rfl
@[simp] theorem State.driveOutput_pin : s.driveOutput.pin = s.pin := rfl
@[simp] theorem State.driveOutput_ie : s.driveOutput.ie = s.ie := rfl
@[simp] theorem State.driveOutput_rstN : s.driveOutput.rstN = s.rstN := rfl
@[simp] theorem State.driveOutput_wire : s.driveOutput.wire = s.wire := rfl
@[simp] theorem State.driveOutput_chain : s.driveOutput.chain = s.chain := rfl
@[simp] theorem State.driveOutput_sent : s.driveOutput.sent = s.sent := rfl
@[simp] theorem State.driveOutput_cfg : s.driveOutput.cfg = s.cfg := rfl
@[simp] theorem State.driveOutput_code : s.driveOutput.code = s.code := rfl
@[simp] theorem State.driveOutput_ret : s.driveOutput.ret = s.ret := rfl

/-! ### The initialisation step and reset -/

@[simp] theorem State.initialise_tick : s.initialise.tick = s.tick := rfl
@[simp] theorem State.initialise_seq : s.initialise.seq = .run 0 s.cfg.n1 := rfl
@[simp] theorem State.initialise_dir : s.initialise.dir = true := rfl
@[simp] theorem State.initialise_ie : s.initialise.ie = false := rfl
@[simp] theorem State.initialise_rstN : s.initialise.rstN = s.rstN := rfl
@[simp] theorem State.initialise_wire : s.initialise.wire = s.wire.push .z 1 := rfl
@[simp] theorem State.initialise_chain : s.initialise.chain = s.chain.undriven := rfl
@[simp] theorem State.initialise_sent : s.initialise.sent = s.sent := rfl
@[simp] theorem State.initialise_cfg : s.initialise.cfg = s.cfg := rfl
@[simp] theorem State.initialise_code : s.initialise.code = s.code := rfl
@[simp] theorem State.initialise_ret : s.initialise.ret = s.ret := rfl
theorem State.initialise_pin : s.initialise.pin = runLevel s.cfg s.tick 0 := rfl

@[simp] theorem State.applyReset_tick : s.applyReset.tick = 0 := rfl
@[simp] theorem State.applyReset_seq : s.applyReset.seq = .init := rfl
@[simp] theorem State.applyReset_dir : s.applyReset.dir = false := rfl
@[simp] theorem State.applyReset_rstN : s.applyReset.rstN = s.rstN := rfl
@[simp] theorem State.applyReset_wire : s.applyReset.wire = [] := rfl
@[simp] theorem State.applyReset_chain : s.applyReset.chain = Chain.unknown := rfl
@[simp] theorem State.applyReset_sent : s.applyReset.sent = 0 := rfl
@[simp] theorem State.applyReset_cfg : s.applyReset.cfg = s.cfg := rfl
@[simp] theorem State.applyReset_code : s.applyReset.code = none := rfl
@[simp] theorem State.applyReset_ret : s.applyReset.ret = .nothing := rfl

end Sys2Proof.Machine
end

