-- ==== Sys2Proof/Laws/Trace.lean ====
section
/-! SUPPORT. The wire trace: how many cycles it has, what it shows cycle by cycle, and that pushing keeps it canonical. -/

namespace Sys2Proof.Machine

namespace Trace

variable (t : Trace) (l : Level) (m n : Nat)

@[simp] theorem push_zero : t.push l 0 = t := rfl

/-- Pushing lengthens the trace by its cycles. -/
@[simp] theorem cycles_push : (t.push l n).cycles = t.cycles + n := by
  unfold Trace.push
  split
  · omega
  · cases t with
    | nil => simp [Trace.cycles]
    | cons r rest =>
      obtain ⟨l', k⟩ := r
      dsimp only
      split <;> simp [Trace.cycles] <;> omega

/-- Pushing appends its cycles (R10: "appending n copies of l to the wire trace"). -/
@[simp] theorem levels_push : (t.push l n).levels = t.levels ++ List.replicate n l := by
  unfold Trace.push
  split
  · simp [*]
  · cases t with
    | nil => simp [Trace.levels]
    | cons r rest =>
      obtain ⟨l', k⟩ := r
      dsimp only
      split
      · next h => subst h; simp [Trace.levels]
      · simp [Trace.levels]

/-- The cycles are the levels counted. -/
@[simp] theorem length_levels : t.levels.length = t.cycles := by
  simp [Trace.levels, Trace.cycles, List.length_flatMap, List.map_reverse, List.sum_reverse]

/-- A run put on the wire in two parts is the run put on it at once (R11). -/
theorem push_push : (t.push l m).push l n = t.push l (m + n) := by
  unfold Trace.push
  rcases Nat.eq_zero_or_pos m with rfl | hm
  · simp
  rcases Nat.eq_zero_or_pos n with rfl | hn
  · simp
  have h0 : m ≠ 0 := by omega
  have h1 : n ≠ 0 := by omega
  have h2 : m + n ≠ 0 := by omega
  cases t with
  | nil => simp [h0, h1]
  | cons r rest =>
    obtain ⟨l', k⟩ := r
    by_cases h : l' = l
    · simp [h0, h1, h, Nat.add_assoc]
    · simp [h0, h1, h]

/-- Pushing keeps the canonical form of R11. -/
theorem wf_push (h : t.wf = true) : (t.push l n).wf = true := by
  unfold Trace.push
  split
  · exact h
  · next hn =>
    have hpos : 1 ≤ n := by omega
    cases t with
    | nil => simpa [Trace.wf] using hpos
    | cons r rest =>
      obtain ⟨l', k⟩ := r
      dsimp only
      split
      · cases rest with
        | nil => simp [Trace.wf] at h ⊢; omega
        | cons r' rest' =>
          obtain ⟨l'', k'⟩ := r'
          simp [Trace.wf] at h ⊢
          exact ⟨⟨by omega, h.1.2⟩, h.2⟩
      · next hne => simp [Trace.wf, hpos, h, Ne.symm hne]

end Trace

/-- Two `Emit`s of one level are one `Emit` of both lengths, where the chain reads them so. -/
theorem State.emit_emit (s : State) (b : Bool) (m n : Nat) (hm : 1 ≤ m) (hn : 1 ≤ n)
    (hfeed : ∀ c : Chain, (c.feed s.cfg (s.shows b) m).feed s.cfg (s.shows b) n = c.feed s.cfg (s.shows b) (m + n)) :
    (s.emit ⟨b, m⟩).emit ⟨b, n⟩ = s.emit ⟨b, m + n⟩ := by
  have h1 : m ≠ 0 := by omega
  have h2 : n ≠ 0 := by omega
  have h3 : m + n ≠ 0 := by omega
  simp only [State.emit, State.pass, State.shows, h1, h2, h3, if_false] at *
  simp only [Trace.push_push]
  have := hfeed s.chain
  rw [this]

end Sys2Proof.Machine
end

