-- ==== Sys2Proof/Laws/Receiver.lean ====
section
/-! SUPPORT. The receiver: `DISP` as a memory (canonical form kept, read after write), and the chain fed in parts. -/

namespace Sys2Proof.Machine

/-! ### DISP -/

namespace Memory

/-- Every index of the memory is at least `k`. -/
theorem wf_cons_iff (a : Nat) (v : PixelWord) (m : Memory) :
    Memory.wf ((a, v) :: m) = true ↔ Memory.wf m = true ∧ ∀ p ∈ m.head?, a < p.1 := by
  cases m with
  | nil => simp [Memory.wf]
  | cons p rest => obtain ⟨b, w⟩ := p; simp [Memory.wf, and_comm]

/-- Writing keeps the least index unless it writes below it. -/
theorem head_write (m : Memory) (k : Nat) (w : PixelWord) (p : Nat × PixelWord) (hp : p ∈ (m.write k w).head?) :
    p.1 = k ∨ ∃ q ∈ m.head?, p.1 = q.1 := by
  cases m with
  | nil => simp [Memory.write] at hp; left; simp [← hp]
  | cons q rest =>
    obtain ⟨a, v⟩ := q
    simp only [Memory.write] at hp
    split at hp
    · simp at hp; left; simp [← hp]
    · split at hp
      · next hk => simp at hp; left; simp [← hp, hk]
      · simp at hp; right; simp [← hp]

/-- Writing a pixel keeps the canonical form. -/
theorem wf_write (m : Memory) (k : Nat) (w : PixelWord) (h : m.wf = true) : (m.write k w).wf = true := by
  induction m with
  | nil => simp [Memory.write, Memory.wf]
  | cons q rest ih =>
    obtain ⟨a, v⟩ := q
    have hc := (wf_cons_iff a v rest).1 h
    simp only [Memory.write]
    split
    · next hk => exact (wf_cons_iff k w _).2 ⟨h, by simpa using hk⟩
    · split
      · exact (wf_cons_iff a w rest).2 hc
      · refine (wf_cons_iff a v _).2 ⟨ih hc.1, fun p hp => ?_⟩
        rcases head_write rest k w p hp with hk | ⟨q, hq, he⟩
        · omega
        · have := hc.2 q hq; omega

theorem wf_writeFrom (m : Memory) (k : Nat) (ws : List PixelWord) (h : m.wf = true) : (m.writeFrom k ws).wf = true := by
  induction ws generalizing m k with
  | nil => exact h
  | cons w ws ih => exact ih _ _ (wf_write m k w h)

/-- A pixel below every index listed is unspecified. -/
theorem read_below (m : Memory) (j : Nat) (h : m.wf = true) (hj : ∀ p ∈ m.head?, j < p.1) : m.read j = none := by
  induction m with
  | nil => rfl
  | cons q rest ih =>
    obtain ⟨a, v⟩ := q
    have ha : j < a := hj (a, v) (by simp)
    have hc := (wf_cons_iff a v rest).1 h
    simp only [Memory.read]
    rw [if_neg (by omega)]
    exact ih hc.1 fun p hp => by have := hc.2 p hp; omega

/-- Read after write: the pixel written shows the word written, every other pixel what it showed. -/
theorem read_write (m : Memory) (k j : Nat) (w : PixelWord) (h : m.wf = true) :
    (m.write k w).read j = if j = k then some w else m.read j := by
  induction m with
  | nil => simp [Memory.write, Memory.read]
  | cons q rest ih =>
    obtain ⟨a, v⟩ := q
    have hc := (wf_cons_iff a v rest).1 h
    simp only [Memory.write]
    split
    · simp [Memory.read]
    · split
      · next hk => subst hk; by_cases hj : j = k <;> simp [Memory.read, hj]
      · next h1 h2 =>
        simp only [Memory.read]
        by_cases hja : j = a
        · simp [hja, Ne.symm h2]
        · simp [hja, ih hc.1]

/-- What a latch writes: pixel `k + i` shows the `i`-th word, every other pixel what it showed. -/
theorem read_writeFrom (m : Memory) (k j : Nat) (ws : List PixelWord) (h : m.wf = true) :
    (m.writeFrom k ws).read j = if k ≤ j ∧ j < k + ws.length then ws[j - k]? else m.read j := by
  induction ws generalizing m k with
  | nil => simp only [Memory.writeFrom, List.length_nil]; rw [if_neg (by omega)]
  | cons w ws ih =>
    rw [Memory.writeFrom, ih _ _ (wf_write m k w h), read_write m k j w h]
    by_cases hj : j = k
    · subst hj
      rw [if_neg (by omega), if_pos rfl, if_pos (by simp)]; simp
    · by_cases hr : k + 1 ≤ j ∧ j < k + 1 + ws.length
      · rw [if_pos hr, if_pos (by simp; omega), show j - k = (j - (k + 1)) + 1 by omega]; simp
      · rw [if_neg hr, if_neg hj, if_neg (by simp; omega)]

end Memory

/-! ### The chain -/

namespace Chain

variable (cfg : Cfg) (c : Chain)

/-- Growing a low run in two parts latches when, and only when, growing it at once does. -/
theorem lowGrows_lowGrows (a b d : Nat) (hab : a ≤ b) (hbd : b ≤ d) :
    (c.lowGrows cfg a b).lowGrows cfg b d = c.lowGrows cfg a d := by
  unfold Chain.lowGrows
  by_cases h1 : a < cfg.nRstHi ∧ cfg.nRstHi ≤ b
  · rw [if_pos h1, if_neg (by omega), if_pos (by omega)]
  · rw [if_neg h1]
    by_cases h2 : b < cfg.nRstHi ∧ cfg.nRstHi ≤ d
    · rw [if_pos h2, if_pos (by omega)]
    · rw [if_neg h2, if_neg (by omega)]

/-- What a latch event does, it does whatever run the line is in, and it leaves the line alone. -/
theorem latchEvent_withLine (ln : Line) : ({ c with line := ln } : Chain).latchEvent cfg = { c.latchEvent cfg with line := ln } := by
  obtain ⟨status, line, rx, part, disp⟩ := c
  cases status with
  | tracking => by_cases h : part = [] <;> simp [Chain.latchEvent, Chain.refuse, h]
  | lost => rfl
  | refused why => rfl

theorem lowGrows_withLine (ln : Line) (a b : Nat) :
    ({ c with line := ln } : Chain).lowGrows cfg a b = { c.lowGrows cfg a b with line := ln } := by
  unfold Chain.lowGrows
  split
  · exact latchEvent_withLine cfg c ln
  · rfl

theorem takeBit_withLine (ln : Line) (h : Nat) :
    ({ c with line := ln } : Chain).takeBit cfg h = { c.takeBit cfg h with line := ln } := by
  obtain ⟨status, line, rx, part, disp⟩ := c
  cases status with
  | tracking =>
    simp only [Chain.takeBit, Chain.refuse]
    split
    · split <;> rfl
    · rfl
  | lost => rfl
  | refused why => rfl

/-- An undriven wire shows a chain nothing before the first driven cycle (R59). -/
theorem undriven_fresh (h : c.line = .lead 0) : c.undriven = c := by simp [Chain.undriven, h]

/-- Everything an undriven wire can do to a chain: nothing, or make it unknown (log entry 38). -/
theorem undriven_cases : c.undriven = c ∨ c.undriven = Chain.unknown := by
  unfold Chain.undriven
  split
  · exact .inl rfl
  · split
    · exact .inr rfl
    · exact .inr rfl
    · exact .inl rfl

/-- A second undriven cycle changes nothing more. -/
@[simp] theorem undriven_undriven : c.undriven.undriven = c.undriven := by
  obtain h | h := c.undriven_cases
  · rw [h, h]
  · rw [h]; rfl

/-- The chain reads runs, not cycles: a run fed in two parts is the run fed at once (R59 reads maximal runs). -/
theorem feed_feed (l : Level) (m n : Nat) (hm : 1 ≤ m) (hn : 1 ≤ n) :
    (c.feed cfg l m).feed cfg l n = c.feed cfg l (m + n) := by
  cases l with
  | z => exact c.undriven_undriven
  | high => cases h : c.line <;> simp [Chain.feed, Chain.feedHigh, h, Nat.add_assoc]
  | low =>
    cases h : c.line with
    | lead a =>
      simp only [Chain.feed, Chain.feedLow, h]
      rw [lowGrows_withLine, lowGrows_lowGrows cfg c a (a + m) (a + m + n) (by omega) (by omega), Nat.add_assoc]
    | low a =>
      simp only [Chain.feed, Chain.feedLow, h]
      rw [lowGrows_withLine, lowGrows_lowGrows cfg c a (a + m) (a + m + n) (by omega) (by omega), Nat.add_assoc]
    | high a =>
      simp only [Chain.feed, Chain.feedLow, h]
      rw [lowGrows_withLine, lowGrows_lowGrows cfg _ 0 m (m + n) (by omega) (by omega)]

/-- The invariant of the chain: `DISP` canonical and `PART` shorter than a word (R58). -/
def Ok (c : Chain) : Prop := c.disp.wf = true ∧ c.part.length < 32

theorem Ok.withLine {c : Chain} (h : c.Ok) (ln : Line) : Chain.Ok { c with line := ln } := h

theorem Ok.refuse {c : Chain} (h : c.Ok) (why : ChainRefusal) : (c.refuse why).Ok := h

theorem Ok.takeBit {c : Chain} (h : c.Ok) (n : Nat) : (c.takeBit cfg n).Ok := by
  unfold Chain.takeBit
  split
  · split
    · dsimp only
      split
      · exact ⟨h.1, by simp⟩
      · next hlen => exact ⟨h.1, by have := h.2; simp at hlen ⊢; omega⟩
    · exact h.refuse _
  · exact h
  · exact h

theorem Ok.latchEvent {c : Chain} (h : c.Ok) : (c.latchEvent cfg).Ok := by
  unfold Chain.latchEvent
  split
  · split
    · exact ⟨Memory.wf_writeFrom _ _ _ h.1, h.2⟩
    · exact h.refuse _
  · exact ⟨h.1, by simp⟩
  · exact h

theorem Ok.lowGrows {c : Chain} (h : c.Ok) (m n : Nat) : (c.lowGrows cfg m n).Ok := by
  unfold Chain.lowGrows; split
  · exact h.latchEvent cfg
  · exact h

theorem Ok.lowEnds {c : Chain} (h : c.Ok) (l : Nat) : (c.lowEnds cfg l).Ok := by
  unfold Chain.lowEnds; split
  · split
    · exact h
    · exact h.refuse _
  · exact h
  · exact h

theorem Ok.undriven {c : Chain} (h : c.Ok) : c.undriven.Ok := by
  obtain e | e := c.undriven_cases
  · rw [e]; exact h
  · rw [e]; exact ⟨rfl, by decide⟩

/-- Every cycle of the wire keeps the invariant of the chain. -/
theorem Ok.feed {c : Chain} (h : c.Ok) (l : Level) (n : Nat) : (c.feed cfg l n).Ok := by
  cases l with
  | z => exact h.undriven
  | high =>
    unfold Chain.feed Chain.feedHigh
    cases hl : c.line <;> dsimp only
    · exact h.withLine _
    · exact h.withLine _
    · exact (h.lowEnds cfg _).withLine _
  | low =>
    unfold Chain.feed Chain.feedLow
    cases hl : c.line <;> dsimp only
    · exact (h.lowGrows cfg _ _).withLine _
    · exact ((h.takeBit cfg _).lowGrows cfg _ _).withLine _
    · exact (h.lowGrows cfg _ _).withLine _

end Chain

/-- An `Emit` in two parts is the `Emit` at once. -/
theorem State.emit_split (s : State) (b : Bool) (m n : Nat) (hm : 1 ≤ m) (hn : 1 ≤ n) :
    (s.emit ⟨b, m⟩).emit ⟨b, n⟩ = s.emit ⟨b, m + n⟩ :=
  s.emit_emit b m n hm hn fun c => c.feed_feed s.cfg _ m n hm hn

end Sys2Proof.Machine
end

