-- ==== Sys2Proof/Laws/Ops.lean ====
section
/-! SUPPORT. What the shared operations can do, once: the preconditions, the wire a list of Emits makes, transmitting and
latching, and runs of operations. -/

/-- The lengths a valid configuration guarantees (R5, R6). -/
theorem Sys2Proof.Cfg.bounds (c : Sys2Proof.Cfg) : 1 ≤ c.pixels ∧ c.pixels ≤ 255 ∧ 1 ≤ c.n1 ∧ 1 ≤ c.n2 ∧ 1 ≤ c.n3 ∧
    1 ≤ c.nLatch ∧ c.nRstLo < c.nRstHi ∧ c.nRstHi ≤ c.nLatch := by
  obtain ⟨⟨h1, h2⟩, -, -, -, -, -, -, -, -, -, -, h3, h4, h5, h6, h7, h8⟩ := c.ok
  exact ⟨h1, h2, h3, h4, h5, h6, h7, h8⟩

namespace Sys2Proof.Machine

variable (s t : State)

/-! ### Preconditions -/

/-- The preconditions of R119 let an operation through exactly in a ready machine. -/
theorem State.whenLinkReady_eq_next (k : Host.Outcome State Fault Refusal) :
    s.whenLinkReady k = .next t ↔ LinkReady s ∧ k = .next t := by
  unfold State.whenLinkReady LinkReady
  cases s.dir <;> cases s.ie <;> simp

theorem State.whenLinkReady_ready (k : Host.Outcome State Fault Refusal) (h : LinkReady s) : s.whenLinkReady k = k := by
  simp [State.whenLinkReady, h.1, h.2]

theorem State.whenDriven_eq_next (k : Host.Outcome State Fault Refusal) :
    s.whenDriven k = .next t ↔ s.dir = true ∧ k = .next t := by
  unfold State.whenDriven
  cases s.dir <;> simp

/-- A driven pin shows its level (R24). -/
theorem State.shows_driven (b : Bool) (h : s.dir = true) : s.shows b = Level.ofBit b := by simp [State.shows, h]

/-! ### The wire a list of Emits makes -/

/-- The cycles of a list of runs. -/
def runsCycles (rs : List Run) : Nat := (rs.map Run.len).sum

/-- What a list of runs shows cycle by cycle on a driven pin. -/
def runsWave (rs : List Run) : List Level := rs.flatMap (fun r => List.replicate r.len (Level.ofBit r.level))

@[simp] theorem runsCycles_append (a b : List Run) : runsCycles (a ++ b) = runsCycles a + runsCycles b := by
  simp [runsCycles]
@[simp] theorem runsWave_append (a b : List Run) : runsWave (a ++ b) = runsWave a ++ runsWave b := by
  simp [runsWave]
@[simp] theorem runsCycles_nil : runsCycles [] = 0 := rfl
@[simp] theorem runsWave_nil : runsWave [] = [] := rfl
@[simp] theorem runsCycles_cons (r : Run) (rs : List Run) : runsCycles (r :: rs) = r.len + runsCycles rs := by
  simp [runsCycles]
@[simp] theorem runsWave_cons (r : Run) (rs : List Run) :
    runsWave (r :: rs) = List.replicate r.len (Level.ofBit r.level) ++ runsWave rs := by
  simp [runsWave]

/-- A list of Emits takes its cycles (R10). -/
@[simp] theorem State.emitRuns_cycles (rs : List Run) : (s.emitRuns rs).wire.cycles = s.wire.cycles + runsCycles rs := by
  induction rs generalizing s with
  | nil => rfl
  | cons r rs ih => simp [ih, Nat.add_assoc]

/-- A list of Emits shows its runs on a driven pin (R10, R24). -/
theorem State.emitRuns_levels (rs : List Run) (h : s.dir = true) :
    (s.emitRuns rs).wire.levels = s.wire.levels ++ runsWave rs := by
  induction rs generalizing s with
  | nil => simp
  | cons r rs ih => rw [State.emitRuns_cons, ih _ (by simpa using h)]; simp [State.shows_driven s _ h]

/-- What a list of Emits does to the chain, the wire and the pin depends on these, the direction and CFG alone. -/
theorem State.emitRuns_wf (rs : List Run) (h : s.wire.wf = true) : (s.emitRuns rs).wire.wf = true := by
  induction rs generalizing s with
  | nil => exact h
  | cons r rs ih => exact ih _ (by simpa using Trace.wf_push _ _ _ h)

/-- An Emit keeps the invariant of the chain. -/
theorem State.emit_chainOk (r : Run) (h : s.chain.Ok) : (s.emit r).chain.Ok := by
  rw [State.emit_chain]; split
  · exact h
  · exact h.feed _ _ _

theorem State.emitRuns_chainOk (rs : List Run) (h : s.chain.Ok) : (s.emitRuns rs).chain.Ok := by
  induction rs generalizing s with
  | nil => exact h
  | cons r rs ih => exact ih _ (s.emit_chainOk r h)

/-- The last run of at least one cycle decides the pin (R10). -/
theorem State.emitRuns_pin_append (rs : List Run) (b : Bool) (n : Nat) :
    (s.emitRuns (rs ++ [⟨b, n⟩])).pin = if n = 0 then (s.emitRuns rs).pin else b := by
  rw [State.emitRuns_append]; simp [State.emit_pin]

/-! ### Bits, bytes and words as cycles -/

@[simp] theorem runsCycles_bitRuns (c : Cfg) (b : Bool) : runsCycles (bitRuns c b) = bitCycles c := by
  simp [bitRuns, bitCycles, Nat.add_assoc]

@[simp] theorem runsWave_bitRuns (c : Cfg) (b : Bool) : runsWave (bitRuns c b) = bitWave c b := by
  simp [bitRuns, bitWave, Level.ofBit]

@[simp] theorem runsCycles_byteRuns (c : Cfg) (v : Byte) : runsCycles (byteRuns c v) = byteCycles c := by
  simp [byteRuns, byteBits, byteCycles]; omega

@[simp] theorem runsWave_byteRuns (c : Cfg) (v : Byte) : runsWave (byteRuns c v) = byteWave c v := by
  simp [byteRuns, byteBits, byteWave, List.range_succ, Level.ofBit]

@[simp] theorem runsCycles_wordRuns (c : Cfg) (x : Sample) : runsCycles (wordRuns c x) = wordCycles c := by
  simp [wordRuns, wordCycles, byteCycles]; omega

@[simp] theorem runsWave_wordRuns (c : Cfg) (x : Sample) : runsWave (wordRuns c x) = wordWave c x.g x.r x.b x.w := by
  simp [wordRuns, wordWave, Level.ofBit]

theorem runsCycles_copiesOf (c : Cfg) (n : Nat) (x : Sample) : runsCycles (copiesOf c n x) = n * wordCycles c := by
  induction n with
  | zero => simp [copiesOf]
  | succ n ih => rw [copiesOf, List.replicate_succ, List.flatten_cons, runsCycles_append, ← copiesOf, ih]; simp; ring

theorem runsCycles_flatMap_words (c : Cfg) (f : Nat → Sample) (n : Nat) :
    runsCycles ((List.range n).flatMap (fun i => wordRuns c (f i))) = n * wordCycles c := by
  induction n with
  | zero => simp
  | succ n ih => simp [List.range_succ, ih]; ring

theorem runsWave_flatMap {α : Type} (l : List α) (f : α → List Run) :
    runsWave (l.flatMap f) = l.flatMap (fun a => runsWave (f a)) := by
  induction l with
  | nil => rfl
  | cons a l ih => simp [ih]

/-! ### Transmitting and latching -/

/-- Everything `transmit` can do when it answers a next state. -/
theorem State.transmit_eq_next (bits : Nat) (rs : List Run) :
    s.transmit bits rs = .next t ↔ LinkReady s ∧ t = (s.emitRuns rs).setSent (s.sent + bits) := by
  unfold State.transmit
  rw [State.whenLinkReady_eq_next]
  simp [eq_comm]

/-- Everything `transmitAndLatch` can do when it answers a next state. -/
theorem State.transmitAndLatch_eq_next (bits : Nat) (rs : List Run) :
    s.transmitAndLatch bits rs = .next t ↔
      LinkReady s ∧ (s.sent + bits) % 32 = 0 ∧ t = (s.emitRuns (rs ++ [latchRun s.cfg])).setSent 0 := by
  unfold State.transmitAndLatch
  rw [State.whenLinkReady_eq_next]
  split <;> simp_all [eq_comm]

/-- `configure` answers a next state before the run only. -/
theorem State.configure_eq_next (c : Cfg) :
    s.configure c = .next t ↔ s.seq = .init ∧ t = { s with cfg := c } := by
  unfold State.configure
  split <;> simp_all [eq_comm]

/-- A list of runs whose last that takes time is low, and that takes some: the pin ends low. -/
theorem State.emitRuns_low (rs : List Run) (n m : Nat) (hn : 1 ≤ n) :
    (s.emitRuns (rs ++ [⟨false, n⟩, ⟨false, m⟩])).pin = false := by
  have : rs ++ [⟨false, n⟩, ⟨false, m⟩] = (rs ++ [⟨false, n⟩]) ++ [⟨false, m⟩] := by simp
  rw [this, State.emitRuns_pin_append, State.emitRuns_pin_append]
  split
  · rw [if_neg (by omega)]
  · rfl

/-! ### Runs of operations -/

@[simp] theorem execAll_nil : execAll [] s = .next s := rfl

theorem execAll_cons_next (i : Instr) (is : List Instr) (u : State) (h : exec i s = .next u) :
    execAll (i :: is) s = execAll is u := by
  simp [execAll, h]

theorem execAll_append_next (is js : List Instr) (u : State) (h : execAll is s = .next u) :
    execAll (is ++ js) s = execAll js u := by
  induction is generalizing s with
  | nil => simp at h; subst h; rfl
  | cons i is ih =>
    simp only [execAll, List.cons_append] at h ⊢
    cases hx : exec i s with
    | next v => rw [hx] at h; exact ih v h
    | fault r => rw [hx] at h; cases h
    | refused r => rw [hx] at h; cases h

end Sys2Proof.Machine
end

