-- ==== Sys2Proof/Laws/Chain.lean ====
section
/-! SUPPORT. What the receiver makes of bits, bytes and words: which part of the chain each leaves alone, and what a
tracked chain holds after them. -/

namespace Sys2Proof.Machine

namespace Chain

variable (cfg : Cfg) (c : Chain)

/-! ### DISP changes at a latch only (R59, R61) -/

@[simp] theorem disp_takeBit (h : Nat) : (c.takeBit cfg h).disp = c.disp := by
  unfold Chain.takeBit Chain.refuse; split
  · split
    · dsimp only; split <;> rfl
    · rfl
  · rfl
  · rfl

@[simp] theorem disp_lowEnds (h : Nat) : (c.lowEnds cfg h).disp = c.disp := by
  unfold Chain.lowEnds Chain.refuse; split
  · split <;> rfl
  · rfl
  · rfl

@[simp] theorem disp_feedHigh (n : Nat) : (c.feedHigh cfg n).disp = c.disp := by
  unfold Chain.feedHigh; split <;> simp

theorem line_feedHigh (n : Nat) : ∃ m, (c.feedHigh cfg n).line = .high m := by
  unfold Chain.feedHigh; split <;> simp

/-- A low run too short for a latch leaves DISP alone (R59). -/
theorem feedLow_of_high (n h : Nat) (hl : c.line = .high h) (hn : n < cfg.nRstHi) :
    c.feedLow cfg n = { c.takeBit cfg h with line := .low n } := by
  simp [Chain.feedLow, hl, Chain.lowGrows, show ¬ cfg.nRstHi ≤ n by omega]

theorem feedLow_of_low (n m : Nat) (hl : c.line = .low m) (hn : m + n < cfg.nRstHi) :
    c.feedLow cfg n = { c with line := .low (m + n) } := by
  simp [Chain.feedLow, hl, Chain.lowGrows, show ¬ cfg.nRstHi ≤ m + n by omega]

/-- A latch changes no pixel at `L_CHAIN` or beyond (R57). -/
theorem read_latchEvent_far (k : Nat) (hk : cfg.lChain ≤ k) (hw : c.disp.wf = true) :
    (c.latchEvent cfg).disp.read k = c.disp.read k := by
  unfold Chain.latchEvent
  split
  · split
    · dsimp only; rw [Memory.read_writeFrom _ _ _ _ hw, if_neg]; simp; omega
    · rfl
  · rfl
  · rfl

end Chain

/-! ### A tracked chain -/

/-- One more bit of the word being received (R59): the words complete so far and the bits of the next. -/
def pushBit (p : List PixelWord × List Bool) (b : Bool) : List PixelWord × List Bool :=
  if (p.2 ++ [b]).length = 32 then (p.1 ++ [wordOfBits (p.2 ++ [b])], []) else (p.1, p.2 ++ [b])

/-- The pin is driven and the chain is tracked, has received `p` and shows `d`. -/
structure Tracked (c : Cfg) (t : State) (p : List PixelWord × List Bool) (d : Memory) : Prop where
  dir : t.dir = true
  cfg : t.cfg = c
  status : t.chain.status = .tracking
  rx : t.chain.rx = p.1
  part : t.chain.part = p.2
  disp : t.chain.disp = d

/-- The line has been low for at most `n` cycles. -/
def LowFor (n : Nat) (t : State) : Prop := ∃ m, t.chain.line = .low m ∧ m ≤ n

theorem LowFor.quiet {c : Cfg} {n : Nat} {t : State} (h : LowFor n t) (hn : n ≤ c.nRstLo) : LineQuiet c t.chain.line := by
  obtain ⟨m, h1, h2⟩ := h; rw [h1]; left; omega

variable {c : Cfg} {t : State} {p : List PixelWord × List Bool} {d : Memory}

/-- A gap after a bit. -/
theorem Tracked.gap (h : Tracked c t p d) {l : Nat} (hl : LowFor l t) (n : Nat) (hn : l + n < c.nRstHi) :
    Tracked c (t.emit ⟨false, n⟩) p d ∧ LowFor (l + n) (t.emit ⟨false, n⟩) := by
  obtain ⟨m, hm, hle⟩ := hl
  rcases Nat.eq_zero_or_pos n with rfl | hp
  · exact ⟨h, m, hm, by omega⟩
  have e : (t.emit ⟨false, n⟩).chain = { t.chain with line := .low (m + n) } := by
    rw [State.emit_chain, if_neg (by simp; omega), t.shows_driven _ h.dir, h.cfg]
    exact Chain.feedLow_of_low c t.chain n m hm (by omega)
  exact ⟨⟨by simpa using h.dir, by simpa using h.cfg, by rw [e]; exact h.status, by rw [e]; exact h.rx,
    by rw [e]; exact h.part, by rw [e]; exact h.disp⟩, m + n, by rw [e], by omega⟩

/-- Taking a bit by its high time (R59). -/
theorem Chain.takeBit_tracking (ch : Chain) (h : Nat) (b : Bool) (hs : ch.status = .tracking)
    (hh : h = if b then c.n1 + c.n2 else c.n1) :
    ch.takeBit c h = { ch with rx := (pushBit (ch.rx, ch.part) b).1, part := (pushBit (ch.rx, ch.part) b).2 } := by
  have hb := c.bounds
  have hd : decide (h = c.n1 + c.n2) = b := by cases b <;> simp at hh <;> simp [hh]; omega
  have hor : h = c.n1 ∨ h = c.n1 + c.n2 := by cases b <;> simp at hh <;> simp [hh]
  unfold Chain.takeBit pushBit
  rw [hs]; dsimp only; rw [if_pos hor, hd]
  split <;> simp

/-- A bit cell over a quiet line adds its bit (R59, R80). -/
theorem Tracked.bit (h : Tracked c t p d) (hq : LineQuiet c t.chain.line) (b : Bool) (hL : c.n2 + c.n3 ≤ c.nRstLo) :
    Tracked c (t.emitRuns (bitRuns c b)) (pushBit p b) d ∧ LowFor (c.n2 + c.n3) (t.emitRuns (bitRuns c b)) := by
  have hb := c.bounds
  have rise : ∀ n, n ≠ 0 → (t.emit ⟨true, n⟩).chain = { t.chain with line := .high n } := by
    intro n hn
    rw [State.emit_chain, if_neg hn, t.shows_driven _ h.dir, h.cfg]
    simp only [Level.ofBit, if_true, Chain.feed, Chain.feedHigh]
    split
    · rfl
    · next hh => rw [hh] at hq; exact hq.elim
    · next l hh =>
      rw [hh] at hq
      simp only [LineQuiet] at hq
      simp [Chain.lowEnds, h.status, hq.symm]
  have fall : ∀ (u : State) (hi n : Nat) (b : Bool), u.dir = true → u.cfg = c →
      u.chain = { t.chain with line := .high hi } → n ≠ 0 → n < c.nRstHi → (hi = if b then c.n1 + c.n2 else c.n1) →
      Tracked c (u.emit ⟨false, n⟩) (pushBit p b) d ∧ LowFor n (u.emit ⟨false, n⟩) := by
    intro u hi n b h1 h2 h3 h4 h5 h6
    have e : (u.emit ⟨false, n⟩).chain = { t.chain with line := .low n, rx := (pushBit p b).1, part := (pushBit p b).2 } := by
      rw [State.emit_chain, if_neg h4, u.shows_driven _ h1, h2, h3]
      simp only [Level.ofBit, Chain.feed]
      rw [if_neg (by decide)]
      dsimp only
      rw [Chain.feedLow_of_high c _ n hi rfl h5, Chain.takeBit_withLine, Chain.takeBit_tracking _ hi b h.status h6, h.rx, h.part]
    exact ⟨⟨by simpa, by simpa, by rw [e]; exact h.status, by rw [e], by rw [e], by rw [e]; exact h.disp⟩, n, by rw [e],
      le_rfl⟩
  simp only [bitRuns, State.emitRuns_cons, State.emitRuns_nil]
  cases b with
  | false =>
    obtain ⟨f, fl⟩ := fall (t.emit ⟨true, c.n1⟩) c.n1 c.n2 false (by simpa using h.dir) (by simpa using h.cfg)
      (rise _ (by omega)) (by omega) (by omega) rfl
    exact f.gap fl c.n3 (by omega)
  | true =>
    rw [t.emit_split true c.n1 c.n2 (by omega) (by omega)]
    obtain ⟨f, m, hm, hle⟩ := fall (t.emit ⟨true, c.n1 + c.n2⟩) (c.n1 + c.n2) c.n3 true (by simpa using h.dir)
      (by simpa using h.cfg) (rise _ (by omega)) (by omega) (by omega) rfl
    exact ⟨f, m, hm, by omega⟩

/-- Bits in a row. -/
theorem Tracked.bits (bs : List Bool) (h : Tracked c t p d) (hq : LineQuiet c t.chain.line) (hL : c.n2 + c.n3 ≤ c.nRstLo)
    (hne : bs ≠ []) :
    Tracked c (t.emitRuns (bs.flatMap (bitRuns c))) (bs.foldl pushBit p) d ∧
      LowFor (c.n2 + c.n3) (t.emitRuns (bs.flatMap (bitRuns c))) := by
  induction bs generalizing t p with
  | nil => exact (hne rfl).elim
  | cons b bs ih =>
    rw [List.flatMap_cons, State.emitRuns_append, List.foldl_cons]
    obtain ⟨f, fl⟩ := h.bit hq b hL
    cases bs with
    | nil => exact ⟨f, fl⟩
    | cons b' bs => exact ih f (fl.quiet hL) (by simp)

/-- A byte over a quiet line adds its bits, bit 7 first (R82). -/
theorem Tracked.byte (v : Byte) (h : Tracked c t p d) (hq : LineQuiet c t.chain.line)
    (hL : c.n2 + c.n3 + c.gByte ≤ c.nRstLo) :
    Tracked c (t.emitRuns (byteRuns c v)) ((byteBits v).foldl pushBit p) d ∧
      LowFor (c.n2 + c.n3 + c.gByte) (t.emitRuns (byteRuns c v)) := by
  have hb := c.bounds
  rw [byteRuns, State.emitRuns_append]
  obtain ⟨f, fl⟩ := h.bits (byteBits v) hq (by omega) (by simp [byteBits])
  exact f.gap fl c.gByte (by omega)

/-- The 32 bits of four bytes, as received, are the pixel word (R59, R83). -/
theorem wordOfBits_bytes (g r b w : Byte) :
    wordOfBits (byteBits g ++ byteBits r ++ byteBits b ++ byteBits w) = g ++ r ++ b ++ w := by
  have key : ∀ (v : Byte) (n : Nat), (byteBits v).foldl (fun acc b => 2 * acc + b.toNat) n = 256 * n + v.toNat := by
    intro v n
    have : ∀ v : Byte, (byteBits v).foldl (fun acc b => 2 * acc + b.toNat) 0 = v.toNat := by decide
    have := this v
    simp only [byteBits, List.foldl_cons, List.foldl_nil] at this ⊢
    omega
  rw [wordOfBits, List.foldl_append, List.foldl_append, List.foldl_append, key, key, key, key]
  apply BitVec.eq_of_toNat_eq
  have := g.isLt; have := r.isLt; have := b.isLt; have := w.isLt
  rw [BitVec.toNat_append, BitVec.toNat_append, BitVec.toNat_append, ← Nat.shiftLeft_add_eq_or_of_lt (BitVec.isLt _),
    ← Nat.shiftLeft_add_eq_or_of_lt (BitVec.isLt _), ← Nat.shiftLeft_add_eq_or_of_lt (BitVec.isLt _)]
  simp [Nat.shiftLeft_eq]; omega

/-- Four bytes from a word boundary complete one word. -/
theorem pushBit_word (g r b w : Byte) (rx : List PixelWord) :
    (byteBits w).foldl pushBit ((byteBits b).foldl pushBit ((byteBits r).foldl pushBit ((byteBits g).foldl pushBit
      (rx, [])))) = (rx ++ [(g ++ r ++ b ++ w : BitVec 32)], []) := by
  rw [← wordOfBits_bytes]; simp [byteBits, pushBit]

end Sys2Proof.Machine
end

