-- ==== Sys2Proof/Laws/Colour.lean ====
section
/-! SUPPORT. `map` between natural numbers, and bytes made from integers. -/

namespace Sys2Proof.Machine

/-- `map` upward from 0 (R140). -/
theorem remap_up (x n m : Nat) : remap x 0 n 0 m = ((x * m / n : Nat) : Int) := by
  simp [remap]; rfl

/-- `map` onto a rising range (R140). -/
theorem remap_rising (e a n lo hi : Nat) (h : lo ≤ hi) (he : a ≤ e) (hn : a ≤ n) :
    remap e a n lo hi = ((lo + (e - a) * (hi - lo) / (n - a) : Nat) : Int) := by
  simp only [remap]
  rw [show (e : Int) - a = ((e - a : Nat) : Int) by omega, show (hi : Int) - lo = ((hi - lo : Nat) : Int) by omega,
    show (n : Int) - a = ((n - a : Nat) : Int) by omega]
  push_cast; rfl

/-- `map` onto a falling range (R140): the quotient is truncated, then subtracted. -/
theorem remap_falling (e a n lo hi : Nat) (h : lo ≤ hi) (he : a ≤ e) (hn : a ≤ n) :
    remap e a n hi lo = (hi : Int) - (((e - a) * (hi - lo) / (n - a) : Nat) : Int) := by
  simp only [remap]
  rw [show (e : Int) - a = ((e - a : Nat) : Int) by omega, show (lo : Int) - hi = -((hi - lo : Nat) : Int) by omega,
    show (n : Int) - a = ((n - a : Nat) : Int) by omega]
  simp [Int.neg_tdiv]; rfl

/-- A number below 256 as a byte (R148). -/
theorem toByte_toNat (n : Nat) (h : n < 256) : (toByte (n : Int)).toNat = n := by
  simp [toByte]; omega

/-- A part of a whole is no more than the whole. -/
theorem mul_div_le_of_le (x m n : Nat) (h : x ≤ n) : x * m / n ≤ m := by
  rcases Nat.eq_zero_or_pos n with rfl | hn
  · simp
  rw [Nat.div_le_iff_le_mul_add_pred hn]
  have : x * m ≤ n * m := Nat.mul_le_mul_right _ h
  omega

/-- `Color` inside its domain (R161). -/
theorem color_eq_strategy (c : Cfg) (t i : Nat) (ht : t < 2 ^ c.tickBits) (hi : i < c.pixels) :
    color c t i = strategy c t i := by rw [color, if_pos ⟨ht, hi⟩]

end Sys2Proof.Machine
end

