-- ==== Sys2Proof/Laws/Decode.lean ====
section
/-! SUPPORT. Packing operand bytes into a word and taking them out again, and what kind of operation a code decodes to. -/

namespace Sys2Proof

/-- The four operand bytes of a packed word, by position (R83, R86). -/
theorem byteAt_packBytes (a b c d : Byte) : byteAt (packBytes a b c d) 24 = a ∧ byteAt (packBytes a b c d) 16 = b ∧
    byteAt (packBytes a b c d) 8 = c ∧ byteAt (packBytes a b c d) 0 = d := by
  have ha := a.isLt; have hb := b.isLt; have hc := c.isLt; have hd := d.isLt
  simp only [byteAt, packBytes, Nat.shiftRight_eq_div_pow]
  refine ⟨?_, ?_, ?_, ?_⟩ <;> apply BitVec.eq_of_toNat_eq <;> simp only [BitVec.toNat_ofNat] <;> omega

theorem packBytes_lt (a b c d : Byte) : packBytes a b c d < 2 ^ 32 := by
  have ha := a.isLt; have hb := b.isLt; have hc := c.isLt; have hd := d.isLt
  simp only [packBytes]; omega

/-- The operand bytes of a command word, by position (R86). -/
theorem byteAt_packCommand (op : Nat) (a b c d : Byte) :
    byteAt (packCommand op a b c d) 24 = a ∧ byteAt (packCommand op a b c d) 16 = b ∧
    byteAt (packCommand op a b c d) 8 = c ∧ byteAt (packCommand op a b c d) 0 = d := by
  have ha := a.isLt; have hb := b.isLt; have hc := c.isLt; have hd := d.isLt
  simp only [byteAt, packCommand, packBytes, Nat.shiftRight_eq_div_pow]
  refine ⟨?_, ?_, ?_, ?_⟩ <;> apply BitVec.eq_of_toNat_eq <;> simp only [BitVec.toNat_ofNat] <;> omega

/-- The operation code of a command word (R86). -/
theorem packCommand_shift (op : Nat) (a b c d : Byte) : packCommand op a b c d >>> 32 = op := by
  have := packBytes_lt a b c d
  simp only [packCommand, Nat.shiftRight_eq_div_pow]; omega

theorem packCommand_lt (op : Nat) (a b c d : Byte) (h : op < 8) : packCommand op a b c d < 2 ^ 35 := by
  have := packBytes_lt a b c d
  simp only [packCommand]; omega

/-- Bytes, bits and counts as operands and back. -/
@[simp] theorem byteArg_toNat (b : Byte) : byteArg (b.toNat : Int) = some b := by
  have := b.isLt
  simp [byteArg]; omega

@[simp] theorem bitArg_bitOperand (b : Bool) : bitArg (bitOperand b) = some b := by cases b <;> rfl

@[simp] theorem natArg_natCast (n : Nat) : natArg (n : Int) = some n := rfl

/-- A code of the configuration formats, and no other, decodes to a configuration operation (R88, R94). -/
theorem isConfigCode_of_decode (c : Code) (i : Instr) (h : decode c = .ok i) :
    Machine.isConfigCode i = c.isConfig := by
  cases c with
  | word f n w =>
    simp only [decode, decodeWord] at h
    split at h
    · cases h
    · cases f <;> simp only [decodeSymbol, decodePixelWord, decodeCommand, decodeAnim, decodeConv] at h <;>
        (repeat' split at h) <;> first | cases h; rfl | cases h
  | named p a =>
    simp only [decode, decodeNamed] at h
    split at h <;> (try (cases h; rfl))
    all_goals first | (unfold Decoded.ofOption at h; split at h <;> (try cases h)) | cases h
    all_goals (rename_i e; simp [Option.bind_eq_some_iff] at e; aesop)

/-- What the table word of an operation decodes to. -/
theorem decodeTableWord_eq_some (nbits w : Nat) (i : Instr) :
    decodeTableWord nbits w = some i ↔ decode (codeOfTableWord nbits w) = .ok i := by
  unfold decodeTableWord
  split <;> simp_all

end Sys2Proof
end

