-- ==== Sys2Proof/Laws/FrameDriver.lean ====
section
/-! SUPPORT. The clock step: run indices and the next run, positions, one step of the CORE on its own, and steps in a row. -/

namespace Sys2Proof.Machine

variable (s t : State) (c : Cfg)

/-! ### Run indices -/

/-- The first run of a frame is high (R195). -/
@[simp] theorem runLevel_zero (tick : Nat) : runLevel c tick 0 = true := by
  have := c.bounds
  simp [runLevel]; omega

/-- The first run of a frame has length `N1` (R195). -/
@[simp] theorem runLen_zero : runLen c 0 = c.n1 := by
  have := c.bounds
  simp [runLen]; omega

/-- What the search for the next run finds: the least index that takes time. -/
theorem firstRun_eq_some (fuel k j : Nat) (h : firstRun c fuel k = some j) :
    k ≤ j ∧ j < k + fuel ∧ 1 ≤ runLen c j ∧ ∀ i, k ≤ i → i < j → runLen c i = 0 := by
  induction fuel generalizing k with
  | zero => cases h
  | succ fuel ih =>
    rw [firstRun] at h
    split at h
    · next hk => cases h; exact ⟨le_rfl, by omega, hk, fun i h1 h2 => by omega⟩
    · next hk =>
      obtain ⟨h1, h2, h3, h4⟩ := ih (k + 1) h
      refine ⟨by omega, by omega, h3, fun i hi1 hi2 => ?_⟩
      rcases Nat.eq_or_lt_of_le hi1 with rfl | hlt
      · omega
      · exact h4 i hlt hi2

theorem firstRun_eq_none (fuel k : Nat) (h : firstRun c fuel k = none) :
    ∀ i, k ≤ i → i < k + fuel → runLen c i = 0 := by
  induction fuel generalizing k with
  | zero => intro i h1 h2; omega
  | succ fuel ih =>
    rw [firstRun] at h
    split at h
    · cases h
    · next hk =>
      intro i h1 h2
      rcases Nat.eq_or_lt_of_le h1 with rfl | hlt
      · omega
      · exact ih (k + 1) h i hlt (by omega)

/-- The next run after `k` is the least later index that takes time (R196). -/
theorem nextRun_eq_some (k j : Nat) (h : nextRun c k = some j) :
    k < j ∧ j < frameRunCount c ∧ 1 ≤ runLen c j ∧ ∀ i, k < i → i < j → runLen c i = 0 := by
  obtain ⟨h1, h2, h3, h4⟩ := firstRun_eq_some c _ _ _ h
  exact ⟨h1, by omega, h3, fun i hi => h4 i hi⟩

/-- No later run takes time (R196). -/
theorem nextRun_eq_none (k : Nat) (h : nextRun c k = none) : ∀ i, k < i → i < frameRunCount c → runLen c i = 0 :=
  fun i h1 h2 => firstRun_eq_none c _ _ h i h1 (by omega)

/-! ### Positions -/

theorem isPosition_run (k n : Nat) : isPosition c (.run k n) = true ↔ k < frameRunCount c ∧ 1 ≤ n ∧ n ≤ runLen c k := by
  simp [isPosition, and_assoc]

theorem isPosition_start : isPosition c (.run 0 c.n1) = true := by
  have := c.bounds
  rw [isPosition_run]
  simp [frameRunCount]; omega

/-! ### One step of the CORE on its own -/

/-- With reset released and nothing placed, the step is the clock step (R196). -/
theorem step_alone (h : RunsAlone s) : step s = clockStep s := by
  simp [step, State.codeToRun, h.1, h.2]

/-- The clock step from a position in the frame. -/
theorem clockStep_run (k n : Nat) (h : s.seq = .run k n) (hp : isPosition s.cfg (.run k n) = true) :
    clockStep s = .next (s.clockRun k n) := by
  simp [clockStep, h, hp]

@[simp] theorem State.leaveRun_dir (k : Nat) : (s.leaveRun k).dir = s.dir := by
  unfold State.leaveRun; dsimp only; split <;> simp
@[simp] theorem State.leaveRun_ie (k : Nat) : (s.leaveRun k).ie = s.ie := by
  unfold State.leaveRun; dsimp only; split <;> simp
@[simp] theorem State.leaveRun_rstN (k : Nat) : (s.leaveRun k).rstN = s.rstN := by
  unfold State.leaveRun; dsimp only; split <;> simp
@[simp] theorem State.leaveRun_wire (k : Nat) : (s.leaveRun k).wire = s.wire := by
  unfold State.leaveRun; dsimp only; split <;> simp
@[simp] theorem State.leaveRun_chain (k : Nat) : (s.leaveRun k).chain = s.chain := by
  unfold State.leaveRun; dsimp only; split <;> simp
@[simp] theorem State.leaveRun_cfg (k : Nat) : (s.leaveRun k).cfg = s.cfg := by
  unfold State.leaveRun; dsimp only; split <;> simp
@[simp] theorem State.leaveRun_code (k : Nat) : (s.leaveRun k).code = s.code := by
  unfold State.leaveRun; dsimp only; split <;> simp
@[simp] theorem State.leaveRun_ret (k : Nat) : (s.leaveRun k).ret = s.ret := by
  unfold State.leaveRun; dsimp only; split <;> simp

@[simp] theorem State.clockRun_dir (k n : Nat) : (s.clockRun k n).dir = s.dir := by
  unfold State.clockRun; dsimp only; split <;> simp
@[simp] theorem State.clockRun_ie (k n : Nat) : (s.clockRun k n).ie = s.ie := by
  unfold State.clockRun; dsimp only; split <;> simp
@[simp] theorem State.clockRun_rstN (k n : Nat) : (s.clockRun k n).rstN = s.rstN := by
  unfold State.clockRun; dsimp only; split <;> simp
@[simp] theorem State.clockRun_cfg (k n : Nat) : (s.clockRun k n).cfg = s.cfg := by
  unfold State.clockRun; dsimp only; split <;> simp
@[simp] theorem State.clockRun_code (k n : Nat) : (s.clockRun k n).code = s.code := by
  unfold State.clockRun; dsimp only; split <;> simp
@[simp] theorem State.clockRun_ret (k n : Nat) : (s.clockRun k n).ret = s.ret := by
  unfold State.clockRun; dsimp only; split <;> simp

/-- One clock cycle puts one cycle of the run's level on the wire. -/
@[simp] theorem State.clockRun_wire (k n : Nat) :
    (s.clockRun k n).wire = s.wire.push (s.shows (runLevel s.cfg s.tick k)) 1 := by
  unfold State.clockRun; dsimp only; split <;> simp

/-- The chain sees that cycle. -/
@[simp] theorem State.clockRun_chain (k n : Nat) :
    (s.clockRun k n).chain = s.chain.feed s.cfg (s.shows (runLevel s.cfg s.tick k)) 1 := by
  unfold State.clockRun; dsimp only; split <;> simp [State.emit_chain]

/-! ### Steps in a row -/

@[simp] theorem runSteps_zero : runSteps 0 s = .next s := rfl

theorem runSteps_succ_next (n : Nat) (u : State) (h : step s = .next u) : runSteps (n + 1) s = runSteps n u := by
  have h' : Sys2Proof.core.step s = .next u := h
  exact (Host.Core.run.eq_2 Sys2Proof.core s n).trans (by rw [h'])

theorem runSteps_succ_refused (n : Nat) (r : Refusal) (h : step s = .refused r) : runSteps (n + 1) s = .refused r := by
  have h' : Sys2Proof.core.step s = .refused r := h
  exact (Host.Core.run.eq_2 Sys2Proof.core s n).trans (by rw [h']; rfl)

theorem runSteps_add (m n : Nat) (u : State) (h : runSteps m s = .next u) : runSteps (m + n) s = runSteps n u := by
  induction m generalizing s with
  | zero => cases h; rw [Nat.zero_add]
  | succ m ih =>
    cases hs : step s with
    | next v =>
      rw [runSteps_succ_next s m v hs] at h
      rw [show m + 1 + n = (m + n) + 1 by omega, runSteps_succ_next s _ v hs]
      exact ih v h
    | fault r => exact r.casesOn
    | refused r => rw [runSteps_succ_refused s m r hs] at h; cases h

/-- The steps of one run: from `RUN(k, n)` the CORE shows the level of run `k` for `n` cycles and then leaves it. -/
theorem runSteps_run (k n : Nat) (ha : RunsAlone s) (hseq : s.seq = .run k n)
    (hpos : isPosition s.cfg (.run k n) = true) :
    runSteps n s = .next ((s.emit ⟨runLevel s.cfg s.tick k, n⟩).leaveRun k) := by
  have hn := ((isPosition_run s.cfg k n).1 hpos).2.1
  induction n generalizing s with
  | zero => omega
  | succ n ih =>
    have hstep : step s = .next (s.clockRun k (n + 1)) := by
      rw [step_alone s ha]; exact clockStep_run s k _ hseq hpos
    rw [runSteps_succ_next s n _ hstep]
    rcases Nat.eq_zero_or_pos n with rfl | hp
    · simp [State.clockRun]
    · have hb := (isPosition_run s.cfg k (n + 1)).1 hpos
      have hcr : s.clockRun k (n + 1) = (s.emit ⟨runLevel s.cfg s.tick k, 1⟩).enter k n := by
        simp [State.clockRun]; omega
      rw [hcr, ih _ (by simpa [RunsAlone] using ha) (by simp) (by
        simp only [State.enter_cfg, State.emit_cfg]; exact (isPosition_run _ _ _).2 ⟨hb.1, hp, by omega⟩) hp]
      congr 1
      have : ((s.emit ⟨runLevel s.cfg s.tick k, 1⟩).enter k n).emit ⟨runLevel s.cfg s.tick k, n⟩ =
          { s.emit ⟨runLevel s.cfg s.tick k, n + 1⟩ with seq := .run k n } := by
        have h2 := s.emit_split (runLevel s.cfg s.tick k) 1 n le_rfl hp
        rw [Nat.add_comm 1 n] at h2
        rw [← h2]
        have hn0 : n ≠ 0 := by omega
        simp [State.emit, State.enter, State.pass, State.shows, hn0]
      simp only [State.enter_cfg, State.emit_cfg, State.enter_tick, State.emit_tick]
      rw [this]
      simp only [State.leaveRun, State.setSent_cfg]
      split <;> simp_all [State.enter, State.advanceTick, State.setSent]

end Sys2Proof.Machine
end

