-- ==== Sys2Proof/Laws/PerInstr.lean ====
section
/-! SUPPORT. One law per instruction: the code an operation is written as fits its format. -/

namespace Sys2Proof.Laws.EncodingFits

/-- The number of operands R92 gives a PRIM operation. -/
def arity : PrimName → Nat
  | .setPinHigh | .setPinLow | .setPinDirectionOutput | .init | .tickInc => 0
  | .sendBit | .env | .delay => 1
  | .scale | .hueOf | .ramp | .renderFrame => 2
  | .hsv3 | .hsv6 => 3
  | .map => 5

/-- A word has a width of its format and no bit above it; a named operation has the operands its name takes; and the code
is a code of the configuration exactly when the operation is one. -/
def Statement (i : Instr) : Prop :=
  (match encode i with
    | .word f n w => n ∈ f.widths ∧ w < 2 ^ n
    | .named name args => args.length = arity name) ∧
  (encode i).isConfig = Machine.isConfigCode i

theorem b0 : Statement .b0 := ⟨⟨by decide, by decide⟩, rfl⟩
theorem b1 : Statement .b1 := ⟨⟨by decide, by decide⟩, rfl⟩
theorem latchSym : Statement .latchSym := ⟨⟨by decide, Nat.two_pow_pos _⟩, rfl⟩
theorem pixelWord (g r b w : Byte) : Statement (.pixelWord g r b w) := ⟨⟨by decide, packBytes_lt g r b w⟩, rfl⟩
theorem sendByte (v : Byte) : Statement (.sendByte v) := ⟨⟨by decide, packCommand_lt 0 v 0 0 0 (by decide)⟩, rfl⟩
theorem writeColor (g r b w : Byte) : Statement (.writeColor g r b w) := ⟨⟨by decide, packCommand_lt 1 g r b w (by decide)⟩, rfl⟩
theorem writeColorAll (g r b w : Byte) : Statement (.writeColorAll g r b w) := ⟨⟨by decide, packCommand_lt 2 g r b w (by decide)⟩, rfl⟩
theorem clear : Statement .clear := ⟨⟨by decide, packCommand_lt 3 0 0 0 0 (by decide)⟩, rfl⟩
theorem latch : Statement .latch := ⟨⟨by decide, packCommand_lt 4 0 0 0 0 (by decide)⟩, rfl⟩
theorem animChase : Statement .animChase := ⟨⟨by decide, by decide⟩, rfl⟩
theorem animHueBreath : Statement .animHueBreath := ⟨⟨by decide, by decide⟩, rfl⟩
theorem animHueRotate : Statement .animHueRotate := ⟨⟨by decide, by decide⟩, rfl⟩
theorem animSplit : Statement .animSplit := ⟨⟨by decide, by decide⟩, rfl⟩
theorem animHires : Statement .animHires := ⟨⟨by decide, by decide⟩, rfl⟩
theorem convSec3 : Statement .convSec3 := ⟨⟨by decide, by decide⟩, rfl⟩
theorem convSec6 : Statement .convSec6 := ⟨⟨by decide, by decide⟩, rfl⟩
theorem setPinHigh : Statement .setPinHigh := ⟨rfl, rfl⟩
theorem setPinLow : Statement .setPinLow := ⟨rfl, rfl⟩
theorem setPinDirectionOutput : Statement .setPinDirectionOutput := ⟨rfl, rfl⟩
theorem sendBit (b : Bool) : Statement (.sendBit b) := ⟨rfl, rfl⟩
theorem map (x a b c d : Int) : Statement (.map x a b c d) := ⟨rfl, rfl⟩
theorem scale (c v : Byte) : Statement (.scale c v) := ⟨rfl, rfl⟩
theorem hsv3 (h s v : Byte) : Statement (.hsv3 h s v) := ⟨rfl, rfl⟩
theorem hsv6 (h s v : Byte) : Statement (.hsv6 h s v) := ⟨rfl, rfl⟩
theorem hueOf (t d : Nat) : Statement (.hueOf t d) := ⟨rfl, rfl⟩
theorem env (e : Nat) : Statement (.env e) := ⟨rfl, rfl⟩
theorem ramp (i p : Nat) : Statement (.ramp i p) := ⟨rfl, rfl⟩
theorem renderFrame (t p : Nat) : Statement (.renderFrame t p) := ⟨rfl, rfl⟩
theorem init : Statement .init := ⟨rfl, rfl⟩
theorem delay (n : Nat) : Statement (.delay n) := ⟨rfl, rfl⟩
theorem tickInc : Statement .tickInc := ⟨rfl, rfl⟩

end Sys2Proof.Laws.EncodingFits
end

