-- ==== Sys2Proof/Laws/Runs.lean ====
section
/-! SUPPORT. The lists of runs by index: lengths and entries of a byte, a pixel word and the pixel part of a frame. -/

namespace Sys2Proof.Machine

/-! ### Lists in blocks of one length -/

theorem length_flatMap_range {α : Type} (n L : Nat) (f : Nat → List α) (hL : ∀ i, (f i).length = L) :
    ((List.range n).flatMap f).length = L * n := by
  induction n with
  | zero => simp
  | succ n ih => simp [List.range_succ, ih, hL]; ring

/-- Entry `j` of block `i`. -/
theorem getElem?_flatMap_range {α : Type} (n L i j : Nat) (f : Nat → List α) (hL : ∀ i, (f i).length = L) (hi : i < n)
    (hj : j < L) : ((List.range n).flatMap f)[L * i + j]? = (f i)[j]? := by
  induction n with
  | zero => omega
  | succ n ih =>
    simp only [List.range_succ, List.flatMap_append, List.flatMap_cons, List.flatMap_nil, List.append_nil]
    rcases Nat.lt_or_ge i n with h | h
    · rw [List.getElem?_append_left, ih h]
      rw [length_flatMap_range n L f hL]
      have : L * (i + 1) ≤ L * n := Nat.mul_le_mul_left _ h
      rw [Nat.mul_add] at this; omega
    · obtain rfl : i = n := by omega
      rw [List.getElem?_append_right (by rw [length_flatMap_range _ L f hL]; omega), length_flatMap_range _ L f hL]
      congr 1; omega

variable (c : Cfg)

/-! ### Runs (R23, R195) -/

@[simp] theorem length_byteRuns (v : Byte) : (byteRuns c v).length = 25 := by simp [byteRuns, byteBits, bitRuns]

@[simp] theorem length_wordRuns (x : Sample) : (wordRuns c x).length = 101 := by simp [wordRuns]

@[simp] theorem length_pixelRuns (t : Nat) : (pixelRuns c t).length = 101 * c.pixels :=
  length_flatMap_range _ _ _ fun _ => length_wordRuns c _

/-- Run `m` of a byte: three regions a bit, bit 7 first, then the byte gap (R23). -/
theorem getElem?_byteRuns (v : Byte) (m : Nat) (hm : m < 25) :
    (byteRuns c v)[m]? = some (if m = 24 then ⟨false, c.gByte⟩ else match m % 3 with
      | 0 => ⟨true, c.n1⟩
      | 1 => ⟨v.getLsbD (7 - m / 3), c.n2⟩
      | _ => ⟨false, c.n3⟩) := by
  interval_cases m <;> simp [byteRuns, byteBits, bitRuns]

/-- Run `m` of byte `j` of a pixel word (R23). -/
theorem getElem?_wordRuns (x : Sample) (j m : Nat) (hj : j < 4) (hm : m < 25) :
    (wordRuns c x)[25 * j + m]? = (byteRuns c (sampleByte x j))[m]? := by
  have h := length_byteRuns c
  have : j = 0 ∨ j = 1 ∨ j = 2 ∨ j = 3 := by omega
  simp only [wordRuns]
  rcases this with rfl | rfl | rfl | rfl <;> simp only [sampleByte]
  · rw [List.getElem?_append_left (by simp; omega), List.getElem?_append_left (by simp; omega),
      List.getElem?_append_left (by simp; omega), List.getElem?_append_left (by simp; omega)]; simp
  · rw [List.getElem?_append_left (by simp; omega), List.getElem?_append_left (by simp; omega),
      List.getElem?_append_left (by simp; omega), List.getElem?_append_right (by simp)]; simp
  · rw [List.getElem?_append_left (by simp; omega), List.getElem?_append_left (by simp; omega),
      List.getElem?_append_right (by simp)]; simp
  · rw [List.getElem?_append_left (by simp; omega), List.getElem?_append_right (by simp)]; simp

/-- The pixel gap ends a pixel word (R23). -/
theorem getElem?_wordRuns_last (x : Sample) : (wordRuns c x)[100]? = some ⟨false, c.gPixel⟩ := by simp [wordRuns]

/-- Run `q` of pixel `i` of a frame (R23). -/
theorem getElem?_frameRuns (t i q : Nat) (hi : i < c.pixels) (hq : q < 101) :
    (frameRuns c t)[101 * i + q]? = (wordRuns c (color c t i))[q]? := by
  rw [frameRuns, List.getElem?_append_left (by rw [length_pixelRuns]; omega), pixelRuns,
    getElem?_flatMap_range _ _ _ _ _ (fun _ => length_wordRuns c _) hi hq]

/-! ### The next run (R196) -/

theorem nextRun_eq (k k' : Nat) (h1 : k < k') (h2 : k' < frameRunCount c) (h3 : 1 ≤ runLen c k')
    (h4 : ∀ j, k < j → j < k' → runLen c j = 0) : nextRun c k = some k' := by
  cases h : nextRun c k with
  | none => have := nextRun_eq_none _ _ h k' h1 h2; omega
  | some j =>
    obtain ⟨a, b, d, e⟩ := nextRun_eq_some _ _ _ h
    rcases lt_trichotomy j k' with hlt | rfl | hlt
    · have := h4 j a hlt; omega
    · rfl
    · have := e k' h1 hlt; omega

theorem nextRun_none (k : Nat) (h4 : ∀ j, k < j → j < frameRunCount c → runLen c j = 0) : nextRun c k = none := by
  cases h : nextRun c k with
  | none => rfl
  | some j => obtain ⟨a, b, d, -⟩ := nextRun_eq_some _ _ _ h; have := h4 j a b; omega

end Sys2Proof.Machine
end

