-- ==== Sys2Proof/Tests/Slice0.lean ====
section
/-! SUPPORT. The model's own tests: ill-formed operations, every constructor's decoding from a word written out of the
spec's encoding of it, at most two small tests an instruction with values of 95_test_vectors.md (or of the rule named), and
a witness for the hypotheses of every statement of Certificates/Slice0/Obligations.lean. -/

set_option maxRecDepth 8000

namespace Sys2Proof.Tests

open Sys2Proof Sys2Proof.Machine

/-! ### Helpers -/

/-- TCFG of 95_test_vectors.md section 0. -/
def tcfg (a : AnimSel) (v : ConvSel) : Cfg :=
  { pixels := 13, pinId := 0, animSel := a, convSel := v, tickBits := 32, chaseStep := 100, dRot := 10000,
    dBHue := 10000, brRise := 1000, brHold := 500, brFall := 1000, brPause := 500, brValue := 128, brWMin := 0,
    brWMax := 255, dSplit := 10000, dHires := 10000, fClk := 9600000, n1 := 3, n2 := 3, n3 := 6, gByte := 0, gPixel := 0,
    nLatch := 2688, nDelay := 9600, lChain := 13, nRstLo := 100, nRstHi := 2688, t0hNom := 300, t1lNom := 600, tol := 150,
    fBit := 800000, pct := 500
    ok := by simp [RawCfg.Valid] }

/-- The small configuration of P6 (95_test_vectors.md section 3). -/
def small : Cfg :=
  { toRawCfg := { (tcfg .chase .sec3).toRawCfg with
      pixels := 1, chaseStep := 1, tickBits := 2, nLatch := 30, nDelay := 10, lChain := 1, nRstLo := 9, nRstHi := 30 }
    ok := by decide }

/-- REF counts with one pixel and a chain of three, for P1 to P3. -/
def onePixel : Cfg :=
  { toRawCfg := { (tcfg .chase .sec3).toRawCfg with pixels := 1, lChain := 3 }
    ok := by decide }

/-- The state after `init`, which is the start state of the programs of 95_test_vectors.md section 3 but for `PIN`. -/
def ready (c : Cfg) : State := (State.resetWith c).initialise

/-- The next state, if there is one. -/
def next? (o : Host.Outcome State Fault Refusal) : Option State :=
  match o with
  | .next t => some t
  | .fault _ => none
  | .refused _ => none

/-- The refusal, if there is one. -/
def refusal? (o : Host.Outcome State Fault Refusal) : Option Refusal :=
  match o with
  | .next _ => none
  | .fault _ => none
  | .refused r => some r

/-- The wire after an operation, newest run first. -/
def wireAfter (o : Host.Outcome State Fault Refusal) : Option Trace := (next? o).map State.wire

/-- What an operation returned. -/
def retAfter (o : Host.Outcome State Fault Refusal) : Option Ret := (next? o).map State.ret

/-- The words of a frame. -/
def frameWords (c : Cfg) (t : Nat) : List PixelWord := (List.range c.pixels).map (fun i => packSample (color c t i))

/-! ### WellFormed refuses an ill-formed term for each check -/

theorem test_illFormed_map : ¬ WellFormed (.map 7 4 4 0 10) := by decide
theorem test_illFormed_hueOf : ¬ WellFormed (.hueOf 5 0) := by decide
theorem test_illFormed_renderFrame_none : ¬ WellFormed (.renderFrame 0 0) := by decide
theorem test_illFormed_renderFrame_many : ¬ WellFormed (.renderFrame 0 256) := by decide
theorem test_wellFormed_bounds : WellFormed (.renderFrame 0 1) ∧ WellFormed (.renderFrame 0 255) ∧ WellFormed (.hueOf 5 1) := by
  decide

/-! ### Decoding: the words are written out from 30_encoding.md (R80, R83, R87, R88, R92) -/

theorem test_decode_b0 : decode (.word .sym 12 0b111000000000) = .ok .b0 := by decide
theorem test_decode_b1 : decode (.word .sym 12 0b111111000000) = .ok .b1 := by decide
theorem test_decode_latchSym : decode (.word .sym 2688 0) = .ok .latchSym := by decide
theorem test_decode_pixelWord : decode (.word .pix32 32 0b00010010001101000101011001111000) = .ok (.pixelWord 0x12 0x34 0x56 0x78) := by decide
theorem test_decode_sendByte : decode (.word .plcmd 35 0b00010100101000000000000000000000000) = .ok (.sendByte 0xA5) := by decide
theorem test_decode_writeColor : decode (.word .plcmd 35 0b00100010010001101000101011001111000) = .ok (.writeColor 0x12 0x34 0x56 0x78) := by decide
theorem test_decode_writeColorAll : decode (.word .plcmd 35 0b01010000001000000000111111000000000) = .ok (.writeColorAll 0x81 0x00 0x7E 0x00) := by decide
theorem test_decode_clear : decode (.word .plcmd 35 0b01100000000000000000000000000000000) = .ok .clear := by decide
theorem test_decode_clear_ignoresOperands : decode (.word .plcmd 35 0b01111111111111111111111111111111111) = .ok .clear := by decide
theorem test_decode_latch : decode (.word .plcmd 35 0b10000000000000000000000000000000000) = .ok .latch := by decide
theorem test_decode_animChase : decode (.word .anim 3 0b000) = .ok .animChase := by decide
theorem test_decode_animHueBreath : decode (.word .anim 3 0b001) = .ok .animHueBreath := by decide
theorem test_decode_animHueRotate : decode (.word .anim 3 0b010) = .ok .animHueRotate := by decide
theorem test_decode_animSplit : decode (.word .anim 3 0b011) = .ok .animSplit := by decide
theorem test_decode_animHires : decode (.word .anim 3 0b100) = .ok .animHires := by decide
theorem test_decode_convSec3 : decode (.word .conv 1 0b0) = .ok .convSec3 := by decide
theorem test_decode_convSec6 : decode (.word .conv 1 0b1) = .ok .convSec6 := by decide
theorem test_decode_setPinHigh : decode (.named .setPinHigh []) = .ok .setPinHigh := by decide
theorem test_decode_setPinLow : decode (.named .setPinLow []) = .ok .setPinLow := by decide
theorem test_decode_setPinDirectionOutput : decode (.named .setPinDirectionOutput []) = .ok .setPinDirectionOutput := by decide
theorem test_decode_sendBit : decode (.named .sendBit [1]) = .ok (.sendBit true) := by decide
theorem test_decode_map : decode (.named .map [-5, 0, 10, 0, 3]) = .ok (.map (-5) 0 10 0 3) := by decide
theorem test_decode_scale : decode (.named .scale [129, 100]) = .ok (.scale 129 100) := by decide
theorem test_decode_hsv3 : decode (.named .hsv3 [127, 0, 100]) = .ok (.hsv3 127 0 100) := by decide
theorem test_decode_hsv6 : decode (.named .hsv6 [43, 255, 64]) = .ok (.hsv6 43 255 64) := by decide
theorem test_decode_hueOf : decode (.named .hueOf [5000, 10000]) = .ok (.hueOf 5000 10000) := by decide
theorem test_decode_env : decode (.named .env [2000]) = .ok (.env 2000) := by decide
theorem test_decode_ramp : decode (.named .ramp [2, 663]) = .ok (.ramp 2 663) := by decide
theorem test_decode_renderFrame : decode (.named .renderFrame [5000, 13]) = .ok (.renderFrame 5000 13) := by decide
theorem test_decode_init : decode (.named .init []) = .ok .init := by decide
theorem test_decode_delay : decode (.named .delay [9600]) = .ok (.delay 9600) := by decide
theorem test_decode_tickInc : decode (.named .tickInc []) = .ok .tickInc := by decide
theorem test_decode_reservedOp : decode (.word .plcmd 35 0b10100000000000000000000000000000000) = .illegal .reservedOp := by
  decide
theorem test_decode_reservedAnim : decode (.word .anim 3 0b101) = .illegal .reservedAnim := by decide
theorem test_decode_noSymbol : decode (.word .sym 12 0b111100000000) = .illegal .noSuchSymbol := by decide
theorem test_decode_byteTooLarge : decode (.named .scale [256, 0]) = .illegal .operandOutOfRange := by decide
theorem test_tableWord_command : decodeTableWord 40 0x181007E00 = some (.writeColor 0x81 0x00 0x7E 0x00) := by decide
theorem test_tableWord_symbol : decodeTableWord 16 0b111000000000 = some .b0 := by decide

/-! ### Reset and the step -/

/-- 2.12: after reset and after one cycle. -/
theorem test_reset : (State.resetWith small).tick = 0 ∧ (State.resetWith small).seq = .init ∧
    (State.resetWith small).dout = .z ∧
    (next? (step (State.resetWith small))).map (fun t => (t.seq, t.dir, t.ie, t.dout)) =
      some (.run 0 3, true, false, .high) := by decide

/-- 2.12: reset asserted during cycle 5000 of a run (inside the latch of frame 0, TCFG). -/
theorem test_resetMidFrame :
    (next? (step { ready (tcfg .chase .sec3) with seq := .run (101 * 13) 2681, pin := false, rstN := false })).map
      (fun t => (t.seq, t.dout, t.wire, t.chain.status)) = some (.init, .z, [], .lost) := by decide

/-- 2.9, the small configuration: runs 99 and 100 are empty and skipped. -/
theorem test_step_skipsEmptyRuns :
    (next? (step { ready small with seq := .run 98 1 })).map (fun t => (t.seq, t.pin, t.tick)) =
      some (.run 101 30, false, 0) := by decide

/-- 2.9: after the last cycle of the delay the tick counts and the next frame begins. -/
theorem test_step_nextFrame :
    (next? (step { ready small with seq := .run 102 1 })).map (fun t => (t.seq, t.pin, t.tick)) =
      some (.run 0 3, true, 1) := by decide

/-- A table word placed from reset runs at the very next step. -/
theorem test_fetchWord_command :
    wireAfter (step ((State.resetWith small).withFetchWord 40 0x0A5000000)) =
      wireAfter (exec (.sendByte 0xA5) (ready small)) ∧
    ((next? (step ((State.resetWith small).withFetchWord 40 0x0A5000000))).isSome = true) := by decide

theorem test_fetchWord_config :
    ((next? (step ((State.resetWith small).withFetchWord 3 0b011))).map (fun t => (t.cfg.animSel, t.seq))) =
      some (.split, .init) := by decide

theorem test_fetchWord_reserved :
    refusal? (step ((State.resetWith small).withFetchWord 40 0x500000000)) = some (.illegalCode .reservedOp) := by decide

/-! ### Pixel Link (2.3, P1 to P3; the wire newest run first, `Z` of `init` last) -/

theorem test_b0 : wireAfter (exec .b0 (ready onePixel)) = some [(.low, 9), (.high, 3), (.z, 1)] := by decide
theorem test_b1 : wireAfter (exec .b1 (ready onePixel)) = some [(.low, 6), (.high, 6), (.z, 1)] := by decide
theorem test_sendBit_zero : wireAfter (exec (.sendBit false) (ready onePixel)) = some [(.low, 9), (.high, 3), (.z, 1)] := by
  decide
theorem test_sendBit_one : wireAfter (exec (.sendBit true) (ready onePixel)) = some [(.low, 6), (.high, 6), (.z, 1)] := by
  decide
theorem test_latchSym : wireAfter (exec .latchSym (ready onePixel)) = some [(.low, 2688), (.z, 1)] := by decide
theorem test_sendByte_a5 : wireAfter (exec (.sendByte 0xA5) (ready onePixel)) =
    some [(.low, 6), (.high, 6), (.low, 9), (.high, 3), (.low, 6), (.high, 6), (.low, 9), (.high, 3), (.low, 9), (.high, 3),
      (.low, 6), (.high, 6), (.low, 9), (.high, 3), (.low, 6), (.high, 6), (.z, 1)] := by decide

/-- P1: one red pixel, then latch: 3072 cycles, the last low run and the latch merged into 2697 cycles. -/
theorem test_writeColor_red :
    (next? (execAll [.writeColor 0x00 0xFF 0x00 0x00, .latch] (ready onePixel))).map
      (fun t => (t.wire.cycles, t.wire.head?, t.wire.length, t.chain.disp)) =
      some (3073, some (.low, 2697), 65, [(0, 0x00FF0000)]) := by decide

/-- P3: four bytes displayed as one word; three cannot be latched. -/
theorem test_sendByte_fourThenLatch :
    (next? (execAll [.sendByte 0x12, .sendByte 0x34, .sendByte 0x56, .sendByte 0x78, .latch] (ready onePixel))).map
      (fun t => t.chain.disp) = some [(0, 0x12345678)] := by decide
theorem test_latch_insideWord :
    refusal? (execAll [.sendByte 0x12, .sendByte 0x34, .sendByte 0x56, .latch] (ready onePixel)) =
      some .latchInsideWord := by decide

theorem test_latch : (next? (exec .latch (ready onePixel))).map (fun t => (t.wire, t.chain.disp)) =
    some ([(.low, 2688), (.z, 1)], []) := by decide

theorem test_pixelWord : (next? (exec (.pixelWord 0x12 0x34 0x56 0x78) (ready onePixel))).map
    (fun t => (t.wire.cycles, t.chain.rx)) = some (385, [0x12345678]) := by decide

/-- 2.3: `writeColorAll` takes 384 × `P` cycles. -/
theorem test_writeColorAll :
    (next? (exec (.writeColorAll 0 0 255 0) (ready (small.withPixels 2 (by decide))))).map
      (fun t => (t.wire.cycles, t.chain.rx, t.sent)) = some (769, [0x0000FF00, 0x0000FF00], 64) := by decide

/-- 2.3 and P2: `clear` takes 1152 × `P` cycles and fills `3*P` slots. -/
theorem test_clear : (next? (exec .clear (ready onePixel))).map (fun t => (t.wire.cycles, t.chain.rx)) =
    some (1153, [0, 0, 0]) := by decide

theorem test_setPinHigh : (next? (exec .setPinHigh { ready small with pin := false })).map State.dout = some .high := by decide
theorem test_setPinLow : (next? (exec .setPinLow { ready small with pin := true })).map State.dout = some .low := by decide
theorem test_setPinDirectionOutput :
    (next? (exec .setPinDirectionOutput (State.resetWith small))).map (fun t => (t.dir, t.ie)) = some (true, true) := by decide

/-! ### Conversions (2.1, 2.2) -/

theorem test_map_towardZero : retAfter (exec (.map 1 0 2 255 0) (ready small)) = some (.int 128) := by decide
theorem test_map_refused : refusal? (exec (.map 1 4 4 0 9) (ready small)) = some .mapDomain := by decide
theorem test_scale : retAfter (exec (.scale 129 100) (ready small)) = some (.byte 50) := by decide
theorem test_scale_small : retAfter (exec (.scale 254 1) (ready small)) = some (.byte 0) := by decide
theorem test_hsv3 : retAfter (exec (.hsv3 127 7 100) (ready small)) = some (.rgb ⟨0, 50, 49⟩) := by decide
theorem test_hsv3_seam : (hsv3 84 0 255, hsv3 85 0 255, hsv3 170 0 255, hsv3 255 0 255) =
    (⟨3, 252, 0⟩, ⟨0, 255, 0⟩, ⟨0, 0, 255⟩, ⟨255, 0, 0⟩) := by decide
theorem test_hsv6 : retAfter (exec (.hsv6 43 7 64) (ready small)) = some (.rgb ⟨63, 64, 0⟩) := by decide
theorem test_hsv6_seam : (hsv6 42 0 255, hsv6 43 0 255, hsv6 213 0 255, hsv6 255 0 255) =
    (⟨255, 252, 0⟩, ⟨252, 255, 0⟩, ⟨255, 0, 252⟩, ⟨255, 0, 0⟩) := by decide

/-! ### Animation Engine (2.4 to 2.8) -/

theorem test_hueOf : retAfter (exec (.hueOf 15000 10000) (ready small)) = some (.byte 127) := by decide
theorem test_hueOf_refused : refusal? (exec (.hueOf 5 0) (ready small)) = some .mapDomain := by decide
theorem test_env_falling : retAfter (exec (.env 2000) (ready small)) = some (.byte 128) := by decide
theorem test_env_rising : retAfter (exec (.env 250) (ready small)) = some (.byte 63) := by decide
theorem test_ramp : retAfter (exec (.ramp 2 663) (ready (tcfg .hires .sec3))) = some (.byte 153) := by decide
theorem test_ramp_behind : retAfter (exec (.ramp 1 663) (ready (tcfg .hires .sec3))) = some (.byte 255) := by decide

theorem test_animChase : (next? (exec .animChase (State.resetWith (tcfg .split .sec3)))).map (fun t => frameWords t.cfg 350) =
    some (List.replicate 3 0x00FF0000 ++ List.replicate 10 0x0000FF00) := by decide
theorem test_animHueBreath :
    (next? (exec .animHueBreath (State.resetWith (tcfg .split .sec3)))).map (fun t => frameWords t.cfg 2000) =
      some (List.replicate 13 0x80660080) := by decide
theorem test_animHueRotate :
    (next? (exec .animHueRotate (State.resetWith (tcfg .split .sec3)))).map (fun t => frameWords t.cfg 5000) =
      some (List.replicate 13 0x81007E00) := by decide
theorem test_animSplit :
    (next? (exec .animSplit (State.resetWith (tcfg .chase .sec3)))).map (fun t => frameWords t.cfg 25000) =
      some (List.replicate 6 0x00007E00 ++ List.replicate 7 0x81000000) := by decide
theorem test_animHires :
    (next? (exec .animHires (State.resetWith (tcfg .chase .sec3)))).map (fun t => frameWords t.cfg 2000) =
      some (List.replicate 2 0xFF000000 ++ [0xFF660000] ++ List.replicate 10 0xFFFF0000) := by decide
theorem test_convSec3 :
    (next? (exec .convSec3 (State.resetWith (tcfg .hueRotate .sec6)))).map (fun t => frameWords t.cfg 3333) =
      some (List.replicate 13 0xFC030000) := by decide
theorem test_convSec6 :
    (next? (exec .convSec6 (State.resetWith (tcfg .hueRotate .sec3)))).map (fun t => frameWords t.cfg 3333) =
      some (List.replicate 13 0xFF060000) := by decide
theorem test_config_refused : refusal? (exec .animSplit (ready small)) = some .runtimeReconfiguration := by decide

/-- 2.11, P6: the frame of tick 2 is one green word; 384 + 30 cycles. -/
theorem test_renderFrame :
    (next? (exec (.renderFrame 2 1) (ready small))).map (fun t => (t.wire.cycles, t.chain.disp, t.tick)) =
      some (415, [(0, 0xFF000000)], 0) := by decide
theorem test_renderFrame_refused : refusal? (exec (.renderFrame 2 256) (ready small)) = some .invalidConfiguration := by decide

/-! ### Frame Driver -/

theorem test_init : (next? (exec .init (State.resetWith small))).map (fun t => (t.seq, t.dir, t.ie, t.wire)) =
    some (.run 0 3, true, false, [(.z, 1)]) := by decide
theorem test_delay : (next? (exec (.delay 9600) (ready small))).map (fun t => (t.wire, t.pin)) =
    some ([(.low, 9600), (.z, 1)], false) := by decide
theorem test_delay_none : next? (exec (.delay 0) (ready small)) = some (ready small) := by decide
theorem test_tickInc : (next? (exec .tickInc { ready small with tick := 2 })).map State.tick = some 3 := by decide
theorem test_tickInc_wraps : (next? (exec .tickInc { ready small with tick := 3 })).map State.tick = some 0 := by decide

/-- 2.9: the wire at the cycles the table lists. -/
theorem test_wireAt :
    [0, 1, 3, 4, 12, 13, 96, 97, 193, 198, 199, 289, 384, 385, 4992, 4993, 17280, 17281, 1728097, 1728102, 1728103].map
      (wireAt (tcfg .chase .sec3)) =
    [.z, .high, .high, .low, .low, .high, .low, .high, .high, .high, .low, .high, .low, .high, .low, .low, .low, .high,
      .high, .high, .low] := by decide

/-- 2.10: a high run of 4 cycles, and a low run of 1000 cycles, are refused by the receiver. -/
theorem test_receiver_refuses :
    ({ Chain.start with line := .high 4 }.feed (tcfg .chase .sec3) .low 8).status = .refused .highTime ∧
    ({ Chain.start with line := .low 1000 }.feed (tcfg .chase .sec3) .high 3).status = .refused .lowTime := by decide

/-- 2.13: the hazard conditions at REF. -/
theorem test_hazards : NoEarlyLatch (tcfg .chase .sec3) ∧ LatchLongEnough (tcfg .chase .sec3) ∧
    BitTimingInTolerance (tcfg .chase .sec3) := by decide

/-! ### Witnesses: for every statement with hypotheses, values that meet them together, one for each clause -/

theorem witness_EncodedOperationDecodesToItself :
    WellFormed (.map (-1) 0 1 255 0) ∧ WellFormed (.renderFrame 0 255) ∧ WellFormed (.writeColor 255 255 255 255) := by decide

/-- A word for each value of `op`. -/
theorem witness_CommandWordFieldsByPosition :
    ∀ k : Fin 8, (BitVec.ofNat 35 (k.val * 2 ^ 32 + 0xFF0000FF)).extractLsb' 32 3 = BitVec.ofNat 3 k.val := by decide

theorem witness_ReservedCodesAreRefused :
    { ready small with code := some (.word .plcmd 35 (5 * 2 ^ 32)) }.rstN = true ∧
    { ready small with code := some (.word .plcmd 35 (5 * 2 ^ 32)) }.seq ≠ .init ∧ 2 ^ 35 - 1 < 2 ^ 35 ∧
    { State.resetWith small with code := some (.word .anim 3 7) }.code = some (.word .anim 3 7) := by decide

/-- The start state of most witnesses: `init` has run, nothing has been sent, the chain is quiet and empty. -/
theorem ready_linkReady (c : Cfg) : LinkReady (ready c) := ⟨rfl, rfl⟩
theorem ready_chainQuiet (c : Cfg) : ChainQuiet c (ready c).chain := ⟨rfl, rfl, trivial⟩
theorem ready_wholeWords (c : Cfg) : WholeWords (ready c) := rfl
theorem ready_runsAlone (c : Cfg) : RunsAlone (ready c) := ⟨rfl, rfl⟩

theorem witness_PixelWordFieldsAndWire : LinkReady (ready small) := ready_linkReady small

/-- An operation after `INIT` and a configuration code at `INIT`; a reserved code; an operation that waits for `init`. -/
theorem witness_StepRunsThePlacedOperation :
    (ready small).rstN = true ∧ (ready small).seq ≠ .init ∧ decode (encode .latch) = .ok .latch ∧
    (encode .animSplit).isConfig = true ∧ decode (encode .animSplit) = .ok .animSplit ∧
    decode (.word .plcmd 35 (7 * 2 ^ 32)) = .illegal .reservedOp ∧
    (State.resetWith small).seq = .init ∧ (encode .latch).isConfig = false ∧ (ready small).code = none := by decide

theorem witness_PlacedTableWordRunsNext :
    (State.resetWith small).rstN = true ∧ (State.resetWith small).seq = .init ∧
    decodeTableWord 40 0x400000000 = some .latch ∧ isConfigCode .latch = false ∧
    decodeTableWord 3 4 = some .animHires ∧ isConfigCode .animHires = true ∧ (ready small).seq ≠ .init := by decide

theorem witness_AssertedResetWinsOverEverything :
    { ready small with rstN := false, code := some (encode .clear), tick := 3 }.rstN = false := by decide

theorem witness_InitDrivesPinMasksInterrupts :
    (State.resetWith small).seq = .init ∧ (State.resetWith small).rstN = true ∧
    (State.resetWith small).chain.line = .lead 0 ∧ (ready small).rstN = true ∧ (ready small).seq ≠ .init ∧ (next? (step (ready small))).isSome = true ∧
    ∀ c, { State.resetWith small with code := some (encode .latch) }.code = some c → c.isConfig = false :=
  ⟨rfl, rfl, rfl, rfl, by decide, by decide, fun _ h => by cases h; rfl⟩

theorem witness_WireSymbolWaveforms : LinkReady (ready small) ∧ WholeWords (ready small) := by decide

theorem witness_SendBitPutsOneCellOnTheWire : LinkReady (ready small) := ready_linkReady small

theorem witness_SendBytePutsEightCellsMsbFirst : LinkReady (ready small) := ready_linkReady small

theorem witness_WriteColorFillsExactlyOneSlot :
    LinkReady (ready small) ∧ NoEarlyLatch small ∧ ChainQuiet small (ready small).chain :=
  ⟨ready_linkReady small, by decide, ready_chainQuiet small⟩

theorem witness_PseudoOperationsExpand : LinkReady (ready small) := ready_linkReady small

theorem witness_BroadcastAndClearRepeatWriteColor :
    LinkReady (ready small) ∧ NoEarlyLatch small ∧ ChainQuiet small (ready small).chain :=
  ⟨ready_linkReady small, by decide, ready_chainQuiet small⟩

/-- After whole words, one bit into a word and one bit short of it; the least and the greatest pixel count. -/
theorem witness_LatchHoldsLowAfterWholeWordsOnly :
    LinkReady (ready small) ∧ WholeWords (ready small) ∧
    (∀ n ∈ [1, 31], LinkReady { ready small with sent := n } ∧ ¬ WholeWords { ready small with sent := n }) ∧
    (∀ p ∈ [1, 255], 1 ≤ p ∧ p ≤ 255) := by decide

theorem witness_LinkOperationsNeedDrivenPinAndMaskedInterrupts :
    isLinkOperation .clear = true ∧ (∀ p ∈ [1, 255], 1 ≤ p ∧ p ≤ 255) ∧ (State.resetWith small).dir = false ∧
    { State.resetWith small with dir := true }.dir = true ∧ { State.resetWith small with dir := true }.ie = true ∧
    RunsAlone (State.resetWith small) ∧ (State.resetWith small).seq = .init ∧
    (next? (step (State.resetWith small))).isSome = true ∧
    (ready small).rstN = true ∧ (ready small).seq ≠ .init ∧ LinkReady (ready small) ∧
    (next? (step (ready small))).isSome = true := by decide

theorem witness_PinPrimitivesWriteTheirBit : (ready small).dir = true ∧ (State.resetWith small).dir = false := by decide

theorem witness_DurationsDependOnConfigurationAlone : LinkReady (ready small) ∧ WholeWords (ready small) := by decide

/-- A next state for an operation of each kind. -/
theorem witness_EachRegisterHasItsOnlyWriters :
    (next? (exec .tickInc (ready small))).isSome = true ∧ (next? (exec .init (ready small))).isSome = true ∧
    (next? (exec (.hueOf 1 2) (ready small))).isSome = true ∧ (next? (exec (.sendBit true) (ready small))).isSome = true ∧
    (next? (exec .animSplit (State.resetWith small))).isSome = true ∧
    isConfigCode (.sendBit true) = false ∧ isPureFunction (.sendBit true) = false := by decide

theorem witness_OperationsOffTheWireLeaveTheWire :
    isPureFunction (.env 0) = true ∧ (next? (exec (.env 0) (ready small))).isSome = true ∧
    isConfigCode .convSec6 = true ∧ (next? (exec .convSec6 (State.resetWith small))).isSome = true ∧
    (next? (exec .setPinLow (ready small))).isSome = true := by decide

theorem witness_SendingChangesNoDisplayedColour :
    (ready small).chain.disp.wf = true ∧ NoEarlyLatch small ∧ isLinkOperation (.sendByte 0) = true ∧
    endsWithLatch (.sendByte 0) = false ∧ (next? (exec (.sendByte 0) (ready small))).isSome = true ∧
    endsWithLatch .latch = true ∧ (next? (exec .latch (ready small))).isSome = true ∧ small.lChain ≤ 1 := by decide

/-- A high run of `N1`, of `N1 + N2` and of another length; low runs at the thresholds, between them, and inside a word; a
chain that is lost. The configuration is TCFG, with the thresholds 100 and 2688. -/
theorem witness_ReceiverReadsBitsByTheirHighTime :
    (∀ m ∈ [3, 6, 4], { Chain.start with line := .high m }.status = .tracking ∧
      { Chain.start with line := .high m }.line = .high m) ∧
    1 ≤ 2687 ∧ 2687 < (tcfg .chase .sec3).nRstHi ∧ Chain.start.part.length < 31 ∧
    3 = (tcfg .chase .sec3).n1 ∧ 6 = (tcfg .chase .sec3).n1 + (tcfg .chase .sec3).n2 ∧ 4 ≠ (tcfg .chase .sec3).n1 ∧
    100 ≤ (tcfg .chase .sec3).nRstLo ∧ (tcfg .chase .sec3).nRstHi ≤ 2688 ∧ (tcfg .chase .sec3).nRstLo < 101 ∧
    { Chain.start with line := .low 2687, part := [true] }.part ≠ [] ∧ (tcfg .chase .sec3).nRstHi ≤ 2687 + 1 ∧
    Chain.unknown.status = .lost := by decide

/-- An undriven wire before the first driven cycle, after it, and over a chain that has refused. -/
theorem witness_ReceiverReadsBitsByTheirHighTime_undriven :
    Chain.start.line = .lead 0 ∧ { Chain.start with line := .lead 1 }.line ≠ .lead 0 ∧
    (∀ why, { Chain.start with line := .lead 1 }.status ≠ .refused why) ∧
    (Chain.start.refuse .lowTime).status = .refused .lowTime := by
  exact ⟨rfl, by decide, (fun _ h => by cases h), rfl⟩

/-- A low run one cycle short of the threshold, and one of the threshold, which has latched already. -/
theorem witness_LongLowRunLatchesOnce :
    LinkReady { ready small with chain := { Chain.start with line := .low 29, rx := [1, 2] } } ∧
    WholeWords { ready small with chain := { Chain.start with line := .low 29, rx := [1, 2] } } ∧
    { Chain.start with line := .low 29, rx := [1, 2] }.status = .tracking ∧
    { Chain.start with line := .low 29, rx := [1, 2] }.part = [] ∧
    { Chain.start with line := .low 29, rx := [1, 2] }.disp.wf = true ∧
    29 < small.nRstHi ∧ small.nRstHi ≤ 29 + small.nLatch ∧ small.nRstHi ≤ 29 + 1 := by decide

theorem witness_LongLowRunLatchesOnce_latched :
    LinkReady { ready small with chain := { Chain.start with line := .low 30, rx := [3] } } ∧
    WholeWords { ready small with chain := { Chain.start with line := .low 30, rx := [3] } } ∧
    { Chain.start with line := .low 30, rx := [3] }.status = .tracking ∧
    { Chain.start with line := .low 30, rx := [3] }.part = [] ∧
    { Chain.start with line := .low 30, rx := [3] }.line = .low 30 ∧
    { Chain.start with line := .low 30, rx := [3] }.disp.wf = true ∧ small.nRstHi ≤ 30 := by decide

theorem witness_RenderedFrameIsDisplayed :
    LinkReady (ready small) ∧ WholeWords (ready small) ∧ NoEarlyLatch small ∧ ChainQuiet small (ready small).chain ∧
    (ready small).chain.rx = [] ∧ (ready small).chain.disp.wf = true :=
  ⟨ready_linkReady small, rfl, by decide, ready_chainQuiet small, rfl, rfl⟩

theorem witness_MapTruncatesTowardZero : (0 : Int) ≠ 2 ∧ (4 : Int) = 4 := by decide

theorem witness_MapLaws : (0 : Int) ≠ 10 ∧ (0 : Int) < 10 ∧ (0 : Int) ≤ 0 ∧ (0 : Int) ≤ 10 ∧ (10 : Int) ≤ 10 ∧
    (-3 : Int) ≤ 5 := by decide

/-- The first and the last hue of each arc. -/
theorem witness_ThreeSectorArcs : (84 : Byte).toNat < 85 ∧ 85 ≤ (85 : Byte).toNat ∧ (169 : Byte).toNat < 170 ∧
    170 ≤ (170 : Byte).toNat ∧ 170 ≤ (255 : Byte).toNat := by decide

/-- A hue in each sector, the seams among them. -/
theorem witness_SixSectorArcs : ∀ x ∈ [(0, 0, 0), (42, 0, 252), (43, 1, 3), (85, 2, 0), (128, 3, 3), (170, 4, 0), (254, 5, 249),
    (255, 6, 0)], 6 * x.1 = 255 * x.2.1 + x.2.2 ∧ x.2.2 < 255 := by decide

theorem witness_HueOfIsTickPhase : 1 ≤ 1 ∧ 1 ≤ 10000 := by decide

/-- The first and the last position of each segment of TCFG's envelope. -/
theorem witness_EnvelopeSegments :
    (tcfg .hueBreath .sec3).brRise = 1000 ∧ 999 < 1000 ∧ 1000 ≤ 1000 ∧ 1499 < 1000 + 500 ∧ 1000 + 500 ≤ 1500 ∧
    2499 < 1000 + 500 + 1000 ∧ 1000 + 500 + 1000 ≤ 2500 ∧
    2999 < (tcfg .hueBreath .sec3).brRise + (tcfg .hueBreath .sec3).brHold + (tcfg .hueBreath .sec3).brFall +
      (tcfg .hueBreath .sec3).brPause := by decide

/-- Behind, at and ahead of the front, and the last position. -/
theorem witness_RampFollowsTheFront :
    254 < 255 ∧ 12 < (ready (tcfg .hires .sec3)).cfg.pixels ∧ 255 * 12 + 254 < 255 * (ready (tcfg .hires .sec3)).cfg.pixels ∧
    1 < 2 ∧ 2 = 2 ∧ 2 < 3 := by decide

theorem witness_OperandsOutsideTheStatedDomain : ¬ (1 ≤ 0 ∧ 0 ≤ 255) ∧ ¬ (1 ≤ 256 ∧ 256 ≤ 255) := by decide

theorem witness_RenderFrameIsWordsThenLatch :
    LinkReady (ready (tcfg .hueRotate .sec3)) ∧ WholeWords (ready (tcfg .hueRotate .sec3)) ∧
    5000 < 2 ^ (tcfg .hueRotate .sec3).tickBits ∧ (tcfg .hueRotate .sec3).animSel = .hueRotate ∧
    (tcfg .hueBreath .sec3).animSel = .hueBreath := by decide

theorem witness_RenderFrameTakesAnyLegalPixelCount :
    (1 ≤ 1 ∧ 1 ≤ 255) ∧ (1 ≤ 255 ∧ 255 ≤ 255) ∧ LinkReady (ready small) ∧ WholeWords (ready small) := by decide

/-- Tick 1299 of TCFG: `m = 0`, `w = 12`, `r = 99`; the last pixel, and the one before it. -/
theorem witness_ChaseSweepsPrimaryColours :
    (tcfg .chase .sec3).animSel = .chase ∧ 12 < (tcfg .chase .sec3).pixels ∧ 99 < (tcfg .chase .sec3).chaseStep ∧
    11 < (tcfg .chase .sec3).pixels ∧
    (tcfg .chase .sec3).chaseStep * ((tcfg .chase .sec3).pixels * 0 + 12) + 99 < 2 ^ (tcfg .chase .sec3).tickBits := by decide

theorem witness_BreathIsHueWithEnvelopeWhite :
    (tcfg .hueBreath .sec3).animSel = .hueBreath ∧ 5000 < 2 ^ (tcfg .hueBreath .sec3).tickBits ∧
    12 < (tcfg .hueBreath .sec3).pixels ∧
    (127 : Byte).toNat = (5000 % (tcfg .hueBreath .sec3).dBHue) * 255 / (tcfg .hueBreath .sec3).dBHue := by decide

theorem witness_RotateShowsOneHueOnEveryPixel :
    ∀ v ∈ [ConvSel.sec3, ConvSel.sec6],
      (tcfg .hueRotate v).animSel = .hueRotate ∧ 5000 < 2 ^ (tcfg .hueRotate v).tickBits ∧
      12 < (tcfg .hueRotate v).pixels ∧ (tcfg .hueRotate v).convSel = v ∧ (tcfg .hueRotate v).dRot = 10000 ∧
      (127 : Byte).toNat = (5000 % (tcfg .hueRotate v).dRot) * 255 / (tcfg .hueRotate v).dRot := by decide

/-- A tick for each case (blue 0, red 0, neither 0) and for each order of the halves, and a pixel of each half. -/
theorem witness_SplitHalvesShowDifferentChannels :
    (tcfg .split .sec3).animSel = .split ∧ 25000 < 2 ^ (tcfg .split .sec3).tickBits ∧ 12 < (tcfg .split .sec3).pixels ∧
    5 < (tcfg .split .sec3).pixels / 2 ∧ ¬ 6 < (tcfg .split .sec3).pixels / 2 ∧
    (25 : Byte).toNat = (1000 % (tcfg .split .sec3).dSplit) * 255 / (tcfg .split .sec3).dSplit ∧ (hsv3 25 255 255).b = 0 ∧
    (127 : Byte).toNat = (25000 % (tcfg .split .sec3).dSplit) * 255 / (tcfg .split .sec3).dSplit ∧
    (hsv3 127 255 255).b ≠ 0 ∧ (hsv3 127 255 255).r = 0 ∧
    (204 : Byte).toNat = (8000 % (tcfg .split .sec3).dSplit) * 255 / (tcfg .split .sec3).dSplit ∧
    (hsv3 204 255 255).b ≠ 0 ∧ (hsv3 204 255 255).r ≠ 0 ∧
    8000 / (2 * (tcfg .split .sec3).dSplit) % 2 = 0 ∧ 25000 / (2 * (tcfg .split .sec3).dSplit) % 2 = 1 := by decide

/-- A tick in each of the six sectors: (tick, sector, front, fraction) of 2.8. -/
theorem witness_HiresSweepsAlongTheChain :
    (tcfg .hires .sec3).animSel = .hires ∧ 2 < (tcfg .hires .sec3).pixels ∧
    ∀ x ∈ [(100, 0, 0, 198), (2000, 1, 2, 153), (3334, 2, 0, 1), (6666, 3, 12, 253), (8333, 4, 12, 254), (9999, 5, 12, 253)],
      x.1 < 2 ^ (tcfg .hires .sec3).tickBits ∧
      (x.1 % (tcfg .hires .sec3).dHires) * (1530 * (tcfg .hires .sec3).pixels) / (tcfg .hires .sec3).dHires =
        255 * (tcfg .hires .sec3).pixels * x.2.1 + 255 * x.2.2.1 + x.2.2.2 ∧
      x.2.2.1 < (tcfg .hires .sec3).pixels ∧ x.2.2.2 < 255 := by decide

theorem witness_StrategiesArePeriodic :
    ∀ a ∈ [AnimSel.chase, .hueBreath, .hueRotate, .split, .hires],
      350 + periodOf (tcfg a .sec3) < 2 ^ (tcfg a .sec3).tickBits ∧ 12 < (tcfg a .sec3).pixels := by decide

theorem witness_RenderingHasNoHiddenState :
    (ready small).cfg = { ready small with tick := 3, pin := false }.cfg ∧
    (next? (exec (.renderFrame 1 1) (ready small))).isSome = true ∧
    (next? (exec (.renderFrame 1 1) { ready small with tick := 3, pin := false })).isSome = true := by decide

/-- The first frame, after the `Z` of `init`; and a wire that holds symbols and ends low. -/
theorem witness_FrameSymbolTrace :
    LinkReady (ready small) ∧ WholeWords (ready small) ∧ NoEarlyLatch small ∧
    (ready small).wire = [(.z, 1)] ∧ (ready small).wire.symbols small = some [] ∧
    (∀ w ∈ [[(Level.z, 1)], [(.low, 40), (.high, 3), (.z, 1)]], ∀ r ∈ w.head?, r.1 ≠ .high) ∧
    Trace.symbols small [(.low, 40), (.high, 3), (.z, 1)] = some [.b0, .latch] := by decide

theorem witness_ConfigurationCodesSelect :
    (State.resetWith small).seq = .init ∧ isConfigCode .animHires = true ∧ (ready small).seq ≠ .init ∧
    3 < 2 ^ small.tickBits ∧ 0 < small.pixels := by decide

theorem witness_DelayHoldsTheLineLow : (ready small).dir = true ∧ 0 = 0 ∧ 1 ≤ 1 := by decide

theorem witness_TickIncCountsAndWraps :
    { ready small with tick := 2 }.tick + 1 < 2 ^ small.tickBits ∧ { ready small with tick := 3 }.tick + 1 = 2 ^ small.tickBits := by
  decide

theorem witness_FrameRunListEntries : 0 < small.pixels ∧ 3 < 4 ∧ 7 < 8 := by decide

theorem witness_RunCoordinatesMatchRunList : 0 < frameRunCount small ∧ 102 < frameRunCount small := by decide

/-- The last bit cell, the last byte gap and the pixel gap of the only pixel. -/
theorem witness_TransientRegistersFollowThePosition :
    0 < small.pixels ∧
    { ready small with seq := .run (101 * 0 + 25 * 3 + 3 * (7 - 0) + 2) 1 }.seq = .run 98 1 ∧
    { ready small with seq := .run (101 * 0 + 25 * 3 + 24) 1 }.seq = .run 99 1 ∧
    { ready small with seq := .run (101 * 0 + 100) 1 }.seq = .run 100 1 := by decide

/-- `INIT`; a run with cycles left; the last cycle of a run before empty ones, a region 3; the last cycle of the latch run;
the last cycle of the frame. -/
theorem witness_ClockStepFollowsTheRunList :
    RunsAlone (State.resetWith small) ∧ (State.resetWith small).seq = .init ∧ RunsAlone (ready small) ∧
    isPosition small (.run 0 3) = true ∧ isPosition small (.run 98 1) = true ∧
    101 < frameRunCount small ∧ 1 ≤ runLen small 101 ∧ runLen small 99 = 0 ∧ runLen small 100 = 0 ∧
    isPosition small (.run 101 1) = true ∧ 101 = 101 * small.pixels ∧
    (0 < small.pixels ∧ 3 < 4 ∧ 7 < 8 ∧ 98 = 101 * 0 + 25 * 3 + 3 * 7 + 2) ∧
    isPosition small (.run 102 1) = true ∧ frameRunCount small = 103 := by decide

theorem witness_FramePeriodOfStepsIsOneLoopIteration :
    RunsAlone (ready small) ∧ LinkReady (ready small) ∧ WholeWords (ready small) ∧
    (ready small).seq = .run 0 (ready small).cfg.n1 := by decide

theorem ready_inv (c : Cfg) : Inv (ready c) := by
  refine ⟨Nat.two_pow_pos _, isPosition_start c, (fun h => by cases h), (fun _ => ⟨rfl, rfl⟩), rfl, rfl, ?_⟩
  exact Nat.succ_pos _

/-- A state of the invariant and its next state: of the clock, of a placed operation, and of reset. -/
theorem witness_EveryStepKeepsTheInvariant :
    Inv (ready small) ∧ (next? (step (ready small))).isSome = true ∧
    (next? (step ((ready small).withFetchWord 40 0x400000000))).isSome = true ∧
    (next? (step { ready small with rstN := false })).isSome = true :=
  ⟨ready_inv small, by decide, by decide, by decide⟩

theorem witness_TheCoreNeverStops : Inv (ready small) ∧ (ready small).code = none := ⟨ready_inv small, rfl⟩

theorem witness_ConfigurationAndPinStayFixedAfterInit :
    Inv (ready small) ∧ (ready small).rstN = true ∧ (ready small).seq ≠ .init ∧ (next? (step (ready small))).isSome = true :=
  ⟨ready_inv small, by decide, by decide, by decide⟩

end Sys2Proof.Tests
end

section
/-! The transient registers of R28 by the coordinates of R23, the values after reset and after the initialisation step
(R31), and the two statements of 10_state.md about them. -/

namespace Sys2Proof.Machine

/-! ### The transient registers at run `101*i + q` of the frame (R23, R28) -/

section
variable {s : State} {i n : Nat} (hi : i < s.cfg.pixels)
include hi

/-- The run index of a position inside pixel `i`. -/
theorem State.pixelRun_of_run {q : Nat} (hq : q < 101) (hseq : s.seq = .run (101 * i + q) n) :
    s.pixelRun = some (101 * i + q) := by
  have hk : 101 * i + q < 101 * s.cfg.pixels := by omega
  simp [State.pixelRun, hseq, hk]

/-- In every run of pixel `i`, `PIX` is `i`, which a byte holds since `P ≤ 255` (R5). -/
theorem State.pix_of_run {q : Nat} (hq : q < 101) (hseq : s.seq = .run (101 * i + q) n) : s.pix.toNat = i := by
  have hP := s.cfg.bounds
  have hdiv : (101 * i + q) / 101 = i := by omega
  simp only [State.pix, State.pixelRun_of_run hi hq hseq, hdiv, BitVec.toNat_ofNat]
  exact Nat.mod_eq_of_lt (by omega)

/-- In every run of pixel `i`, the current sample is the colour of pixel `i`. -/
theorem State.currentColor_of_run {q : Nat} (hq : q < 101) (hseq : s.seq = .run (101 * i + q) n) :
    s.currentColor = some (color s.cfg s.tick i) := by
  have hdiv : (101 * i + q) / 101 = i := by omega
  simp [State.currentColor, State.pixelRun_of_run hi hq hseq, hdiv]

/-- The registers that every run of pixel `i` gives a value: the pixel index, its four colour bytes, the cycles left. -/
theorem State.colourRegisters_of_run {q : Nat} (hq : q < 101) (hseq : s.seq = .run (101 * i + q) n) :
    s.pix.toNat = i ∧ s.cg = (color s.cfg s.tick i).g ∧ s.cr = (color s.cfg s.tick i).r ∧
      s.cb = (color s.cfg s.tick i).b ∧ s.cw = (color s.cfg s.tick i).w ∧ s.cnt = n := by
  have hc := State.currentColor_of_run hi hq hseq
  refine ⟨State.pix_of_run hi hq hseq, ?_, ?_, ?_, ?_, ?_⟩
  · simp [State.cg, hc]
  · simp [State.cr, hc]
  · simp [State.cb, hc]
  · simp [State.cw, hc]
  · simp [State.cnt, hseq]

/-- In the 25 runs of byte `j`, its gap among them, `SHIFT` is byte `j` of the sample. -/
theorem State.shift_of_run {j m : Nat} (hj : j < 4) (hm : m < 25) (hseq : s.seq = .run (101 * i + (25 * j + m)) n) :
    s.shift = sampleByte (color s.cfg s.tick i) j := by
  have hdiv : (101 * i + (25 * j + m)) / 101 = i := by omega
  have hmod : (101 * i + (25 * j + m)) % 101 = 25 * j + m := by omega
  have hgap : 25 * j + m ≠ 100 := by omega
  have hbyte : (25 * j + m) / 25 = j := by omega
  simp [State.shift, State.pixelRun_of_run hi (by omega) hseq, hdiv, hmod, hgap, hbyte]

/-- In the three runs of each bit cell of byte `j`, `BITN` counts down from 7. -/
theorem State.bitn_of_run {j m : Nat} (hj : j < 4) (hm : m < 24) (hseq : s.seq = .run (101 * i + (25 * j + m)) n) :
    s.bitn.toNat = 7 - m / 3 := by
  have hmod : (101 * i + (25 * j + m)) % 101 = 25 * j + m := by omega
  have hrun : (25 * j + m) % 25 = m := by omega
  have hcell : 25 * j + m ≠ 100 ∧ m < 24 := by omega
  simp only [State.bitn, State.pixelRun_of_run hi (by omega) hseq, hmod, hrun, if_pos hcell, BitVec.toNat_ofNat]
  exact Nat.mod_eq_of_lt (by omega)

end

/-- Settles O52: each kind of run of pixel `i` is run `101*i + q` for some `q < 101`, where the lemmas above read the registers
off; run `q` of the cell of bit `m` is run `3*(7 - m) + q` of its byte. -/
theorem transientRegistersFollowThePosition : Obligations.TransientRegistersFollowThePosition := by
  intro s i n hi
  refine ⟨fun j m q hj hm hq hseq => ?_, fun j hj hseq => ?_, fun hseq => ?_⟩
  · rw [show 101 * i + 25 * j + 3 * (7 - m) + q = 101 * i + (25 * j + (3 * (7 - m) + q)) by omega] at hseq
    have hbit : 7 - (3 * (7 - m) + q) / 3 = m := by omega
    exact ⟨State.colourRegisters_of_run hi (by omega) hseq, State.shift_of_run hi hj (by omega) hseq,
      hbit ▸ State.bitn_of_run hi hj (by omega) hseq⟩
  · rw [Nat.add_assoc] at hseq
    exact ⟨State.colourRegisters_of_run hi (by omega) hseq, State.shift_of_run hi hj (by omega) hseq⟩
  · exact State.colourRegisters_of_run hi (by omega) hseq

/-! ### Reset and the initialisation step (R31) -/

/-- The first step after reset is the initialisation step: reset is released and nothing is placed. -/
theorem step_resetWith (cfg : Cfg) : step (State.resetWith cfg) = .next (State.resetWith cfg).initialise := by
  rw [step_alone _ ⟨rfl, rfl⟩]
  rfl

/-- After the initialisation step the driven pin shows the high level of run 0 (R24, R31). -/
theorem State.initialise_dout (s : State) : s.initialise.dout = .high := by
  simp [State.dout, State.shows, State.initialise_pin, Level.ofBit]

/-- After the initialisation step the transient registers are those of run 0: green byte of pixel 0, bit 7 (R28, R31). -/
theorem State.initialise_registers (s : State) :
    s.initialise.pix = 0 ∧ s.initialise.cg = (color s.cfg s.tick 0).g ∧ s.initialise.cr = (color s.cfg s.tick 0).r ∧
      s.initialise.cb = (color s.cfg s.tick 0).b ∧ s.initialise.cw = (color s.cfg s.tick 0).w ∧
      s.initialise.shift = (color s.cfg s.tick 0).g ∧ s.initialise.bitn = 7 ∧ s.initialise.cnt = s.cfg.n1 := by
  have hP : 0 < s.initialise.cfg.pixels := s.cfg.bounds.1
  have hseq : s.initialise.seq = .run (101 * 0 + (25 * 0 + 0)) s.cfg.n1 := s.initialise_seq
  obtain ⟨hpix, hcg, hcr, hcb, hcw, hcnt⟩ := State.colourRegisters_of_run hP (by decide) hseq
  have hshift := State.shift_of_run hP (by decide) (by decide) hseq
  have hbitn := State.bitn_of_run hP (by decide) (by decide) hseq
  exact ⟨BitVec.eq_of_toNat_eq hpix, hcg, hcr, hcb, hcw, hshift, BitVec.eq_of_toNat_eq hbitn, hcnt⟩

/-- Settles O8: reset's own values are those of its definition; the first step is the initialisation step, which leads to
run 0, the first of the frame. -/
theorem resetValuesAndFirstStep : Obligations.ResetValuesAndFirstStep := by
  intro cfg
  refine ⟨rfl, rfl, rfl, rfl, rfl, rfl, (State.resetWith cfg).initialise, step_resetWith cfg, rfl, rfl, rfl, ?_⟩
  exact ⟨runLevel_zero cfg 0, rfl, State.initialise_dout _, rfl, rfl, State.initialise_registers _⟩

end Sys2Proof.Machine
end

section
/-! Sending operations one after another is one transmission of all their bits and runs, and a `delay` after them is one more
run of it: the pseudo operations in terms of the operations they stand for (R53, R93). -/

namespace Sys2Proof.Machine

section
variable {α : Type} {op : α → Instr} {runs : Cfg → α → List Run} {bits : Nat}
  (hop : ∀ a s, exec (op a) s = s.transmit bits (runs s.cfg a))
include hop

/-- In a ready machine, operations that each transmit `bits` bits all complete: together they emit their runs in order, and
each adds its bits to the count of bits sent. -/
theorem execAll_map_of_transmit (xs : List α) {s : State} (h : LinkReady s) :
    execAll (xs.map op) s = .next ((s.emitRuns (xs.flatMap (runs s.cfg))).setSent (s.sent + bits * xs.length)) := by
  induction xs generalizing s with
  | nil => rfl
  | cons x xs ih =>
    have hx : exec (op x) s = .next ((s.emitRuns (runs s.cfg x)).setSent (s.sent + bits)) := by
      rw [hop, State.transmit_eq_next]
      exact ⟨h, rfl⟩
    have hready : LinkReady ((s.emitRuns (runs s.cfg x)).setSent (s.sent + bits)) := by simpa [LinkReady] using h
    have hcount : s.sent + bits + bits * xs.length = s.sent + bits * (xs.length + 1) := by ring
    rw [List.map_cons, execAll_cons_next _ _ _ _ hx, ih hready]
    simp [State.emitRuns_append, hcount]

/-- Such operations and then a `delay` are one transmission of all their bits, with the low run of the `delay` last. -/
theorem execAll_map_delay_of_transmit (xs : List α) (n : Nat) {s : State} (h : LinkReady s) :
    execAll (xs.map op ++ [.delay n]) s =
      s.transmit (bits * xs.length) (xs.flatMap (runs s.cfg) ++ [⟨false, n⟩]) := by
  have hdelay (u : State) : execAll [.delay n] u = .next (u.emitRuns [⟨false, n⟩]) := rfl
  rw [execAll_append_next _ _ _ _ (execAll_map_of_transmit hop xs h), hdelay, State.emitRuns_setSent,
    ← State.emitRuns_append, eq_comm, State.transmit_eq_next]
  exact ⟨h, rfl⟩

end

/-- A `sendBit` transmits one bit, as the three runs of its cell (R113). -/
theorem exec_sendBit (b : Bool) (s : State) : exec (.sendBit b) s = s.transmit 1 (bitRuns s.cfg b) := rfl

/-- A `sendByte` transmits eight bits, as the runs of its byte (R114). -/
theorem exec_sendByte (v : Byte) (s : State) : exec (.sendByte v) s = s.transmit 8 (byteRuns s.cfg v) := rfl

/-- A `writeColor` transmits 32 bits, as the runs of its pixel word (R115). -/
theorem exec_writeColor (g r b w : Byte) (s : State) :
    exec (.writeColor g r b w) s = s.transmit 32 (wordRuns s.cfg ⟨g, r, b, w⟩) := rfl

/-- The runs of a pixel word are those of its four bytes in wire order, and the pixel gap (R83). -/
theorem wordRuns_eq_flatMap (c : Cfg) (g r b w : Byte) :
    wordRuns c ⟨g, r, b, w⟩ = [g, r, b, w].flatMap (byteRuns c) ++ [⟨false, c.gPixel⟩] := by
  simp [wordRuns]

/-- Settles O15: a byte's runs are those of its bits and the byte gap, a word's those of its bytes and the pixel gap, so each
expansion is the one transmission the pseudo operation is. -/
theorem pseudoOperationsExpand : Obligations.PseudoOperationsExpand := by
  intro s h
  refine ⟨fun v => ?_, fun g r b w => ?_⟩
  · rw [exec_sendByte]
    exact execAll_map_delay_of_transmit exec_sendBit (byteBits v) s.cfg.gByte h
  · rw [exec_writeColor, wordRuns_eq_flatMap]
    exact execAll_map_delay_of_transmit exec_sendByte [g, r, b, w] s.cfg.gPixel h

end Sys2Proof.Machine
end

section
/-! Command words and pixel words by the bit positions of their fields: what the decoder reads from a word, and that packing
puts each field back where it was read (R83, R86, R87). -/

namespace Sys2Proof

/-! ### Decoding by fields -/

/-- What a command word stands for, by its operation code and its four operand bytes: the rows of R87, and the reserved codes
of R90. -/
def commandOfFields (op : Nat) (a b c d : Byte) : Decoded :=
  match op with
  | 0 => .ok (.sendByte a)
  | 1 => .ok (.writeColor a b c d)
  | 2 => .ok (.writeColorAll a b c d)
  | 3 => .ok .clear
  | 4 => .ok .latch
  | _ => .illegal .reservedOp

/-- A word of 35 bits is read as a command by its fields (R86). -/
theorem decode_plcmd {w : Nat} (h : w < 2 ^ 35) :
    decode (.word .plcmd 35 w) =
      commandOfFields (w >>> 32) (byteAt w 24) (byteAt w 16) (byteAt w 8) (byteAt w 0) := by
  rw [decode, decodeWord, if_neg (by decide)]
  exact if_neg h.not_ge

/-- A word of 32 bits is read as a pixel word by its fields (R83). -/
theorem decode_pix32 {w : Nat} (h : w < 2 ^ 32) :
    decode (.word .pix32 32 w) = .ok (.pixelWord (byteAt w 24) (byteAt w 16) (byteAt w 8) (byteAt w 0)) := by
  rw [decode, decodeWord, if_neg (by decide)]
  exact if_neg h.not_ge

/-- Above the four operand bytes of a command word stand the three bits of its operation code (R86). -/
theorem toNat_shiftRight_eq_op (x : BitVec 35) : x.toNat >>> 32 = (x.extractLsb' 32 3).toNat := by
  have := x.isLt
  rw [BitVec.extractLsb'_toNat, Nat.shiftRight_eq_div_pow]
  omega

/-- A command word is decoded by its fields, each taken from its bit positions (R86). -/
theorem decode_commandWord (x : BitVec 35) :
    decode (.word .plcmd 35 x.toNat) = commandOfFields (x.extractLsb' 32 3).toNat (x.extractLsb' 24 8)
      (x.extractLsb' 16 8) (x.extractLsb' 8 8) (x.extractLsb' 0 8) := by
  rw [decode_plcmd x.isLt, toNat_shiftRight_eq_op]
  rfl

/-- A pixel word is decoded to its four bytes, each taken from its bit positions (R83). -/
theorem decode_pixelWord (x : PixelWord) :
    decode (.word .pix32 32 x.toNat) =
      .ok (.pixelWord (x.extractLsb' 24 8) (x.extractLsb' 16 8) (x.extractLsb' 8 8) (x.extractLsb' 0 8)) := by
  rw [decode_pix32 x.isLt]
  rfl

/-! ### Packing by fields -/

/-- Packing the four bytes of a pixel word gives the word back (R83). -/
theorem packBytes_extractLsb' (x : PixelWord) :
    packBytes (x.extractLsb' 24 8) (x.extractLsb' 16 8) (x.extractLsb' 8 8) (x.extractLsb' 0 8) = x.toNat := by
  have := x.isLt
  simp only [packBytes, BitVec.extractLsb'_toNat, Nat.shiftRight_eq_div_pow]
  omega

/-- The number of one bit vector above another, as a sum. -/
theorem toNat_append_eq_add {m n : Nat} (x : BitVec m) (y : BitVec n) : (x ++ y).toNat = x.toNat * 2 ^ n + y.toNat := by
  rw [BitVec.toNat_append, ← Nat.shiftLeft_add_eq_or_of_lt y.isLt, Nat.shiftLeft_eq]

/-- Packing a command word puts its operation code above its four operand bytes (R86). -/
theorem packCommand_eq_append (op : BitVec 3) (a b c d : Byte) :
    packCommand op.toNat a b c d = (op ++ a ++ b ++ c ++ d : BitVec 35).toNat := by
  simp only [toNat_append_eq_add, packCommand, packBytes]
  ring

/-- A command with one operand byte leaves the 24 bits below it 0 (R86). -/
theorem packCommand_one_operand (op : BitVec 3) (v : Byte) :
    packCommand op.toNat v 0 0 0 = (op ++ v ++ (0 : BitVec 24) : BitVec 35).toNat := by
  have h0 : (0 : BitVec 24) = (0 : Byte) ++ (0 : Byte) ++ (0 : Byte) := rfl
  simp only [packCommand_eq_append, toNat_append_eq_add, h0]
  ring

/-- Settles O3: decoding goes by the fields, so `op` alone selects the row; encoding packs the same fields. -/
theorem commandWordFieldsByPosition : Obligations.CommandWordFieldsByPosition := by
  refine ⟨fun x => ?_, fun v => ?_, fun g r b w => ⟨?_, ?_⟩, rfl, rfl⟩
  · simp only [decode_commandWord]
    refine ⟨?_, ?_, ?_, ?_, ?_, ?_⟩ <;> intro h
    case refine_6 => rcases h with h | h | h <;> (rw [h]; rfl)
    all_goals rw [h]; rfl
  · exact congrArg (Code.word .plcmd 35) (packCommand_one_operand 0 v)
  · exact congrArg (Code.word .plcmd 35) (packCommand_eq_append 1 g r b w)
  · exact congrArg (Code.word .plcmd 35) (packCommand_eq_append 2 g r b w)

end Sys2Proof
end

section
/-! What a transmission of a ready machine shows on the wire, and from it the waves of the symbols, the byte and the pixel
word (R80, R82, R83). -/

namespace Sys2Proof.Machine

/-! ### Transmissions of a ready machine -/

/-- In a ready machine a transmission completes: it shows its runs on the wire, takes their cycles and counts its bits. -/
theorem State.transmit_of_linkReady {s : State} (h : LinkReady s) (bits : Nat) (rs : List Run) :
    ∃ t, s.transmit bits rs = .next t ∧ Emitted s t (runsWave rs) ∧
      t.wire.cycles = s.wire.cycles + runsCycles rs ∧ t.sent = s.sent + bits :=
  ⟨_, (State.transmit_eq_next _ _ _ _).2 ⟨h, rfl⟩, s.emitRuns_levels rs h.1, s.emitRuns_cycles rs, rfl⟩

/-- In a ready machine, bits that end whole words and the latch after them show their runs and the low run of the latch. -/
theorem State.transmitAndLatch_of_linkReady {s : State} (h : LinkReady s) (bits : Nat) (rs : List Run)
    (hw : (s.sent + bits) % 32 = 0) :
    ∃ t, s.transmitAndLatch bits rs = .next t ∧ Emitted s t (runsWave rs ++ List.replicate s.cfg.nLatch .low) ∧
      t.sent = 0 := by
  refine ⟨_, (State.transmitAndLatch_eq_next _ _ _ _).2 ⟨h, hw, rfl⟩, ?_, rfl⟩
  have hwave := s.emitRuns_levels (rs ++ [latchRun s.cfg]) h.1
  simpa [Emitted, latchRun, Level.ofBit] using hwave

/-! ### Symbols, bytes and words -/

/-- The cell of a 0 is high for its first region only (R80). -/
theorem bitWave_false (c : Cfg) :
    bitWave c false = List.replicate c.n1 .high ++ List.replicate (c.n2 + c.n3) .low := by
  simp [bitWave, Level.ofBit]

/-- The cell of a 1 is high for its first two regions (R80). -/
theorem bitWave_true (c : Cfg) :
    bitWave c true = List.replicate (c.n1 + c.n2) .high ++ List.replicate c.n3 .low := by
  simp [bitWave, Level.ofBit]

/-- Settles O5: both ways go by the four bytes, and the operation transmits the 32 bits of the pixel word. -/
theorem pixelWordFieldsAndWire : Obligations.PixelWordFieldsAndWire := by
  refine ⟨decode_pixelWord, fun x => congrArg (Code.word .pix32 32) (packBytes_extractLsb' x), fun g r b w s h => ?_⟩
  obtain ⟨t, ht, hwave, -, hsent⟩ := State.transmit_of_linkReady h 32 (wordRuns s.cfg ⟨g, r, b, w⟩)
  rw [runsWave_wordRuns] at hwave
  exact ⟨t, ht, hwave, hsent⟩

/-- Settles O11: `B0` and `B1` transmit the bit cells of 0 and 1, and `LATCH` transmits nothing before its low run. -/
theorem wireSymbolWaveforms : Obligations.WireSymbolWaveforms := by
  intro s h
  refine ⟨?_, ?_, fun hw => ?_⟩
  · obtain ⟨t, ht, hwave, -⟩ := State.transmit_of_linkReady h 1 (bitRuns s.cfg false)
    exact ⟨t, ht, by rwa [runsWave_bitRuns, bitWave_false] at hwave⟩
  · obtain ⟨t, ht, hwave, -⟩ := State.transmit_of_linkReady h 1 (bitRuns s.cfg true)
    exact ⟨t, ht, by rwa [runsWave_bitRuns, bitWave_true] at hwave⟩
  · obtain ⟨t, ht, hwave, -⟩ := State.transmitAndLatch_of_linkReady h 0 [] hw
    exact ⟨t, ht, hwave⟩

/-- Settles O13: `sendByte` transmits the eight bits of its byte, whose wave and cycles are those of R82. -/
theorem sendBytePutsEightCellsMsbFirst : Obligations.SendBytePutsEightCellsMsbFirst := by
  intro v s h
  obtain ⟨t, ht, hwave, hcycles, hsent⟩ := State.transmit_of_linkReady h 8 (byteRuns s.cfg v)
  rw [runsWave_byteRuns] at hwave
  rw [runsCycles_byteRuns] at hcycles
  exact ⟨rfl, t, ht, hwave, hcycles, hsent⟩

end Sys2Proof.Machine
end

section
/-! The level a transmission leaves the line at, and what each operation can do to the state: the pin primitives, the bit cell,
the durations and the preconditions of Pixel Link (R110 to R113, R119, R121). -/

namespace Sys2Proof.Machine

/-! ### Lists of runs that end low -/

/-- Wherever the pin stood, it stands low after these runs: the last of them that takes time is low. -/
def EndsLow (rs : List Run) : Prop := ∀ s : State, (s.emitRuns rs).pin = false

/-- A low run that takes time ends low. -/
theorem endsLow_singleton {n : Nat} (hn : 1 ≤ n) : EndsLow [⟨false, n⟩] := by
  intro s
  have hne : n ≠ 0 := by omega
  simp [State.emit_pin, hne]

/-- What comes before runs that end low does not matter. -/
theorem EndsLow.append_left {rs : List Run} (h : EndsLow rs) (rs' : List Run) : EndsLow (rs' ++ rs) := by
  intro s
  rw [State.emitRuns_append]
  exact h _

/-- A low gap after runs that end low, be it empty, ends low. -/
theorem EndsLow.gap {rs : List Run} (h : EndsLow rs) (n : Nat) : EndsLow (rs ++ [⟨false, n⟩]) := by
  intro s
  rw [State.emitRuns_pin_append, h s, ite_self]

/-- Blocks that each end low, at least one of them, end low. -/
theorem endsLow_flatMap {α : Type} {f : α → List Run} (h : ∀ a, EndsLow (f a)) {xs : List α} (hne : xs ≠ []) :
    EndsLow (xs.flatMap f) := by
  obtain ⟨ys, y, rfl⟩ := xs.eq_nil_or_concat.resolve_left hne
  rw [List.concat_eq_append, List.flatMap_append, List.flatMap_singleton]
  exact (h y).append_left _

/-- A bit cell ends with its third region, which is low and at least one cycle long (R80). -/
theorem endsLow_bitRuns (c : Cfg) (b : Bool) : EndsLow (bitRuns c b) := by
  obtain ⟨-, -, -, -, hn3, -⟩ := c.bounds
  exact (endsLow_singleton hn3).append_left [⟨true, c.n1⟩, ⟨b, c.n2⟩]

/-- A byte ends with the byte gap after its last bit cell (R82). -/
theorem endsLow_byteRuns (c : Cfg) (v : Byte) : EndsLow (byteRuns c v) :=
  (endsLow_flatMap (endsLow_bitRuns c) (List.cons_ne_nil _ _)).gap c.gByte

/-- A pixel word ends with the pixel gap after its last byte (R83). -/
theorem endsLow_wordRuns (c : Cfg) (x : Sample) : EndsLow (wordRuns c x) :=
  ((endsLow_byteRuns c x.w).append_left _).gap c.gPixel

/-- Copies of a pixel word are the words of the list that repeats its sample. -/
theorem copiesOf_eq_flatMap (c : Cfg) (n : Nat) (x : Sample) :
    copiesOf c n x = (List.replicate n x).flatMap (wordRuns c) := by
  rw [copiesOf, List.flatMap_def, List.map_replicate]

/-- Copies of a pixel word, at least one, end low. -/
theorem endsLow_copiesOf (c : Cfg) {n : Nat} (hn : 1 ≤ n) (x : Sample) : EndsLow (copiesOf c n x) := by
  rw [copiesOf_eq_flatMap]
  exact endsLow_flatMap (endsLow_wordRuns c) (by simpa using Nat.ne_of_gt hn)

/-- The line is held low for a latch, for at least one cycle (R118). -/
theorem endsLow_latchRun (c : Cfg) : EndsLow [latchRun c] := by
  obtain ⟨-, -, -, -, -, hlatch, -⟩ := c.bounds
  exact endsLow_singleton hlatch

/-! ### What the ports show -/

/-- A driven pin that stands high shows high (R24). -/
theorem State.dout_high {s : State} (hdir : s.dir = true) (hpin : s.pin = true) : s.dout = .high := by
  simp [State.dout, State.shows, Level.ofBit, hdir, hpin]

/-- A driven pin that stands low shows low (R24). -/
theorem State.dout_low {s : State} (hdir : s.dir = true) (hpin : s.pin = false) : s.dout = .low := by
  simp [State.dout, State.shows, Level.ofBit, hdir, hpin]

/-- Settles O19: the first two write `PIN` under the precondition `DIR = 1`, the third writes `DIR` under none. -/
theorem pinPrimitivesWriteTheirBit : Obligations.PinPrimitivesWriteTheirBit := by
  intro s
  refine ⟨fun h => ⟨?_, State.dout_high h rfl⟩, fun h => ⟨?_, State.dout_low h rfl⟩, fun h => ⟨?_, ?_⟩, rfl, fun h => ?_⟩
  · exact (s.whenDriven_eq_next _ _).2 ⟨h, rfl⟩
  · exact (s.whenDriven_eq_next _ _).2 ⟨h, rfl⟩
  · simp [exec, execSetPinHigh, State.whenDriven, h]
  · simp [exec, execSetPinLow, State.whenDriven, h]
  · have hsame : ({ s with dir := true } : State) = s := by rw [← h]
    exact congrArg Host.Outcome.next hsame

/-! ### Durations -/

/-- A transmission of runs that end low leaves the pin low, and the ports show it. -/
theorem State.transmit_endsLow {s t : State} {bits : Nat} {rs : List Run} (hlow : EndsLow rs)
    (hx : s.transmit bits rs = .next t) : t.pin = false ∧ t.dout = .low := by
  obtain ⟨⟨hdir, -⟩, rfl⟩ := (s.transmit_eq_next _ _ _).1 hx
  rw [← s.emitRuns_dir rs] at hdir
  exact ⟨hlow s, State.dout_low hdir (hlow s)⟩

/-- In a ready machine, runs that end low and take `n` cycles are transmitted in `n` cycles, and the line ends low. -/
theorem State.transmit_takes {s : State} (h : LinkReady s) (bits : Nat) {rs : List Run} {n : Nat} (hlow : EndsLow rs)
    (hn : runsCycles rs = n) :
    ∃ t, s.transmit bits rs = .next t ∧ t.wire.cycles = s.wire.cycles + n ∧ t.dout = .low := by
  obtain ⟨t, ht, -, hcycles, -⟩ := State.transmit_of_linkReady h bits rs
  rw [hn] at hcycles
  exact ⟨t, ht, hcycles, (State.transmit_endsLow hlow ht).2⟩

/-- In a ready machine, a latch after whole words takes `N_LATCH` cycles, and the line ends low. -/
theorem State.latch_takes {s : State} (h : LinkReady s) (hw : WholeWords s) :
    ∃ t, s.transmitAndLatch 0 [] = .next t ∧ t.wire.cycles = s.wire.cycles + s.cfg.nLatch ∧ t.dout = .low := by
  refine ⟨_, (s.transmitAndLatch_eq_next _ _ _).2 ⟨h, hw, rfl⟩, ?_, State.dout_low ?_ (endsLow_latchRun s.cfg s)⟩
  · rw [State.setSent_wire, State.emitRuns_cycles]
    rfl
  · rw [State.setSent_dir, State.emitRuns_dir, h.1]

/-- Settles O20: each operation transmits runs that end low, whose cycles are counted from CFG alone. -/
theorem durationsDependOnConfigurationAlone : Obligations.DurationsDependOnConfigurationAlone := by
  intro s h nb nw takes
  obtain ⟨hP, -⟩ := s.cfg.bounds
  have bit (b : Bool) := State.transmit_takes h 1 (endsLow_bitRuns s.cfg b) (runsCycles_bitRuns s.cfg b)
  have byte (v : Byte) := State.transmit_takes h 8 (endsLow_byteRuns s.cfg v) (runsCycles_byteRuns s.cfg v)
  have word (x : Sample) := State.transmit_takes h 32 (endsLow_wordRuns s.cfg x) (runsCycles_wordRuns s.cfg x)
  have copies {n : Nat} (hn : 1 ≤ n) (x : Sample) :=
    State.transmit_takes h (32 * n) (endsLow_copiesOf s.cfg hn x) (runsCycles_copiesOf s.cfg n x)
  exact ⟨bit, bit false, bit true, byte, fun g r b w => ⟨word ⟨g, r, b, w⟩, word ⟨g, r, b, w⟩⟩,
    fun g r b w => copies hP ⟨g, r, b, w⟩, copies (by omega) ⟨0, 0, 0, 0⟩,
    fun hw => ⟨State.latch_takes h hw, State.latch_takes h hw⟩⟩

/-- Settles O12: `sendBit` transmits the runs of its cell, as `B0` and `B1` do, and their third region is low. -/
theorem sendBitPutsOneCellOnTheWire : Obligations.SendBitPutsOneCellOnTheWire := by
  intro b s h
  obtain ⟨t, ht, hwave, hcycles, -⟩ := State.transmit_of_linkReady h 1 (bitRuns s.cfg b)
  rw [runsWave_bitRuns] at hwave
  rw [runsCycles_bitRuns] at hcycles
  obtain ⟨hpin, hdout⟩ := State.transmit_endsLow (endsLow_bitRuns s.cfg b) ht
  refine ⟨t, ht, hwave, hcycles, hpin, hdout, ?_⟩
  cases b with
  | false => exact ht
  | true => exact ht

/-! ### What an operation can do -/

/-- The operation puts bits on the wire: it transmits, or transmits and latches. -/
def Transmits (i : Instr) (s : State) : Prop :=
  ∃ bits rs, exec i s = s.transmit bits rs ∨ exec i s = s.transmitAndLatch bits rs

/-- Every operation of R113 to R118 transmits: the last two hold the line low for a latch. -/
theorem transmits_of_isLinkOperation {i : Instr} (hi : isLinkOperation i = true) (s : State) : Transmits i s := by
  cases i with
  | b0 | b1 | sendBit | sendByte | pixelWord | writeColor | writeColorAll | clear => exact ⟨_, _, .inl rfl⟩
  | latch | latchSym => exact ⟨_, _, .inr rfl⟩
  | _ => cases hi

/-- `renderFrame` of a legal pixel count transmits its pixel words and latches (R160). -/
theorem transmits_renderFrame (n : Nat) {p : Nat} (hp : 1 ≤ p ∧ p ≤ 255) (s : State) : Transmits (.renderFrame n p) s :=
  ⟨_, _, .inr (dif_pos hp)⟩

/-- `renderFrame` of another pixel count is refused (R6). -/
theorem exec_renderFrame_illegal (n : Nat) {p : Nat} (hp : ¬ (1 ≤ p ∧ p ≤ 255)) (s : State) :
    exec (.renderFrame n p) s = .refused .invalidConfiguration := dif_neg hp

section
variable {i : Instr} {s t : State}

/-- What transmits is refused while the pin is not driven (R119). -/
theorem Transmits.refused_of_undriven (h : Transmits i s) (hdir : s.dir = false) :
    exec i s = .refused .pinNotDriven := by
  obtain ⟨bits, rs, h | h⟩ := h
  · simp [h, State.transmit, State.whenLinkReady, hdir]
  · simp [h, State.transmitAndLatch, State.whenLinkReady, hdir]

/-- What transmits is refused while interrupts are enabled (R119). -/
theorem Transmits.refused_of_interrupts (h : Transmits i s) (hdir : s.dir = true) (hie : s.ie = true) :
    exec i s = .refused .interruptsEnabled := by
  obtain ⟨bits, rs, h | h⟩ := h
  · simp [h, State.transmit, State.whenLinkReady, hdir, hie]
  · simp [h, State.transmitAndLatch, State.whenLinkReady, hdir, hie]

/-- What transmits emits runs and counts bits, and does nothing else. -/
theorem Transmits.eq_next (h : Transmits i s) (hx : exec i s = .next t) :
    LinkReady s ∧ ∃ rs n, t = (s.emitRuns rs).setSent n := by
  obtain ⟨bits, rs, h | h⟩ := h
  · obtain ⟨hready, ht⟩ := (s.transmit_eq_next _ _ _).1 (h.symm.trans hx)
    exact ⟨hready, _, _, ht⟩
  · obtain ⟨hready, -, ht⟩ := (s.transmitAndLatch_eq_next _ _ _).1 (h.symm.trans hx)
    exact ⟨hready, _, _, ht⟩

/-- A configuration code writes CFG, before the run only (R88). -/
theorem exec_configCode_eq_next (hi : isConfigCode i = true) (hx : exec i s = .next t) :
    s.seq = .init ∧ ∃ c, t = { s with cfg := c } := by
  obtain ⟨c, hc⟩ : ∃ c, exec i s = s.configure c := by
    cases i with
    | animChase | animHueBreath | animHueRotate | animSplit | animHires | convSec3 | convSec6 => exact ⟨_, rfl⟩
    | _ => cases hi
  obtain ⟨hseq, ht⟩ := (s.configure_eq_next _ _).1 (hc.symm.trans hx)
  exact ⟨hseq, c, ht⟩

/-- A pure function writes the value it returns, and nothing else (log entry 20). -/
theorem exec_pureFunction_eq_next (hi : isPureFunction i = true) (hx : exec i s = .next t) :
    ∃ v, t = { s with ret := v } := by
  have answered {v : Ret} (h : s.answer v = .next t) : ∃ v, t = { s with ret := v } := ⟨v, by cases h; rfl⟩
  cases i with
  | scale | hsv3 | hsv6 | env | ramp => exact answered hx
  | map x a b c d =>
    simp only [exec, execMap] at hx
    split at hx
    · cases hx
    · exact answered hx
  | hueOf n d =>
    simp only [exec, execHueOf] at hx
    split at hx
    · cases hx
    · exact answered hx
  | _ => cases hi

/-- No operation undoes the preconditions of R119: what transmits, the configuration codes, the pure functions and the other
pin and frame operations leave `DIR` and `IE` alone, and `init` and `setPinDirectionOutput` write them as they are. -/
theorem LinkReady.exec (h : LinkReady s) (hx : exec i s = .next t) : LinkReady t := by
  have transmits (ht : Transmits i s) : LinkReady t := by
    obtain ⟨-, rs, n, rfl⟩ := ht.eq_next hx
    simpa [LinkReady] using h
  have configures (hi : isConfigCode i = true) : LinkReady t := by
    obtain ⟨-, c, rfl⟩ := exec_configCode_eq_next hi hx
    exact h
  have answers (hi : isPureFunction i = true) : LinkReady t := by
    obtain ⟨v, rfl⟩ := exec_pureFunction_eq_next hi hx
    exact h
  cases i with
  | b0 | b1 | sendBit | sendByte | pixelWord | writeColor | writeColorAll | clear | latch | latchSym =>
    exact transmits (transmits_of_isLinkOperation rfl s)
  | renderFrame n p =>
    by_cases hp : 1 ≤ p ∧ p ≤ 255
    · exact transmits (transmits_renderFrame n hp s)
    · rw [exec_renderFrame_illegal n hp s] at hx
      cases hx
  | animChase | animHueBreath | animHueRotate | animSplit | animHires | convSec3 | convSec6 => exact configures rfl
  | map | scale | hsv3 | hsv6 | hueOf | env | ramp => exact answers rfl
  | setPinHigh | setPinLow =>
    obtain ⟨-, hnext⟩ := (s.whenDriven_eq_next _ _).1 hx
    cases hnext
    exact h
  | setPinDirectionOutput =>
    cases hx
    exact ⟨rfl, h.2⟩
  | init =>
    cases hx
    exact ⟨rfl, rfl⟩
  | delay n =>
    cases hx
    simpa [LinkReady] using h
  | tickInc =>
    cases hx
    exact h

/-- Everything the clock step can do when it answers a next state: the initialisation step, or one cycle of a run (R196). -/
theorem clockStep_eq_next (hx : clockStep s = .next t) :
    (s.seq = .init ∧ t = s.initialise) ∨
      ∃ k n, s.seq = .run k n ∧ isPosition s.cfg (.run k n) = true ∧ t = s.clockRun k n := by
  cases hseq : s.seq with
  | init =>
    simp only [clockStep, hseq, Host.Outcome.next.injEq] at hx
    exact .inl ⟨rfl, hx.symm⟩
  | run k n =>
    simp only [clockStep, hseq] at hx
    split at hx
    · next hpos =>
      cases hx
      exact .inr ⟨k, n, rfl, hpos, rfl⟩
    · cases hx

/-- The code a step takes is the one placed, and at `INIT` it is a configuration code (log entries 14, 15). -/
theorem State.codeToRun_eq_some {c : Code} :
    s.codeToRun = some c ↔ s.code = some c ∧ (s.seq = .init → c.isConfig = true) := by
  unfold State.codeToRun
  cases s.code with
  | none => simp
  | some d =>
    by_cases hwait : s.seq = .init ∧ d.isConfig = false
    · simp only [if_pos hwait, reduceCtorEq, Option.some.injEq, false_iff]
      rintro ⟨rfl, hconfig⟩
      exact absurd (hconfig hwait.1) (by simp [hwait.2])
    · simp only [if_neg hwait, Option.some.injEq]
      refine ⟨?_, And.left⟩
      rintro rfl
      simpa using hwait

/-- Everything a step with reset released can do when it answers a next state: the clock step, or the operation placed, which at
`INIT` is a configuration code (log entries 14, 15). -/
theorem step_eq_next (hrst : s.rstN = true) (hx : step s = .next t) :
    clockStep s = .next t ∨
      ∃ c i, s.code = some c ∧ (s.seq = .init → c.isConfig = true) ∧ decode c = .ok i ∧
        exec i { s with code := none } = .next t := by
  rw [step, if_neg (by simp [hrst])] at hx
  split at hx
  · exact .inl hx
  · next c hc =>
    obtain ⟨hcode, hconfig⟩ := State.codeToRun_eq_some.1 hc
    split at hx
    · next i hi => exact .inr ⟨c, i, hcode, hconfig, hi, hx⟩
    · cases hx

/-- With reset released, every step keeps the preconditions of R119. -/
theorem LinkReady.step (h : LinkReady s) (hrst : s.rstN = true) (hx : step s = .next t) : LinkReady t := by
  obtain hclock | ⟨-, i, -, -, -, hexec⟩ := step_eq_next hrst hx
  · obtain ⟨-, rfl⟩ | ⟨k, n, -, -, rfl⟩ := clockStep_eq_next hclock
    · exact ⟨rfl, rfl⟩
    · simpa [LinkReady] using h
  · exact LinkReady.exec (s := { s with code := none }) h hexec

end

/-- Settles O18: what transmits asks for both; the initialisation step establishes both, and every later step keeps them. -/
theorem linkOperationsNeedDrivenPinAndMaskedInterrupts : Obligations.LinkOperationsNeedDrivenPinAndMaskedInterrupts := by
  refine ⟨fun i s hi => ?_, fun s t hs hseq hx => ?_, fun s t hrst _ h hx => h.step hrst hx⟩
  · have ht : Transmits i s := by
      obtain hi | ⟨n, p, rfl, hp⟩ := hi
      · exact transmits_of_isLinkOperation hi s
      · exact transmits_renderFrame n hp s
    exact ⟨ht.refused_of_undriven, ht.refused_of_interrupts⟩
  · rw [step_alone s hs, clockStep, hseq] at hx
    cases hx
    exact ⟨rfl, rfl⟩

end Sys2Proof.Machine
end

section
/-! Pixel words over a quiet chain: one word fills one slot, and words in a row fill as many as they are (R51, R115 to
R117). -/

namespace Sys2Proof.Machine

/-! ### Words over a quiet line -/

section
variable {c : Cfg} {t : State} {d : Memory} {rx : List PixelWord}

/-- A pixel word over a quiet line is received whole, and the line is quiet after it (R59, R83, R246). -/
theorem Tracked.word (x : Sample) (h : Tracked c t (rx, []) d) (hq : LineQuiet c t.chain.line) (hL : NoEarlyLatch c) :
    Tracked c (t.emitRuns (wordRuns c x)) (rx ++ [packSample x], []) d ∧
      LineQuiet c (t.emitRuns (wordRuns c x)).chain.line := by
  have hbounds := c.bounds
  have hbyte : c.n2 + c.n3 + c.gByte ≤ c.nRstLo := by omega
  simp only [wordRuns, State.emitRuns_append]
  obtain ⟨hg, lowg⟩ := h.byte x.g hq hbyte
  obtain ⟨hr, lowr⟩ := hg.byte x.r (lowg.quiet hbyte) hbyte
  obtain ⟨hb, lowb⟩ := hr.byte x.b (lowr.quiet hbyte) hbyte
  obtain ⟨hw, loww⟩ := hb.byte x.w (lowb.quiet hbyte) hbyte
  rw [pushBit_word] at hw
  obtain ⟨hgap, lowgap⟩ := hw.gap loww c.gPixel (by omega)
  exact ⟨hgap, lowgap.quiet hL⟩

/-- Pixel words in a row over a quiet line are received in order. -/
theorem Tracked.words (xs : List Sample) (h : Tracked c t (rx, []) d) (hq : LineQuiet c t.chain.line)
    (hL : NoEarlyLatch c) :
    Tracked c (t.emitRuns (xs.flatMap (wordRuns c))) (rx ++ xs.map packSample, []) d ∧
      LineQuiet c (t.emitRuns (xs.flatMap (wordRuns c))).chain.line := by
  induction xs generalizing t rx with
  | nil => simpa using ⟨h, hq⟩
  | cons x xs ih =>
    obtain ⟨hx, hqx⟩ := h.word x hq hL
    simpa [State.emitRuns_append] using ih hx hqx

end

/-- Over a quiet chain, pixel words in a row fill the next slots in order, latch nothing and leave the chain quiet (R51). -/
theorem State.emitRuns_words_chain {s : State} (hdir : s.dir = true) (hL : NoEarlyLatch s.cfg)
    (hq : ChainQuiet s.cfg s.chain) (xs : List Sample) :
    (s.emitRuns (xs.flatMap (wordRuns s.cfg))).chain.rx = s.chain.rx ++ xs.map packSample ∧
      (s.emitRuns (xs.flatMap (wordRuns s.cfg))).chain.disp = s.chain.disp ∧
      ChainQuiet s.cfg (s.emitRuns (xs.flatMap (wordRuns s.cfg))).chain := by
  obtain ⟨hstatus, hpart, hline⟩ := hq
  have h : Tracked s.cfg s (s.chain.rx, []) s.chain.disp := ⟨hdir, rfl, hstatus, rfl, hpart, rfl⟩
  obtain ⟨hwords, hquiet⟩ := h.words xs hline hL
  exact ⟨hwords.rx, hwords.disp, hwords.status, hwords.part, hquiet⟩

/-! ### One word and copies of it -/

/-- Settles O14: `writeColor` transmits its word, which the receiver reads whole between its own quiet lines. -/
theorem writeColorFillsExactlyOneSlot : Obligations.WriteColorFillsExactlyOneSlot := by
  intro g r b w s h
  obtain ⟨t, ht, hwave, hcycles, hsent⟩ := State.transmit_of_linkReady h 32 (wordRuns s.cfg ⟨g, r, b, w⟩)
  rw [runsWave_wordRuns] at hwave
  rw [runsCycles_wordRuns] at hcycles
  refine ⟨rfl, t, ht, hwave, hcycles, hsent, fun hL hq => ?_⟩
  obtain ⟨-, rfl⟩ := (s.transmit_eq_next _ _ _).1 ht
  have hchain := State.emitRuns_words_chain h.1 hL hq [⟨g, r, b, w⟩]
  rw [List.flatMap_singleton, List.map_singleton] at hchain
  rw [State.setSent_chain]
  exact hchain

/-- Transmitting copies of a pixel word is sending it so many times (R93, R116). -/
theorem State.transmit_copiesOf {s : State} (h : LinkReady s) (n : Nat) (x : Sample) :
    s.transmit (32 * n) (copiesOf s.cfg n x) = execAll (List.replicate n (.writeColor x.g x.r x.b x.w)) s := by
  have hexec (y : Sample) (u : State) : exec (.writeColor y.g y.r y.b y.w) u = u.transmit 32 (wordRuns u.cfg y) := rfl
  have hall := execAll_map_of_transmit hexec (List.replicate n x) h
  rw [List.map_replicate, List.length_replicate, ← copiesOf_eq_flatMap] at hall
  rw [hall, State.transmit_eq_next]
  exact ⟨h, rfl⟩

/-- Transmitting copies of a pixel word completes in so many words' cycles and bits; over a quiet chain it fills so many
slots, and it does not latch (R116, R117). -/
theorem State.transmit_copiesOf_of_linkReady {s : State} (h : LinkReady s) (n : Nat) (x : Sample) :
    ∃ t, s.transmit (32 * n) (copiesOf s.cfg n x) = .next t ∧ t.sent = s.sent + 32 * n ∧
      t.wire.cycles = s.wire.cycles + n * wordCycles s.cfg ∧
      (NoEarlyLatch s.cfg → ChainQuiet s.cfg s.chain →
        t.chain.rx = s.chain.rx ++ List.replicate n (packSample x) ∧ t.chain.disp = s.chain.disp) := by
  obtain ⟨t, ht, -, hcycles, hsent⟩ := State.transmit_of_linkReady h (32 * n) (copiesOf s.cfg n x)
  rw [runsCycles_copiesOf] at hcycles
  refine ⟨t, ht, hsent, hcycles, fun hL hq => ?_⟩
  obtain ⟨-, rfl⟩ := (s.transmit_eq_next _ _ _).1 ht
  obtain ⟨hrx, hdisp, -⟩ := State.emitRuns_words_chain h.1 hL hq (List.replicate n x)
  rw [List.map_replicate, ← copiesOf_eq_flatMap] at hrx
  rw [← copiesOf_eq_flatMap] at hdisp
  exact ⟨hrx, hdisp⟩

/-- Settles O16: both transmit copies of one word, `P` of the word given and `3*P` of the word 0. -/
theorem broadcastAndClearRepeatWriteColor : Obligations.BroadcastAndClearRepeatWriteColor := by
  intro s h
  refine ⟨fun g r b w => ⟨rfl, ?_, ?_⟩, rfl, ?_, ?_⟩
  · exact State.transmit_copiesOf h s.cfg.pixels ⟨g, r, b, w⟩
  · exact State.transmit_copiesOf_of_linkReady h s.cfg.pixels ⟨g, r, b, w⟩
  · exact State.transmit_copiesOf h (3 * s.cfg.pixels) ⟨0, 0, 0, 0⟩
  · exact State.transmit_copiesOf_of_linkReady h (3 * s.cfg.pixels) ⟨0, 0, 0, 0⟩

end Sys2Proof.Machine
end

section
/-! Colour-space conversion in closed form: `map` by signs and magnitudes, `scale` as a product over 255, the three arcs of
`hsv3` and the six of `hsv6`, and where the two conversions meet (R140, R142 to R147). -/

namespace Sys2Proof.Machine

/-! ### `map` (R140) -/

/-- Division truncated toward zero divides the magnitudes and multiplies the signs. -/
theorem tdiv_eq_sign_mul_natAbs_div (y m : Int) :
    y.tdiv m = y.sign * m.sign * ((y.natAbs / m.natAbs : Nat) : Int) := by
  rw [← Int.sign_mul_natAbs (y.tdiv m), Int.sign_tdiv, Int.natAbs_tdiv]
  split
  · next hlt => rw [Nat.div_eq_of_lt hlt, zero_mul, Nat.cast_zero, mul_zero]
  · rfl

/-- Settles O27: equal ends of the input range are refused, and otherwise the quotient is the one by signs and magnitudes. -/
theorem mapTruncatesTowardZero : Obligations.MapTruncatesTowardZero := by
  intro x a b c d s q
  refine ⟨fun hab => ?_, fun hab => if_pos hab⟩
  have hvalue : remap x a b c d = c + Int.sign ((x - a) * (d - c)) * Int.sign (b - a) * q := by
    rw [remap, tdiv_eq_sign_mul_natAbs_div]
  rw [← hvalue]
  exact if_neg hab

/-! ### `scale` (R142) -/

/-- A channel is at most 255, so its product with the value, over 255, is at most the value. -/
theorem mul_div_255_le (c v : Byte) : c.toNat * v.toNat / 255 ≤ v.toNat :=
  mul_div_le_of_le _ _ _ (Nat.le_of_lt_succ c.isLt)

/-- `scale` is the product over 255 (R142). -/
@[simp] theorem scale_toNat (c v : Byte) : (scale c v).toNat = c.toNat * v.toNat / 255 := by
  have hremap : remap c.toNat 0 255 0 v.toNat = _ := remap_up c.toNat 255 v.toNat
  rw [scale, hremap]
  exact toByte_toNat _ ((mul_div_255_le c v).trans_lt v.isLt)

/-- A scaled channel is at most the value (R142, R146). -/
theorem scale_le (c v : Byte) : scale c v ≤ v := by
  rw [BitVec.le_def, scale_toNat]
  exact mul_div_255_le c v

/-- A channel at 0 stays at 0. -/
@[simp] theorem scale_zero (v : Byte) : scale 0#8 v = 0#8 := BitVec.eq_of_toNat_eq (by simp)

/-- A full channel is scaled to the value. -/
@[simp] theorem scale_full (v : Byte) : scale 255#8 v = v := BitVec.eq_of_toNat_eq (by simp)

/-- The full value leaves a channel as it is. -/
@[simp] theorem scale_fullValue (c : Byte) : scale c 255#8 = c := BitVec.eq_of_toNat_eq (by simp)

/-- The full value leaves a colour as it is. -/
@[simp] theorem scaleRgb_fullValue (x : Rgb) : scaleRgb x 255#8 = x := by simp [scaleRgb]

/-- At full value `hsv3` is its arcs (R143). -/
theorem hsv3_fullValue (h sat : Byte) : hsv3 h sat 255 = hue3 h := scaleRgb_fullValue _

/-- At full value `hsv6` is its arcs (R144). -/
theorem hsv6_fullValue (h sat : Byte) : hsv6 h sat 255 = hue6 h := scaleRgb_fullValue _

/-- Settles O29: `scale` answers the product over 255, which is also what `map` gives. -/
theorem scaleIsProductOver255 : Obligations.ScaleIsProductOver255 := by
  intro c v s
  refine ⟨scale c v, rfl, scale_toNat c v, scale_le c v, ?_⟩
  rw [scale_toNat]
  exact (remap_up c.toNat 255 v.toNat).symm

/-! ### The three arcs (R143) -/

section
variable {x a : Nat} (ha : a ≤ x) (hx : x ≤ a + 85)
include ha hx

/-- The rising channel of the arc of 85 hues from `a` (R143). -/
theorem toByte_remap_rising_arc : (toByte (remap x a (a + 85 : Nat) 0 255)).toNat = 3 * (x - a) := by
  have hremap : remap x a (a + 85 : Nat) 0 255 = (3 * (x - a) : Nat) := by
    have := remap_rising x a (a + 85) 0 255 (by omega) ha (by omega)
    rw [Nat.add_sub_cancel_left] at this
    push_cast at this ⊢
    omega
  rw [hremap, toByte_toNat _ (by omega)]

/-- The falling channel of the arc of 85 hues from `a` (R143). -/
theorem toByte_remap_falling_arc : (toByte (remap x a (a + 85 : Nat) 255 0)).toNat = 255 - 3 * (x - a) := by
  have hremap : remap x a (a + 85 : Nat) 255 0 = (255 - 3 * (x - a) : Nat) := by
    have := remap_falling x a (a + 85) 0 255 (by omega) ha (by omega)
    rw [Nat.add_sub_cancel_left] at this
    push_cast at this ⊢
    omega
  rw [hremap, toByte_toNat _ (by omega)]

end

section
variable {h : Byte}

/-- The first arc of `hsv3` at full value, from red to green (R143). -/
theorem hue3_first_arc (hhi : h.toNat < 85) :
    (hue3 h).r.toNat = 255 - 3 * h.toNat ∧ (hue3 h).g.toNat = 3 * h.toNat ∧ (hue3 h).b = 0 := by
  have hspan : h.toNat ≤ 0 + 85 := by omega
  rw [hue3, if_pos hhi]
  exact ⟨toByte_remap_falling_arc (Nat.zero_le _) hspan, toByte_remap_rising_arc (Nat.zero_le _) hspan, rfl⟩

/-- The second arc of `hsv3` at full value, from green to blue (R143). -/
theorem hue3_second_arc (hlo : 85 ≤ h.toNat) (hhi : h.toNat < 170) :
    (hue3 h).r = 0 ∧ (hue3 h).g.toNat = 255 - 3 * (h.toNat - 85) ∧ (hue3 h).b.toNat = 3 * (h.toNat - 85) := by
  have hspan : h.toNat ≤ 85 + 85 := by omega
  rw [hue3, if_neg hlo.not_gt, if_pos hhi]
  exact ⟨rfl, toByte_remap_falling_arc hlo hspan, toByte_remap_rising_arc hlo hspan⟩

/-- The third arc of `hsv3` at full value, from blue to red (R143). -/
theorem hue3_third_arc (hlo : 170 ≤ h.toNat) :
    (hue3 h).r.toNat = 3 * (h.toNat - 170) ∧ (hue3 h).g = 0 ∧ (hue3 h).b.toNat = 255 - 3 * (h.toNat - 170) := by
  have hspan : h.toNat ≤ 170 + 85 := Nat.le_of_lt_succ h.isLt
  rw [hue3, if_neg (by omega), if_neg (by omega)]
  exact ⟨toByte_remap_rising_arc hlo hspan, rfl, toByte_remap_falling_arc hlo hspan⟩

end

/-- Settles O30: the channels of each arc in closed form, each scaled. -/
theorem threeSectorArcs : Obligations.ThreeSectorArcs := by
  intro h sat v s
  refine ⟨hsv3 h sat v, rfl, fun hhi => ?_, fun hlo hhi => ?_, fun hlo => ?_⟩
  · obtain ⟨hr, hg, hb⟩ := hue3_first_arc hhi
    simp [hsv3, scaleRgb, hr, hg, hb]
  · obtain ⟨hr, hg, hb⟩ := hue3_second_arc hlo hhi
    simp [hsv3, scaleRgb, hr, hg, hb]
  · obtain ⟨hr, hg, hb⟩ := hue3_third_arc hlo
    simp [hsv3, scaleRgb, hr, hg, hb]

/-! ### The six arcs (R144) -/

/-- The falling channel is what the rising one leaves of 255 (R144). -/
theorem toNat_full_sub (up : Byte) : (255#8 - up).toNat = 255 - up.toNat := by
  bv_omega

/-- An offset inside a sector is a byte. -/
theorem toNat_offset {off : Nat} (hoff : off < 255) : (BitVec.ofNat 8 off).toNat = off :=
  Nat.mod_eq_of_lt (hoff.trans (by decide))

section
variable {h : Byte} {sec off : Nat} (hx : 6 * h.toNat = 255 * sec + off) (hoff : off < 255)
include hx hoff

/-- `6*h` ends with sector 6, where hue 255 stands alone (R144). -/
theorem sector_bounds : sec ≤ 6 ∧ (sec = 6 → off = 0) := by
  have := h.isLt
  omega

/-- Six times the hue, cut every 255, gives the sector and the offset in it; hue 255 is sector 0 again (R144). -/
theorem hue6_eq_sectorRgb : hue6 h = sectorRgb (sec % 6) (BitVec.ofNat 8 off) := by
  obtain ⟨hle, -⟩ := sector_bounds hx hoff
  have hdiv : 6 * h.toNat / 255 = sec := by omega
  have hmod : 6 * h.toNat % 255 = off := by omega
  have hsec : (if sec = 6 then 0 else sec) = sec % 6 := by split <;> omega
  simp only [hue6, hdiv, hmod, hsec]

end

/-- Settles O31: each of the seven sectors that `6*h` reaches has its row of the sector table, scaled. -/
theorem sixSectorArcs : Obligations.SixSectorArcs := by
  intro h sat v s
  refine ⟨hsv6 h sat v, rfl, fun sec off hx hoff => ?_⟩
  obtain ⟨-, hlast⟩ := sector_bounds hx hoff
  have hup := toNat_offset hoff
  rw [hsv6, hue6_eq_sectorRgb hx hoff]
  generalize BitVec.ofNat 8 off = up at hup
  refine ⟨?_, ?_, ?_, ?_, ?_, ?_, ?_⟩ <;> rintro rfl
  case refine_7 => simp [sectorRgb, scaleRgb, hup, hlast rfl]
  all_goals simp [-BitVec.toNat_sub, toNat_full_sub, sectorRgb, scaleRgb, hup]

/-! ### Where the conversions meet (R145 to R147) -/

/-- The sum of the three channels of a colour. -/
def channelSum (x : Rgb) : Nat := x.r.toNat + x.g.toNat + x.b.toNat

/-- `hsv3` holds its third channel at 0 and moves the other two against each other: they always add up to one full channel
(R147). -/
theorem channelSum_hue3 (h : Byte) : channelSum (hue3 h) = 255 := by
  have hh := h.isLt
  rcases lt_or_ge h.toNat 85 with hlo | hlo
  · obtain ⟨hr, hg, hb⟩ := hue3_first_arc hlo
    rw [channelSum, hr, hg, hb, BitVec.ofNat_eq_ofNat, BitVec.toNat_zero]
    omega
  rcases lt_or_ge h.toNat 170 with hmid | hmid
  · obtain ⟨hr, hg, hb⟩ := hue3_second_arc hlo hmid
    rw [channelSum, hr, hg, hb, BitVec.ofNat_eq_ofNat, BitVec.toNat_zero]
    omega
  · obtain ⟨hr, hg, hb⟩ := hue3_third_arc hmid
    rw [channelSum, hr, hg, hb, BitVec.ofNat_eq_ofNat, BitVec.toNat_zero]
    omega

/-- `hsv6` holds one channel at 255 and one at 0, so the third is what the sum has above one full channel: it rises in the even
sectors and falls in the odd ones (R144, R147). -/
theorem channelSum_sectorRgb {sec : Nat} (hsec : sec ≤ 5) (up : Byte) :
    channelSum (sectorRgb sec up) = 255 + if sec % 2 = 0 then up.toNat else 255 - up.toNat := by
  have hup := up.isLt
  interval_cases sec <;> simp [-BitVec.toNat_sub, toNat_full_sub, channelSum, sectorRgb] <;> omega

/-- The channels of `hsv6` at full value add up to one full channel at the start of the even sectors only (R147). -/
theorem hue_of_channelSum_hue6 {h : Byte} (hsum : channelSum (hue6 h) = 255) : h = 0 ∨ h = 85 ∨ h = 170 ∨ h = 255 := by
  obtain ⟨sec, off, hx, hoff⟩ : ∃ sec off, 6 * h.toNat = 255 * sec + off ∧ off < 255 :=
    ⟨_, _, (Nat.div_add_mod _ 255).symm, Nat.mod_lt _ (by decide)⟩
  obtain ⟨hle, -⟩ := sector_bounds hx hoff
  have hsec : sec % 6 ≤ 5 := Nat.le_of_lt_succ (Nat.mod_lt _ (by decide))
  rw [hue6_eq_sectorRgb hx hoff, channelSum_sectorRgb hsec, toNat_offset hoff] at hsum
  obtain ⟨⟨j, rfl⟩, rfl⟩ : 2 ∣ sec ∧ off = 0 := by
    split at hsum
    · next heven => exact ⟨by omega, by omega⟩
    · omega
  have hhue : h = BitVec.ofNat 8 (85 * j) := BitVec.eq_of_toNat_eq (by rw [BitVec.toNat_ofNat]; omega)
  have hj : j ≤ 3 := by omega
  rw [hhue]
  interval_cases j <;> simp

/-- Settles O32: only the sums of the channels are compared, since at a hue where the conversions agree the sum of `hsv6` is
that of `hsv3`, one full channel. -/
theorem conversionsMeetAtSeamsAndStayDistinct : Obligations.ConversionsMeetAtSeamsAndStayDistinct := by
  refine ⟨fun _ _ _ _ => ⟨rfl, rfl⟩, fun h sat v => ?_, ⟨rfl, rfl, ?_⟩, fun sec hsec => ?_, fun h sat => ?_⟩
  · exact ⟨scale_le _ v, scale_le _ v, scale_le _ v, scale_le _ v, scale_le _ v, scale_le _ v⟩
  · simp [hue3, remap, toByte]
  · interval_cases sec <;> rfl
  · rw [hsv3_fullValue, hsv6_fullValue]
    refine ⟨fun heq => hue_of_channelSum_hue6 (heq ▸ channelSum_hue3 h), ?_⟩
    rintro (rfl | rfl | rfl | rfl) <;> simp [hue3, hue6, remap, toByte, sectorRgb]

end Sys2Proof.Machine
end

section
/-! The values the strategies are made of, in closed form: the hue of a tick, the envelope, and the ramp of a sweep front
(R162, R165, R169). -/

/-- The durations a valid configuration guarantees, and the order of its white levels (R5, R6). -/
theorem Sys2Proof.Cfg.durations (c : Sys2Proof.Cfg) : 1 ≤ c.chaseStep ∧ 1 ≤ c.dRot ∧ 1 ≤ c.dBHue ∧ 1 ≤ c.brRise ∧
    1 ≤ c.dSplit ∧ 1 ≤ c.dHires ∧ c.brWMin.toNat ≤ c.brWMax.toNat := by
  obtain ⟨-, -, hchase, hrot, hbreath, hrise, -, hwhite, hsplit, hhires, -⟩ := c.ok
  exact ⟨hchase, hrot, hbreath, hrise, hsplit, hhires, hwhite⟩

namespace Sys2Proof.Machine

/-! ### The hue of a tick (R162) -/

/-- A tick's phase, a part of its duration, stays below the whole of any range it is mapped onto. -/
theorem phase_mul_div_lt (t : Nat) {d m : Nat} (hd : 1 ≤ d) (hm : 1 ≤ m) : t % d * m / d < m :=
  Nat.div_lt_of_lt_mul (Nat.mul_lt_mul_of_pos_right (Nat.mod_lt t hd) hm)

/-- The hue is the tick's phase, mapped onto 0..255 (R162). -/
theorem hueOf_toNat (t : Nat) {d : Nat} (hd : 1 ≤ d) : (hueOf t d).toNat = t % d * 255 / d := by
  have hlt : t % d * 255 / d < 255 := phase_mul_div_lt t hd (by decide)
  have hremap : remap (t % d : Nat) 0 d 0 255 = _ := remap_up (t % d) d 255
  rw [hueOf, hremap]
  exact toByte_toNat _ (by omega)

/-- Hue 255 is never reached (R162). -/
theorem hueOf_le (t : Nat) {d : Nat} (hd : 1 ≤ d) : (hueOf t d).toNat ≤ 254 := by
  rw [hueOf_toNat t hd]
  exact Nat.le_of_lt_succ (phase_mul_div_lt t hd (by decide))

/-- The hue is the byte that holds the phase. -/
theorem hueOf_eq {t d : Nat} {h : Byte} (hd : 1 ≤ d) (hh : h.toNat = t % d * 255 / d) : hueOf t d = h :=
  BitVec.eq_of_toNat_eq ((hueOf_toNat t hd).trans hh.symm)

/-- Settles O33: the `map` of R162 goes upward from 0, so it is a product over the duration. -/
theorem hueOfIsTickPhase : Obligations.HueOfIsTickPhase := by
  intro t d s hd
  have hne : d ≠ 0 := by omega
  exact ⟨hueOf t d, if_neg hne, hueOf_toNat t hd, hueOf_le t hd⟩

/-! ### The envelope (R165) -/

section
variable {e a n : Nat} {lo hi : Byte} (hlevels : lo.toNat ≤ hi.toNat) (ha : a ≤ e) (hn : e ≤ n)
include hlevels ha hn

/-- A position between `a` and `n`, mapped onto a rising range of bytes (R140). -/
theorem toByte_remap_rising : (toByte (remap e a n lo.toNat hi.toNat)).toNat =
    lo.toNat + (e - a) * (hi.toNat - lo.toNat) / (n - a) := by
  have hpart := mul_div_le_of_le (e - a) (hi.toNat - lo.toNat) (n - a) (by omega)
  have hbyte := hi.isLt
  rw [remap_rising e a n _ _ hlevels ha (ha.trans hn)]
  exact toByte_toNat _ (by omega)

/-- A position between `a` and `n`, mapped onto a falling range of bytes (R140). -/
theorem toByte_remap_falling : (toByte (remap e a n hi.toNat lo.toNat)).toNat =
    hi.toNat - (e - a) * (hi.toNat - lo.toNat) / (n - a) := by
  have hpart := mul_div_le_of_le (e - a) (hi.toNat - lo.toNat) (n - a) (by omega)
  rw [remap_falling e a n _ _ hlevels ha (ha.trans hn), ← Nat.cast_sub (hpart.trans (Nat.sub_le _ _))]
  exact toByte_toNat _ ((Nat.sub_le _ _).trans_lt hi.isLt)

end

section
variable (c : Cfg) {e : Nat}

/-- The first segment rises from the floor (R165). -/
theorem envSegments_rising (he : e < c.brRise) : (envSegments c e).toNat =
    c.brWMin.toNat + e * (c.brWMax.toNat - c.brWMin.toNat) / c.brRise := by
  obtain ⟨-, -, -, -, -, -, hlevels⟩ := c.durations
  rw [envSegments, if_pos he]
  exact toByte_remap_rising hlevels (Nat.zero_le e) he.le

/-- The second segment holds the peak (R165). -/
theorem envSegments_plateau (hlo : c.brRise ≤ e) (hhi : e < c.brRise + c.brHold) : envSegments c e = c.brWMax := by
  rw [envSegments, if_neg hlo.not_gt, if_pos hhi]

/-- The third segment falls from the peak (R165). -/
theorem envSegments_falling (hlo : c.brRise + c.brHold ≤ e) (hhi : e < c.brRise + c.brHold + c.brFall) :
    (envSegments c e).toNat = c.brWMax.toNat - (e - (c.brRise + c.brHold)) * (c.brWMax.toNat - c.brWMin.toNat) /
      (c.brRise + c.brHold + c.brFall - (c.brRise + c.brHold)) := by
  obtain ⟨-, -, -, -, -, -, hlevels⟩ := c.durations
  rw [envSegments, if_neg (by omega), if_neg hlo.not_gt, if_pos hhi]
  exact toByte_remap_falling hlevels hlo hhi.le

/-- The last segment holds the floor (R165). -/
theorem envSegments_pause (hlo : c.brRise + c.brHold + c.brFall ≤ e) : envSegments c e = c.brWMin := by
  rw [envSegments, if_neg (by omega), if_neg (by omega), if_neg hlo.not_gt]

/-- In every segment the envelope stays between its floor and its peak (R165). -/
theorem envSegments_bounds (e : Nat) :
    c.brWMin.toNat ≤ (envSegments c e).toNat ∧ (envSegments c e).toNat ≤ c.brWMax.toNat := by
  obtain ⟨-, -, -, -, -, -, hlevels⟩ := c.durations
  rcases lt_or_ge e c.brRise with hrise | hrise
  · have hpart := mul_div_le_of_le e (c.brWMax.toNat - c.brWMin.toNat) c.brRise hrise.le
    rw [envSegments_rising c hrise]
    generalize e * _ / _ = part at hpart ⊢
    omega
  rcases lt_or_ge e (c.brRise + c.brHold) with hhold | hhold
  · rw [envSegments_plateau c hrise hhold]
    exact ⟨hlevels, le_rfl⟩
  rcases lt_or_ge e (c.brRise + c.brHold + c.brFall) with hfall | hfall
  · have hpart := mul_div_le_of_le (e - (c.brRise + c.brHold)) (c.brWMax.toNat - c.brWMin.toNat)
      (c.brRise + c.brHold + c.brFall - (c.brRise + c.brHold)) (by omega)
    rw [envSegments_falling c hhold hfall]
    generalize (e - _) * _ / _ = part at hpart ⊢
    omega
  · rw [envSegments_pause c hfall]
    exact ⟨le_rfl, hlevels⟩

/-- Inside a breath period the envelope is its segments (R165). -/
theorem env_eq_envSegments (he : e < brPeriod c) : env c e = envSegments c e := if_pos he

end

/-- Settles O34: inside the period `env` answers the segment the position lies in. -/
theorem envelopeSegments : Obligations.EnvelopeSegments := by
  intro e s lo hi a b c he
  have henv : env s.cfg e = envSegments s.cfg e := env_eq_envSegments s.cfg he
  refine ⟨envSegments s.cfg e, ?_, envSegments_rising s.cfg, fun hlo hhi => ?_, envSegments_falling s.cfg, fun hlo => ?_,
    envSegments_bounds s.cfg e⟩
  · rw [← henv]
    rfl
  · exact congrArg BitVec.toNat (envSegments_plateau s.cfg hlo hhi)
  · exact congrArg BitVec.toNat (envSegments_pause s.cfg hlo)

/-! ### The ramp (R169) -/

/-- With the front at pixel `front` and the fraction `frac`: full behind the front, the fraction at it, dark ahead (R169). -/
theorem ramp_toNat {c : Cfg} {i front frac : Nat} (hfrac : frac < 255) (hi : i < c.pixels) (hfront : front < c.pixels) :
    (ramp c i (255 * front + frac)).toNat = if i < front then 255 else if i = front then frac else 0 := by
  have hdiv : (255 * front + frac) / 255 = front := by omega
  have hmod : (255 * front + frac) % 255 = frac := by omega
  have hdomain : i < c.pixels ∧ 255 * front + frac < 255 * c.pixels := by omega
  rw [ramp, if_pos hdomain, rampCases, hdiv, hmod]
  rcases lt_trichotomy i front with hlt | rfl | hgt
  · rw [if_pos hlt, if_pos hlt]
    rfl
  · rw [if_neg (lt_irrefl i), if_pos rfl, if_neg (lt_irrefl i), if_pos rfl, toNat_offset hfrac]
  · rw [if_neg hgt.not_gt, if_neg hgt.ne', if_neg hgt.not_gt, if_neg hgt.ne']
    rfl

/-- Settles O35: the position splits into front and fraction at multiples of 255. -/
theorem rampFollowsTheFront : Obligations.RampFollowsTheFront := by
  intro i front frac s hfrac hi hp
  have hfront : front < s.cfg.pixels := by omega
  have hramp := ramp_toNat hfrac hi hfront
  refine ⟨ramp s.cfg i (255 * front + frac), rfl, fun hlt => ?_, fun heq => ?_, fun hgt => ?_, by omega⟩
  · rw [if_pos hlt] at hramp
    exact BitVec.eq_of_toNat_eq hramp
  · rwa [if_neg heq.not_lt, if_pos heq] at hramp
  · rw [if_neg hgt.not_gt, if_neg hgt.ne'] at hramp
    exact BitVec.eq_of_toNat_eq hramp

end Sys2Proof.Machine
end

section
/-! The five strategies: what each shows at a tick inside its domain, and that it repeats after its period (R163 to R168,
R171). -/

namespace Sys2Proof.Machine

/-! ### Chase (R163) -/

/-- At a tick written by step `P * m + w` and remainder, `w` is the sweep count and `m` counts the primaries (R163). -/
theorem colorChase_eq (c : Cfg) {m w r : Nat} (hw : w < c.pixels) (hr : r < c.chaseStep) (i : Nat) :
    colorChase c (c.chaseStep * (c.pixels * m + w) + r) i =
      sampleOfRgb (primary (if i < w then m % 3 else (m + 2) % 3)) 0 := by
  obtain ⟨hstep, -⟩ :=
    (Nat.div_mod_unique (Nat.zero_lt_of_lt hr)).2 ⟨Nat.add_comm r (c.chaseStep * (c.pixels * m + w)), hr⟩
  obtain ⟨hphase, hsweep⟩ := (Nat.div_mod_unique (Nat.zero_lt_of_lt hw)).2 ⟨Nat.add_comm w (c.pixels * m), hw⟩
  simp only [colorChase, hstep, hsweep, hphase, Nat.mod_add_mod, apply_ite primary]

/-- A primary as a sample, white 0 (R163). -/
theorem sampleOfRgb_primary {n : Nat} (hn : n < 3) : sampleOfRgb (primary n) 0 =
    if n = 0 then ⟨0, 255, 0, 0⟩ else if n = 1 then ⟨255, 0, 0, 0⟩ else ⟨0, 0, 255, 0⟩ := by
  interval_cases n <;> rfl

/-- Settles O39: the tick taken apart by step and pixel count, and the primaries listed. -/
theorem chaseSweepsPrimaryColours : Obligations.ChaseSweepsPrimaryColours := by
  intro c m w r i hsel hw hr hi ht
  have hnow : (if i < w then m % 3 else (m + 2) % 3) < 3 := by split <;> omega
  rw [color_eq_strategy _ _ _ ht hi, strategy, hsel]
  exact (colorChase_eq c hw hr i).trans (sampleOfRgb_primary hnow)

/-! ### Hue breath (R164) -/

/-- A breath period is at least one tick long, since it rises (R5, R164). -/
theorem brPeriod_pos (c : Cfg) : 0 < brPeriod c := by
  obtain ⟨-, -, -, hrise, -⟩ := c.durations
  rw [brPeriod]
  omega

/-- The envelope is always read inside its domain (R164). -/
theorem env_mod_brPeriod (c : Cfg) (t : Nat) : env c (t % brPeriod c) = envSegments c (t % brPeriod c) :=
  env_eq_envSegments c (Nat.mod_lt t (brPeriod_pos c))

/-- Settles O40: the hue and the envelope are those of the tick, whatever the pixel. -/
theorem breathIsHueWithEnvelopeWhite : Obligations.BreathIsHueWithEnvelopeWhite := by
  intro c t i h hsel ht hi hh
  obtain ⟨-, -, hd, -⟩ := c.durations
  have hcolor : color c t i = sampleOfRgb (hsv6 h 255 c.brValue) (envSegments c (t % brPeriod c)) := by
    rw [color_eq_strategy _ _ _ ht hi, strategy, hsel, ← env_mod_brPeriod, ← hueOf_eq hd hh]
    rfl
  rw [hcolor]
  exact ⟨rfl, rfl, rfl, rfl, envSegments_bounds c _⟩

/-! ### Hue rotate (R166) -/

/-- Every pixel shows the converted hue of the tick, white 0 (R166). -/
theorem color_hueRotate {c : Cfg} {t i : Nat} {h : Byte} (hsel : c.animSel = .hueRotate) (ht : t < 2 ^ c.tickBits)
    (hi : i < c.pixels) (hh : h.toNat = t % c.dRot * 255 / c.dRot) : color c t i = sampleOfRgb (convert c h 255) 0 := by
  obtain ⟨-, hd, -⟩ := c.durations
  rw [color_eq_strategy _ _ _ ht hi, strategy, hsel, ← hueOf_eq hd hh]
  rfl

/-- Three-sector conversion (R88, R143). -/
theorem convert_sec3 {c : Cfg} (hsel : c.convSel = .sec3) (h v : Byte) : convert c h v = hsv3 h 255 v := by
  rw [convert, hsel]

/-- Six-sector conversion (R88, R144). -/
theorem convert_sec6 {c : Cfg} (hsel : c.convSel = .sec6) (h v : Byte) : convert c h v = hsv6 h 255 v := by
  rw [convert, hsel]

/-- Settles O41: the two conversions of the tick's hue, and their values at hue 127. -/
theorem rotateShowsOneHueOnEveryPixel : Obligations.RotateShowsOneHueOnEveryPixel := by
  intro c t i h hsel ht hi hh
  have hcolor := color_hueRotate hsel ht hi hh
  have hmiddle : c.dRot = 10000 → t = 5000 → h = 127 := by
    rintro hd rfl
    rw [hd] at hh
    exact BitVec.eq_of_toNat_eq hh
  refine ⟨fun hconv => ?_, fun hconv => ?_, fun hd ht hconv => ?_, fun hd ht hconv => ?_⟩
  · rw [hcolor, convert_sec3 hconv, sampleOfRgb]
  · rw [hcolor, convert_sec6 hconv, sampleOfRgb]
  · rw [hcolor, convert_sec3 hconv, hmiddle hd ht]
    decide
  · rw [hcolor, convert_sec6 hconv, hmiddle hd ht]
    decide

/-! ### Split (R167) -/

/-- Which channels of a hue at full value are dark: red between the seams 85 and 170, green from 170 around to 0, and blue up
to 85. -/
def DarkChannelsOf (h : Byte) (x : Rgb) : Prop :=
  (x.r = 0 ↔ 85 ≤ h.toNat ∧ h.toNat ≤ 170) ∧ (x.g = 0 ↔ h.toNat = 0 ∨ 170 ≤ h.toNat) ∧ (x.b = 0 ↔ h.toNat ≤ 85)

section
variable {h : Byte} (hh : h.toNat ≤ 254)
include hh

/-- The arcs of `hsv3` have these dark channels (R143). -/
theorem darkChannels_hue3 : DarkChannelsOf h (hue3 h) := by
  simp only [DarkChannelsOf, BitVec.toNat_eq]
  rcases lt_or_ge h.toNat 85 with hlo | hlo
  · obtain ⟨hr, hg, hb⟩ := hue3_first_arc hlo
    rw [hr, hg, hb, BitVec.ofNat_eq_ofNat, BitVec.toNat_zero]
    omega
  rcases lt_or_ge h.toNat 170 with hmid | hmid
  · obtain ⟨hr, hg, hb⟩ := hue3_second_arc hlo hmid
    rw [hr, hg, hb, BitVec.ofNat_eq_ofNat, BitVec.toNat_zero]
    omega
  · obtain ⟨hr, hg, hb⟩ := hue3_third_arc hmid
    rw [hr, hg, hb, BitVec.ofNat_eq_ofNat, BitVec.toNat_zero]
    omega

/-- The arcs of `hsv6` have the same dark channels: in each sector one channel is dark throughout, and the blending one at the
start of an even sector only (R144). -/
theorem darkChannels_hue6 : DarkChannelsOf h (hue6 h) := by
  obtain ⟨sec, off, hx, hoff⟩ : ∃ sec off, 6 * h.toNat = 255 * sec + off ∧ off < 255 :=
    ⟨_, _, (Nat.div_add_mod _ 255).symm, Nat.mod_lt _ (by decide)⟩
  have hup := toNat_offset hoff
  have hsec : sec ≤ 5 := by omega
  rw [hue6_eq_sectorRgb hx hoff, Nat.mod_eq_of_lt (Nat.lt_succ_of_le hsec)]
  simp only [DarkChannelsOf, BitVec.toNat_eq]
  interval_cases sec <;> simp [-BitVec.toNat_sub, toNat_full_sub, sectorRgb, hup] <;> omega

/-- By either conversion a hue has the same dark channels. -/
theorem darkChannels_convert (c : Cfg) : DarkChannelsOf h (convert c h 255) := by
  cases hconv : c.convSel with
  | sec3 => rw [convert_sec3 hconv, hsv3_fullValue]; exact darkChannels_hue3 hh
  | sec6 => rw [convert_sec6 hconv, hsv6_fullValue]; exact darkChannels_hue6 hh

end

section
variable {h : Byte} {x : Rgb}

/-- Without blue the halves show red and green (R167). -/
theorem splitPair_of_blue_dark (hb : x.b = 0) : splitPair x = (⟨0, x.r, 0, 0⟩, ⟨x.g, 0, 0, 0⟩) := if_pos hb

/-- With blue and without red the halves show green and blue (R167). -/
theorem splitPair_of_red_dark (hb : x.b ≠ 0) (hr : x.r = 0) : splitPair x = (⟨x.g, 0, 0, 0⟩, ⟨0, 0, x.b, 0⟩) := by
  rw [splitPair, if_neg hb, if_pos hr]

/-- With blue and red the halves show these two (R167). -/
theorem splitPair_of_both (hb : x.b ≠ 0) (hr : x.r ≠ 0) : splitPair x = (⟨0, 0, x.b, 0⟩, ⟨0, x.r, 0, 0⟩) := by
  rw [splitPair, if_neg hb, if_neg hr]

/-- The halves never show the same channel (R167). -/
theorem splitPair_disjoint (x : Rgb) :
    ((splitPair x).1.g = 0 ∨ (splitPair x).2.g = 0) ∧ ((splitPair x).1.r = 0 ∨ (splitPair x).2.r = 0) ∧
      ((splitPair x).1.b = 0 ∨ (splitPair x).2.b = 0) := by
  by_cases hb : x.b = 0
  · simp [splitPair_of_blue_dark hb]
  by_cases hr : x.r = 0
  · simp [splitPair_of_red_dark hb hr]
  · simp [splitPair_of_both hb hr]

/-- The starts of the three arcs, where a hue has one channel only. -/
theorem seam_iff_toNat (h : Byte) : h = 0 ∨ h = 85 ∨ h = 170 ↔ h.toNat = 0 ∨ h.toNat = 85 ∨ h.toNat = 170 := by
  simp [BitVec.toNat_eq]

/-- The halves show the two channels of the hue's arc: never both dark, and one of them at the seams only (R167). -/
theorem DarkChannelsOf.splitPair_seams (hx : DarkChannelsOf h x) :
    ((splitPair x).1 ≠ ⟨0, 0, 0, 0⟩ ∨ (splitPair x).2 ≠ ⟨0, 0, 0, 0⟩) ∧
      (h = 0 ∨ h = 85 ∨ h = 170 ↔ (splitPair x).1 = ⟨0, 0, 0, 0⟩ ∨ (splitPair x).2 = ⟨0, 0, 0, 0⟩) := by
  obtain ⟨hred, hgreen, hblue⟩ := hx
  rw [seam_iff_toNat]
  by_cases hb : x.b = 0
  · simp only [splitPair_of_blue_dark hb, Sample.mk.injEq, ne_eq, hred, hgreen, true_and, and_true]
    rw [hblue] at hb
    omega
  by_cases hr : x.r = 0
  · simp only [splitPair_of_red_dark hb hr, Sample.mk.injEq, ne_eq, hgreen, hblue, true_and, and_true]
    rw [hblue] at hb
    rw [hred] at hr
    omega
  · simp only [splitPair_of_both hb hr, Sample.mk.injEq, ne_eq, hred, hblue, true_and, and_true]
    rw [hblue] at hb
    rw [hred] at hr
    omega

end

/-- The halves of the chain in the order of the two-cycle swap (R167). -/
theorem color_split {c : Cfg} {t i : Nat} {h : Byte} (hsel : c.animSel = .split) (ht : t < 2 ^ c.tickBits)
    (hi : i < c.pixels) (hh : h.toNat = t % c.dSplit * 255 / c.dSplit) :
    (t / (2 * c.dSplit) % 2 = 0 → color c t i =
      if i < c.pixels / 2 then (splitPair (convert c h 255)).1 else (splitPair (convert c h 255)).2) ∧
    (t / (2 * c.dSplit) % 2 = 1 → color c t i =
      if i < c.pixels / 2 then (splitPair (convert c h 255)).2 else (splitPair (convert c h 255)).1) := by
  obtain ⟨-, -, -, -, hd, -⟩ := c.durations
  rw [color_eq_strategy _ _ _ ht hi, strategy, hsel, ← hueOf_eq hd hh]
  refine ⟨fun hswap => ?_, fun hswap => ?_⟩
  · simp only [colorSplit, hswap, if_true]
  · simp only [colorSplit, hswap, one_ne_zero, if_false]

/-- Settles O42: which channels are dark decides the test that applies, and so what each half shows. -/
theorem splitHalvesShowDifferentChannels : Obligations.SplitHalvesShowDifferentChannels := by
  intro c t i h hsel ht hi hh x
  have hx : x = convert c h 255 := by
    cases hconv : c.convSel with
    | sec3 => rw [convert_sec3 hconv]; exact if_pos hconv
    | sec6 => rw [convert_sec6 hconv]; exact if_neg (by rw [hconv]; decide)
  have hle : h.toNat ≤ 254 := by
    obtain ⟨-, -, -, -, hd, -⟩ := c.durations
    rw [← hueOf_eq hd hh]
    exact hueOf_le t hd
  have hdark : DarkChannelsOf h x := hx ▸ darkChannels_convert hle c
  obtain ⟨hstraight, hswapped⟩ := color_split hsel ht hi hh
  rw [← hx] at hstraight hswapped
  obtain ⟨hlit, hseam⟩ := hdark.splitPair_seams
  refine ⟨(splitPair x).1, (splitPair x).2, fun hb => ?_, fun hb hr => ?_, fun hb hr => ⟨?_, ?_⟩, hstraight, hswapped, hlit,
    hseam, splitPair_disjoint x⟩
  · rw [splitPair_of_blue_dark hb]
    exact ⟨rfl, rfl⟩
  · rw [splitPair_of_red_dark hb hr]
    exact ⟨rfl, rfl⟩
  · obtain ⟨hred, hgreen, hblue⟩ := hdark
    rw [ne_eq, hred] at hr
    rw [ne_eq, hblue] at hb
    exact hgreen.2 (by omega)
  · rw [splitPair_of_both hb hr]
    exact ⟨rfl, rfl⟩

/-! ### High-resolution rainbow (R168) -/

/-- The sweep's position, in steps of the whole rainbow (R168). -/
theorem hiresPosition_eq (c : Cfg) (t : Nat) : hiresPosition c t = t % c.dHires * (1530 * c.pixels) / c.dHires := by
  have hremap : remap (t % c.dHires : Nat) 0 c.dHires 0 (1530 * c.pixels : Nat) = _ := remap_up _ _ _
  rw [Nat.cast_mul, Nat.cast_ofNat] at hremap
  rw [hiresPosition, hremap, Int.toNat_natCast]

/-- The sweep stays inside the rainbow (R168). -/
theorem hiresPosition_lt (c : Cfg) (t : Nat) : hiresPosition c t < 1530 * c.pixels := by
  obtain ⟨hP, -⟩ := c.bounds
  obtain ⟨-, -, -, -, -, hd, -⟩ := c.durations
  rw [hiresPosition_eq]
  exact phase_mul_div_lt t hd (by omega)

/-- The sector table by channel (R144, R168). -/
theorem sectorRgb_toNat {sec : Nat} {up : Byte} {n : Nat} (hup : up.toNat = n) :
    let x := sectorRgb sec up
    let rgb := (x.r.toNat, x.g.toNat, x.b.toNat)
    (sec = 0 → rgb = (255, n, 0)) ∧ (sec = 1 → rgb = (255 - n, 255, 0)) ∧ (sec = 2 → rgb = (0, 255, n)) ∧
    (sec = 3 → rgb = (0, 255 - n, 255)) ∧ (sec = 4 → rgb = (n, 0, 255)) ∧ (sec = 5 → rgb = (255, 0, 255 - n)) := by
  refine ⟨?_, ?_, ?_, ?_, ?_, ?_⟩ <;> rintro rfl
  all_goals simp [-BitVec.toNat_sub, toNat_full_sub, sectorRgb, hup]

/-- Settles O43: the position taken apart by sector and pixel, and the sector table with the ramp as its blending channel. -/
theorem hiresSweepsAlongTheChain : Obligations.HiresSweepsAlongTheChain := by
  intro c t i sec front frac hsel ht hi hpos hfront hfrac up x rgb
  rw [← hiresPosition_eq] at hpos
  have hspan : 255 * front + frac < 255 * c.pixels := by omega
  obtain ⟨hsector, hrest⟩ : hiresPosition c t / (255 * c.pixels) = sec ∧
      hiresPosition c t % (255 * c.pixels) = 255 * front + frac :=
    (Nat.div_mod_unique (by omega)).2 ⟨by omega, hspan⟩
  have hx : x = sampleOfRgb (sectorRgb sec (ramp c i (255 * front + frac))) 0 := by
    rw [← hsector, ← hrest]
    exact (color_eq_strategy _ _ _ ht hi).trans (by rw [strategy, hsel]; rfl)
  have hsec : sec < 6 := by
    rw [← hsector]
    exact Nat.div_lt_of_lt_mul (by linarith [hiresPosition_lt c t])
  have htable := sectorRgb_toNat (sec := sec) (ramp_toNat hfrac hi hfront)
  simp only [rgb, hx]
  exact ⟨Nat.le_of_lt_succ hsec, rfl, htable⟩

/-! ### Periods (R171) -/

/-- A hue repeats after every whole number of its durations. -/
theorem hueOf_add_of_dvd (t : Nat) {d p : Nat} (h : d ∣ p) : hueOf (t + p) d = hueOf t d := by
  obtain ⟨k, rfl⟩ := h
  rw [hueOf, hueOf, Nat.add_mul_mod_self_left]

section
variable (c : Cfg) (t i : Nat)

/-- Three sweeps of the chain bring the first primary back (R163). -/
theorem colorChase_add_period : colorChase c (t + c.chaseStep * c.pixels * 3) i = colorChase c t i := by
  obtain ⟨hP, -⟩ := c.bounds
  obtain ⟨hS, -⟩ := c.durations
  have hstep : (t + c.chaseStep * c.pixels * 3) / c.chaseStep = t / c.chaseStep + c.pixels * 3 := by
    rw [Nat.mul_assoc, Nat.add_mul_div_left _ _ hS]
  have hphase : (t / c.chaseStep + c.pixels * 3) / c.pixels % 3 = t / c.chaseStep / c.pixels % 3 := by
    rw [Nat.add_mul_div_left _ _ hP, Nat.add_mod_right]
  simp only [colorChase, hstep, hphase, Nat.add_mul_mod_self_left]

/-- The hue and the envelope come back together after the least common multiple of their periods (R164). -/
theorem colorBreath_add_period : colorBreath c (t + Nat.lcm c.dBHue (brPeriod c)) i = colorBreath c t i := by
  obtain ⟨k, hk⟩ := Nat.dvd_lcm_right c.dBHue (brPeriod c)
  have henv : (t + Nat.lcm c.dBHue (brPeriod c)) % brPeriod c = t % brPeriod c := by
    rw [hk, Nat.add_mul_mod_self_left]
  rw [colorBreath, colorBreath, hueOf_add_of_dvd t (Nat.dvd_lcm_left _ _), henv]

/-- Hue rotate follows the hue alone (R166). -/
theorem colorRotate_add_period : colorRotate c (t + c.dRot) i = colorRotate c t i := by
  rw [colorRotate, colorRotate, hueOf_add_of_dvd t dvd_rfl]

/-- Two hue cycles one way and two the other (R167). -/
theorem colorSplit_add_period : colorSplit c (t + 4 * c.dSplit) i = colorSplit c t i := by
  obtain ⟨-, -, -, -, hd, -⟩ := c.durations
  have hswap : (t + 4 * c.dSplit) / (2 * c.dSplit) % 2 = t / (2 * c.dSplit) % 2 := by
    rw [show 4 * c.dSplit = 2 * c.dSplit * 2 by ring, Nat.add_mul_div_left _ _ (by omega), Nat.add_mod_right]
  simp only [colorSplit, hueOf_add_of_dvd t (Dvd.intro_left 4 rfl), hswap]

/-- The rainbow follows the phase of the tick alone (R168). -/
theorem colorHires_add_period : colorHires c (t + c.dHires) i = colorHires c t i := by
  simp only [colorHires, hiresPosition, Nat.add_mod_right]

end

/-- Settles O44: each strategy reads the tick through remainders that its period leaves alone. -/
theorem strategiesArePeriodic : Obligations.StrategiesArePeriodic := by
  intro c t i ht hi
  rw [color_eq_strategy _ _ _ ht hi, color_eq_strategy _ _ _ (by omega) hi, strategy, strategy, periodOf]
  cases c.animSel with
  | chase => exact colorChase_add_period c t i
  | hueBreath => exact colorBreath_add_period c t i
  | hueRotate => exact colorRotate_add_period c t i
  | split => exact colorSplit_add_period c t i
  | hires => exact colorHires_add_period c t i

end Sys2Proof.Machine
end

section
/-! A rendered frame: the operations it stands for, the cycles it shows, and what it leaves unchanged (R160, R170). -/

namespace Sys2Proof.Machine

/-! ### What a list of Emits leaves unchanged -/

/-- An Emit changes the wire, the chain and the pin only (R10). -/
theorem State.emit_frame (s : State) (r : Run) :
    s.emit r = { s with wire := (s.emit r).wire, chain := (s.emit r).chain, pin := (s.emit r).pin } := by
  unfold State.emit State.pass
  split <;> rfl

/-- A list of Emits changes the wire, the chain and the pin only (R10). -/
theorem State.emitRuns_frame (s : State) (rs : List Run) : s.emitRuns rs =
    { s with wire := (s.emitRuns rs).wire, chain := (s.emitRuns rs).chain, pin := (s.emitRuns rs).pin } := by
  induction rs generalizing s with
  | nil => rfl
  | cons r rs ih =>
    refine (ih (s.emit r)).trans ?_
    simp

/-! ### Transmitting, then latching -/

/-- A run of one operation is that operation. -/
theorem execAll_singleton (i : Instr) (s : State) : execAll [i] s = exec i s := by
  unfold execAll
  cases exec i s <;> rfl

/-- Operations that together transmit `rs`, and a `latch()` after them, transmit `rs` and latch (R118). -/
theorem execAll_append_latch {s : State} (h : LinkReady s) {is : List Instr} {bits : Nat} {rs : List Run}
    (hall : execAll is s = s.transmit bits rs) : execAll (is ++ [.latch]) s = s.transmitAndLatch bits rs := by
  have hsent : s.transmit bits rs = .next ((s.emitRuns rs).setSent (s.sent + bits)) :=
    (s.transmit_eq_next _ _ _).2 ⟨h, rfl⟩
  have hready : LinkReady ((s.emitRuns rs).setSent (s.sent + bits)) := by simpa [LinkReady] using h
  rw [execAll_append_next _ _ _ _ (hall.trans hsent), execAll_singleton]
  refine (State.whenLinkReady_ready _ _ hready).trans (Eq.trans ?_ (State.whenLinkReady_ready _ _ h).symm)
  simp [State.emitRuns_append]

/-- What a transmission with a latch shows on the wire: its runs and the low run of the latch (R10, R118). -/
theorem State.emitted_of_transmitAndLatch {s t : State} {bits : Nat} {rs : List Run}
    (hx : s.transmitAndLatch bits rs = .next t) : Emitted s t (runsWave (rs ++ [latchRun s.cfg])) := by
  obtain ⟨⟨hdir, -⟩, -, rfl⟩ := (s.transmitAndLatch_eq_next _ _ _).1 hx
  exact s.emitRuns_levels _ hdir

/-! ### `renderFrame` (R160) -/

/-- `renderFrame` of a legal pixel count transmits that many words and latches (R160). -/
theorem exec_renderFrame (t : Nat) {p : Nat} (hp : 1 ≤ p ∧ p ≤ 255) (s : State) :
    exec (.renderFrame t p) s = s.transmitAndLatch (32 * p) (pixelRuns (s.cfg.withPixels p hp) t) := dif_pos hp

/-- With the pixel count of the configuration the words are those of the configuration (R160). -/
theorem exec_renderFrame_pixels (t : Nat) (s : State) :
    exec (.renderFrame t s.cfg.pixels) s = s.transmitAndLatch (32 * s.cfg.pixels) (pixelRuns s.cfg t) := by
  obtain ⟨hlo, hhi, -⟩ := s.cfg.bounds
  exact exec_renderFrame t ⟨hlo, hhi⟩ s

/-- The words of a frame are transmitted one `writeColor` after the other (R115, R160). -/
theorem execAll_writeColors {s : State} (h : LinkReady s) (c : Nat → Sample) (n : Nat) :
    execAll ((List.range n).map fun i => .writeColor (c i).g (c i).r (c i).b (c i).w) s =
      s.transmit (32 * n) ((List.range n).flatMap fun i => wordRuns s.cfg (c i)) := by
  have hop (i : Nat) (u : State) :
      exec (.writeColor (c i).g (c i).r (c i).b (c i).w) u = u.transmit 32 (wordRuns u.cfg (c i)) := rfl
  rw [execAll_map_of_transmit (runs := fun cfg i => wordRuns cfg (c i)) hop (List.range n) h, List.length_range, eq_comm,
    State.transmit_eq_next]
  exact ⟨h, rfl⟩

/-- The words of a frame and its latch show the frame (R84). -/
theorem runsWave_frame (c : Cfg) (t : Nat) : runsWave (pixelRuns c t ++ [latchRun c]) = frameWave c t := by
  simp [pixelRuns, runsWave_flatMap, frameWave, latchRun, Level.ofBit]

/-- The words of a frame and its latch take these cycles, whatever the tick and the strategy (R121, R160). -/
theorem runsCycles_frame (c : Cfg) (t : Nat) :
    runsCycles (pixelRuns c t ++ [latchRun c]) = c.pixels * wordCycles c + c.nLatch := by
  simp [pixelRuns, runsCycles_flatMap_words, latchRun]

/-- These two strategies give every pixel the same colour (R164, R166). -/
theorem color_uniform {c : Cfg} {t i : Nat} (hsel : c.animSel = .hueRotate ∨ c.animSel = .hueBreath)
    (ht : t < 2 ^ c.tickBits) (hi : i < c.pixels) : color c t i = color c t 0 := by
  rw [color_eq_strategy _ _ _ ht hi, color_eq_strategy _ _ _ ht (Nat.zero_lt_of_lt hi), strategy, strategy]
  rcases hsel with hsel | hsel <;> rw [hsel] <;> rfl

/-- A frame of one colour is so many copies of its word. -/
theorem pixelRuns_uniform {c : Cfg} {t : Nat} (hcolor : ∀ i, i < c.pixels → color c t i = color c t 0) :
    pixelRuns c t = copiesOf c c.pixels (color c t 0) := by
  have hwords : (List.range c.pixels).map (color c t) = List.replicate c.pixels (color c t 0) := by
    rw [List.eq_replicate_iff]
    simpa using hcolor
  rw [copiesOf_eq_flatMap, ← hwords, List.flatMap_map]
  rfl

/-- Settles O37: the frame is the words transmitted by `writeColor`s, or by `writeColorAll` where they are all one, and a
latch. -/
theorem renderFrameIsWordsThenLatch : Obligations.RenderFrameIsWordsThenLatch := by
  intro s t h hw c f
  have hf : f = s.transmitAndLatch (32 * s.cfg.pixels) (pixelRuns s.cfg t) := exec_renderFrame_pixels t s
  have hwhole : (s.sent + 32 * s.cfg.pixels) % 32 = 0 := by omega
  refine ⟨?_, ⟨_, hf.trans ((s.transmitAndLatch_eq_next _ _ _).2 ⟨h, hwhole, rfl⟩), ?_, ?_, ?_⟩, fun ht hsel => ?_⟩
  · rw [hf, execAll_append_latch h (execAll_writeColors h c s.cfg.pixels)]
    rfl
  · rw [← runsWave_frame]
    exact s.emitRuns_levels _ h.1
  · rw [State.setSent_wire, State.emitRuns_cycles, runsCycles_frame, Nat.add_assoc]
  · have hpin := (endsLow_latchRun s.cfg).append_left (pixelRuns s.cfg t) s
    rw [State.emitRuns_frame, hpin]
    rfl
  · have hall : execAll [.writeColorAll (c 0).g (c 0).r (c 0).b (c 0).w] s =
        s.transmit (32 * s.cfg.pixels) (copiesOf s.cfg s.cfg.pixels (c 0)) := execAll_singleton _ s
    rw [hf, pixelRuns_uniform fun i hi => color_uniform hsel ht hi]
    exact (execAll_append_latch h hall).symm

/-! ### No hidden state (R170) -/

/-- Settles O45: the runs a frame transmits are made from the tick, the pixel count and the configuration. -/
theorem renderingHasNoHiddenState : Obligations.RenderingHasNoHiddenState := by
  intro s1 s2 t1 t2 t p hcfg hx1 hx2
  by_cases hp : 1 ≤ p ∧ p ≤ 255
  · rw [exec_renderFrame t hp] at hx1 hx2
    rw [← hcfg] at hx2
    have h2 := State.emitted_of_transmitAndLatch hx2
    rw [← hcfg] at h2
    exact ⟨_, State.emitted_of_transmitAndLatch hx1, h2⟩
  · rw [exec_renderFrame_illegal t hp] at hx1
    cases hx1

end Sys2Proof.Machine
end

section
/-! The operations of the main loop beside `renderFrame`: holding the line low and counting the tick (R192, R194). -/

namespace Sys2Proof.Machine

/-- Settles O48: `delay(n)` is one `Emit` of `n` low cycles. -/
theorem delayHoldsTheLineLow : Obligations.DelayHoldsTheLineLow := by
  intro n s
  refine ⟨s.emit ⟨false, n⟩, rfl, fun hdir => ?_, ?_, ?_, fun hn => ?_, s.emit_frame _⟩
  · rw [Emitted, State.emit_wire, Trace.levels_push, s.shows_driven _ hdir]
    rfl
  · rw [State.emit_wire, Trace.cycles_push]
  · rintro rfl
    exact s.emit_empty false
  · rw [State.emit_pin, if_neg (Nat.ne_of_gt hn)]

/-- Settles O49: the next tick is a remainder, the sum itself below the bound and 0 at it. -/
theorem tickIncCountsAndWraps : Obligations.TickIncCountsAndWraps := by
  intro s
  refine ⟨rfl, Nat.mod_eq_of_lt, fun hlast => ?_⟩
  rw [hlast, Nat.mod_self]

end Sys2Proof.Machine
end

section
/-! The run list of a frame by the coordinates of R23: the runs of a bit cell, the gaps, the latch and the delay (R195). -/

namespace Sys2Proof.Machine

variable (c : Cfg) (t : Nat)

/-- The three runs of bit cell `b` of a byte, whose bit is `7 - b` (R23). -/
theorem getElem?_byteRuns_cell (v : Byte) {b : Nat} (hb : b < 8) :
    (byteRuns c v)[3 * b]? = some ⟨true, c.n1⟩ ∧ (byteRuns c v)[3 * b + 1]? = some ⟨v.getLsbD (7 - b), c.n2⟩ ∧
      (byteRuns c v)[3 * b + 2]? = some ⟨false, c.n3⟩ := by
  have hdiv : (3 * b + 1) / 3 = b := by omega
  refine ⟨?_, ?_, ?_⟩ <;> rw [getElem?_byteRuns c v _ (by omega), if_neg (by omega)]
  · simp
  · simp [hdiv]
  · simp

/-- The byte gap ends a byte (R23). -/
theorem getElem?_byteRuns_last (v : Byte) : (byteRuns c v)[24]? = some ⟨false, c.gByte⟩ :=
  getElem?_byteRuns c v 24 (by decide)

/-- Run `m` of byte `j` of pixel `i` of a frame (R23). -/
theorem getElem?_frameRuns_byte {i j m : Nat} (hi : i < c.pixels) (hj : j < 4) (hm : m < 25) :
    (frameRuns c t)[101 * i + (25 * j + m)]? = (byteRuns c (sampleByte (color c t i) j))[m]? := by
  rw [getElem?_frameRuns c t i _ hi (by omega), getElem?_wordRuns c _ j m hj hm]

/-- The pixel gap ends pixel `i` of a frame (R23). -/
theorem getElem?_frameRuns_gap {i : Nat} (hi : i < c.pixels) :
    (frameRuns c t)[101 * i + 100]? = some ⟨false, c.gPixel⟩ := by
  rw [getElem?_frameRuns c t i _ hi (by decide), getElem?_wordRuns_last]

/-- A frame has a run for each of its indices (R22). -/
@[simp] theorem length_frameRuns : (frameRuns c t).length = frameRunCount c := by
  simp [frameRuns, frameRunCount]

/-- After the pixel part comes the latch (R195). -/
theorem getElem?_frameRuns_latch : (frameRuns c t)[101 * c.pixels]? = some ⟨false, c.nLatch⟩ := by
  rw [frameRuns, List.getElem?_append_right (by simp)]
  simp [latchRun]

/-- The delay is last (R195). -/
theorem getElem?_frameRuns_delay : (frameRuns c t)[101 * c.pixels + 1]? = some ⟨false, c.nDelay⟩ := by
  rw [frameRuns, List.getElem?_append_right (by simp)]
  simp

/-- Settles O50: run `101*i + 25*j + m` is run `m` of byte `j` of pixel `i`, and bit `m` is sent in cell `7 - m`. -/
theorem frameRunListEntries : Obligations.FrameRunListEntries := by
  intro c t
  refine ⟨length_frameRuns c t, fun i j m hi hj hm => ?_, getElem?_frameRuns_latch c t, getElem?_frameRuns_delay c t⟩
  have hbit : 7 - (7 - m) = m := by omega
  obtain ⟨hhigh, hdata, hlow⟩ := getElem?_byteRuns_cell c (sampleByte (color c t i) j) (b := 7 - m) (by omega)
  rw [hbit] at hdata
  simp only [Nat.add_assoc]
  refine ⟨?_, ?_, ?_, ?_, getElem?_frameRuns_gap c t hi⟩
  · rw [getElem?_frameRuns_byte c t hi hj (by omega), hhigh]
  · rw [getElem?_frameRuns_byte c t hi hj (by omega), hdata]
  · rw [getElem?_frameRuns_byte c t hi hj (by omega), hlow]
  · rw [getElem?_frameRuns_byte c t hi hj (by decide), getElem?_byteRuns_last]

end Sys2Proof.Machine
end

section
/-! The machine on its own over a whole frame: the clock step reads the run list off the run index, and the steps of a frame are
the `Emit`s of that list (R195, R196, R198). -/

namespace Sys2Proof.Machine

/-! ### What the clock step reads off a run index -/

/-- The length and the level of a run index are those of the run list (R23, R195, R196). -/
theorem getElem?_frameRuns_runLevel_runLen (c : Cfg) (t : Nat) {k : Nat} (hk : k < frameRunCount c) :
    (frameRuns c t)[k]? = some ⟨runLevel c t k, runLen c k⟩ := by
  rcases Nat.lt_or_ge k (101 * c.pixels) with hpix | hpix
  · obtain ⟨i, q, rfl, hq⟩ : ∃ i q, k = 101 * i + q ∧ q < 101 :=
      ⟨k / 101, k % 101, (Nat.div_add_mod k 101).symm, Nat.mod_lt _ (by decide)⟩
    have hi : i < c.pixels := by omega
    have hdiv : (101 * i + q) / 101 = i := by omega
    have hmod : (101 * i + q) % 101 = q := by omega
    simp only [runLevel, runLen, if_pos hpix, hdiv, hmod]
    by_cases hgap : q = 100
    · subst hgap
      exact getElem?_frameRuns_gap c t hi
    rw [if_neg hgap, if_neg hgap]
    obtain ⟨j, m, rfl, hm⟩ : ∃ j m, q = 25 * j + m ∧ m < 25 :=
      ⟨q / 25, q % 25, (Nat.div_add_mod q 25).symm, Nat.mod_lt _ (by decide)⟩
    have hbyte : (25 * j + m) / 25 = j := by omega
    have hrun : (25 * j + m) % 25 = m := by omega
    rw [getElem?_frameRuns_byte c t hi (by omega) hm, getElem?_byteRuns c _ m hm, hbyte, hrun]
    by_cases hlast : m = 24
    · simp only [if_pos hlast]
    · obtain hregion | hregion | hregion : m % 3 = 0 ∨ m % 3 = 1 ∨ m % 3 = 2 := by omega
      all_goals simp only [if_neg hlast, hregion]
  · rw [runLevel, runLen, if_neg hpix.not_gt, if_neg hpix.not_gt]
    obtain rfl | rfl : k = 101 * c.pixels ∨ k = 101 * c.pixels + 1 := by
      rw [frameRunCount] at hk
      omega
    · rw [if_pos rfl, getElem?_frameRuns_latch]
    · rw [if_neg (Nat.succ_ne_self _), getElem?_frameRuns_delay]

/-- The latch run has the length of a latch (R195). -/
theorem runLen_latch (c : Cfg) : runLen c (101 * c.pixels) = c.nLatch := by
  simp [runLen]

/-- The runs from index `k` on are run `k`, with its level and its length, and those from `k + 1` on. -/
theorem drop_frameRuns (c : Cfg) (t : Nat) {k : Nat} (hk : k < frameRunCount c) :
    (frameRuns c t).drop k = ⟨runLevel c t k, runLen c k⟩ :: (frameRuns c t).drop (k + 1) := by
  obtain ⟨hlen, hget⟩ := List.getElem?_eq_some_iff.1 (getElem?_frameRuns_runLevel_runLen c t hk)
  rw [List.drop_eq_getElem_cons hlen, hget]

/-- A frame takes the frame period (R198). -/
theorem runsCycles_frameRuns (c : Cfg) (t : Nat) : runsCycles (frameRuns c t) = frameCycles c := by
  simp [frameRuns, pixelRuns, runsCycles_flatMap_words, latchRun, frameCycles, Nat.add_assoc]

/-! ### The clock steps of a frame -/

/-- The first cycle of the next frame, after the runs `rs` that end this one; `m` bits are then sent since the last latch. -/
def State.endFrame (s : State) (rs : List Run) (m : Nat) : State :=
  ((s.emitRuns rs).setSent m).advanceTick.enter 0 s.cfg.n1

/-- `Emit`s leave the position alone, and of the pin they read nothing. -/
theorem State.emitRuns_withPosition (s : State) (p : SeqPos) (b : Bool) (rs : List Run) :
    ∃ b', ({ s with seq := p, pin := b } : State).emitRuns rs = { s.emitRuns rs with seq := p, pin := b' } := by
  induction rs generalizing s b with
  | nil => exact ⟨b, rfl⟩
  | cons r rs ih =>
    have hemit : ({ s with seq := p, pin := b } : State).emit r =
        { s.emit r with seq := p, pin := if r.len = 0 then b else r.level } := by
      unfold State.emit State.pass
      split <;> rfl
    rw [State.emitRuns_cons, State.emitRuns_cons, hemit]
    exact ih _ _

/-- Position and pin are written anew when the next frame begins, so what they were before its last runs does not matter. -/
theorem State.endFrame_enter (s : State) (k n : Nat) (rs : List Run) (m : Nat) :
    (s.enter k n).endFrame rs m = s.endFrame rs m := by
  obtain ⟨b, hb⟩ := s.emitRuns_withPosition (.run k n) (runLevel s.cfg s.tick k) rs
  have henter : (s.enter k n).emitRuns rs = { s.emitRuns rs with seq := .run k n, pin := b } := hb
  rw [State.endFrame, henter]
  rfl

/-- Enter the first run that takes time among the `fuel` from index `k` on, or else the next frame: the end of
`State.leaveRun`. -/
def State.enterFrom (s : State) (fuel k : Nat) : State :=
  match firstRun s.cfg fuel k with
  | some k' => s.enter k' (runLen s.cfg k')
  | none => s.advanceTick.enter 0 s.cfg.n1

/-- Leaving a run counts the bits sent and enters what comes after it (R196). -/
theorem State.leaveRun_eq_enterFrom (s : State) (k : Nat) :
    s.leaveRun k = (s.setSent (sentAfter s.cfg k s.sent)).enterFrom (frameRunCount s.cfg - (k + 1)) (k + 1) := rfl

/-- A run that takes time is entered. -/
theorem State.enterFrom_pos (s : State) (fuel : Nat) {k : Nat} (hk : 1 ≤ runLen s.cfg k) :
    s.enterFrom (fuel + 1) k = s.enter k (runLen s.cfg k) := by
  rw [State.enterFrom, firstRun, if_pos hk]

/-- A run that takes no time is passed over. -/
theorem State.enterFrom_empty (s : State) (fuel : Nat) {k : Nat} (hk : runLen s.cfg k = 0) :
    s.enterFrom (fuel + 1) k = s.enterFrom fuel (k + 1) := by
  rw [State.enterFrom, firstRun, if_neg (by omega), State.enterFrom]

/-- The bits sent since the last latch when the frame has ended, from run `k` on: the latch run, if still to come, ends the
count (R54; log entry 21). -/
def sentAtFrameEnd (c : Cfg) (k sent : Nat) : Nat := if k ≤ 101 * c.pixels then 0 else sent

/-- A run leaves that count to the later ones, but for the latch run, which makes it 0. -/
theorem sentAtFrameEnd_sentAfter (c : Cfg) (k sent : Nat) :
    sentAtFrameEnd c (k + 1) (sentAfter c k sent) = sentAtFrameEnd c k sent := by
  unfold sentAtFrameEnd sentAfter
  rcases lt_trichotomy k (101 * c.pixels) with hlt | rfl | hgt
  · rw [if_pos (Nat.succ_le_of_lt hlt), if_pos hlt.le]
  · simp
  · rw [if_neg (by omega), if_neg hgt.not_gt, if_neg hgt.ne', if_neg hgt.not_ge]

/-- The latch run takes time, so a run that takes none leaves that count alone. -/
theorem sentAtFrameEnd_empty (c : Cfg) {k : Nat} (hk : runLen c k = 0) (sent : Nat) :
    sentAtFrameEnd c (k + 1) sent = sentAtFrameEnd c k sent := by
  have hlatch : k ≠ 101 * c.pixels := by
    rintro rfl
    obtain ⟨-, -, -, -, -, hpos, -⟩ := c.bounds
    rw [runLen_latch] at hk
    omega
  have hiff : k + 1 ≤ 101 * c.pixels ↔ k ≤ 101 * c.pixels := by omega
  simp only [sentAtFrameEnd, hiff]

/-- The state after run `k`, with the bits it sends counted. -/
def State.afterRun (s : State) (k : Nat) : State :=
  (s.emit ⟨runLevel s.cfg s.tick k, runLen s.cfg k⟩).setSent (sentAfter s.cfg k s.sent)

@[simp] theorem State.afterRun_cfg (s : State) (k : Nat) : (s.afterRun k).cfg = s.cfg := by simp [State.afterRun]
@[simp] theorem State.afterRun_tick (s : State) (k : Nat) : (s.afterRun k).tick = s.tick := by simp [State.afterRun]
@[simp] theorem State.afterRun_sent (s : State) (k : Nat) : (s.afterRun k).sent = sentAfter s.cfg k s.sent := rfl

/-- Ending the frame after run `k` is ending it from run `k` on. -/
theorem State.endFrame_afterRun (s : State) (k : Nat) (rs : List Run) (m : Nat) :
    (s.afterRun k).endFrame rs m = s.endFrame (⟨runLevel s.cfg s.tick k, runLen s.cfg k⟩ :: rs) m := by
  simp [State.endFrame, State.afterRun]

/-- A run places nothing. -/
theorem RunsAlone.afterRun {s : State} (h : RunsAlone s) (k : Nat) : RunsAlone (s.afterRun k) := by
  simpa [RunsAlone, State.afterRun] using h

/-- From `u`, as many steps as the runs from index `k` on have cycles do what emitting them from `s` does, and lead to the next
frame. -/
def EndsFrame (s : State) (k : Nat) (u : State) : Prop :=
  runSteps (runsCycles ((frameRuns s.cfg s.tick).drop k)) u =
    .next (s.endFrame ((frameRuns s.cfg s.tick).drop k) (sentAtFrameEnd s.cfg k s.sent))

/-- A machine at the first cycle of run `k` ends its frame if it does from the entry of what comes after that run. -/
theorem endsFrame_of_run {s : State} {fuel k : Nat} (ha : RunsAlone s) (hk : k + 1 + fuel = frameRunCount s.cfg)
    (hlen : 1 ≤ runLen s.cfg k) (hseq : s.seq = .run k (runLen s.cfg k))
    (hrest : EndsFrame (s.afterRun k) (k + 1) ((s.afterRun k).enterFrom fuel (k + 1))) : EndsFrame s k s := by
  have hlt : k < frameRunCount s.cfg := by omega
  have hfuel : frameRunCount s.cfg - (k + 1) = fuel := by omega
  have hpos : isPosition s.cfg (.run k (runLen s.cfg k)) = true := (isPosition_run _ _ _).2 ⟨hlt, hlen, le_rfl⟩
  have hrun : runSteps (runLen s.cfg k) s = .next ((s.afterRun k).enterFrom fuel (k + 1)) := by
    rw [runSteps_run s k _ ha hseq hpos, State.leaveRun_eq_enterFrom, State.emit_cfg, State.emit_sent, hfuel, State.afterRun]
  rw [EndsFrame, State.afterRun_cfg, State.afterRun_tick, State.afterRun_sent, sentAtFrameEnd_sentAfter,
    State.endFrame_afterRun] at hrest
  rw [EndsFrame, drop_frameRuns _ _ hlt, runsCycles_cons, runSteps_add _ _ _ _ hrun, hrest]

/-- From the entry of the runs at index `k` and later the CORE on its own ends the frame. -/
theorem endsFrame_enterFrom {s : State} {fuel k : Nat} (ha : RunsAlone s) (hk : k + fuel = frameRunCount s.cfg) :
    EndsFrame s k (s.enterFrom fuel k) := by
  induction fuel generalizing s k with
  | zero =>
    have hend : ¬ k ≤ 101 * s.cfg.pixels := by
      rw [frameRunCount] at hk
      omega
    rw [EndsFrame, List.drop_of_length_le (by rw [length_frameRuns]; omega), sentAtFrameEnd, if_neg hend]
    rfl
  | succ fuel ih =>
    have hlt : k < frameRunCount s.cfg := by omega
    rcases Nat.eq_zero_or_pos (runLen s.cfg k) with hlen | hlen
    · have hrest := ih (k := k + 1) ha (by omega)
      rw [EndsFrame, sentAtFrameEnd_empty _ hlen] at hrest
      rw [s.enterFrom_empty fuel hlen, EndsFrame, drop_frameRuns _ _ hlt, hlen, runsCycles_cons, Nat.zero_add]
      exact hrest
    · have hnext : k + 1 + fuel = frameRunCount s.cfg := by omega
      have halone : RunsAlone (s.enter k (runLen s.cfg k)) := ha
      have hrun := endsFrame_of_run halone hnext hlen rfl (ih (halone.afterRun k) (by simpa using hnext))
      rw [EndsFrame, State.endFrame_enter] at hrun
      rw [s.enterFrom_pos fuel hlen]
      exact hrun

/-- From the first cycle of a frame, a frame period of steps is the `Emit`s of the run list, and then the next frame begins
(R196, R198). -/
theorem runSteps_frame {s : State} (ha : RunsAlone s) (hseq : s.seq = .run 0 s.cfg.n1) :
    runSteps (frameCycles s.cfg) s = .next (s.endFrame (frameRuns s.cfg s.tick) 0) := by
  obtain ⟨-, -, hn1, -⟩ := s.cfg.bounds
  have hcount : 0 + 1 + (frameRunCount s.cfg - 1) = frameRunCount s.cfg := Nat.add_sub_cancel' (Nat.succ_pos _)
  have hrest := endsFrame_enterFrom (ha.afterRun 0) (by simpa using hcount)
  have hframe : EndsFrame s 0 s := endsFrame_of_run ha hcount (by simpa using hn1) (by simpa using hseq) hrest
  rw [EndsFrame, List.drop_zero, runsCycles_frameRuns] at hframe
  exact hframe

end Sys2Proof.Machine
end

section
/-! The wire in closed form: a frame is blocks of one length in blocks of one length, so the level of a cycle is found by
dividing its number (R199); and the wire from reset is that of the frames in order. -/

namespace Sys2Proof.Machine

/-! ### Blocks of one length -/

/-- The level at offset `o` of `n` blocks of `L` cycles, block `i` showing `f i`, and low after them. -/
def blocksLevel (n L : Nat) (f : Nat → Nat → Level) (o : Nat) : Level :=
  if n * L ≤ o then .low else f (o / L) (o % L)

/-- The number of a block and the place in it, from the offset in the row. -/
theorem block_coordinates (i : Nat) {L o : Nat} (ho : o < L) : (i * L + o) / L = i ∧ (i * L + o) % L = o := by
  rw [Nat.div_mod_unique (by omega)]
  exact ⟨by ring, ho⟩

/-- Blocks of one length in a row, by the number of the block and the place in it. -/
theorem flatMap_range_blocks (n L : Nat) (f : Nat → Nat → Level) :
    (List.range n).flatMap (fun i => (List.range L).map (f i)) = (List.range (n * L)).map (fun o => f (o / L) (o % L)) := by
  induction n with
  | zero => simp
  | succ n ih =>
    have hlast : (List.range L).map (f n) = (List.range L).map fun o => f ((n * L + o) / L) ((n * L + o) % L) := by
      refine List.map_congr_left fun o ho => ?_
      obtain ⟨hdiv, hmod⟩ := block_coordinates n (List.mem_range.1 ho)
      rw [hdiv, hmod]
    simp [List.range_succ, ih, Nat.succ_mul, List.range_add, hlast, Function.comp_def]

/-- Offsets that all show one level. -/
theorem map_range_eq_replicate {f : Nat → Level} {n : Nat} {l : Level} (h : ∀ o, o < n → f o = l) :
    (List.range n).map f = List.replicate n l := by
  rw [List.eq_replicate_iff]
  simpa using h

/-- Blocks of one length and then a low gap, level by level. -/
theorem blocks_append_low (n L gap : Nat) (f : Nat → Nat → Level) :
    (List.range n).flatMap (fun i => (List.range L).map (f i)) ++ List.replicate gap .low =
      (List.range (n * L + gap)).map (blocksLevel n L f) := by
  rw [flatMap_range_blocks, List.range_add, List.map_append, List.map_map]
  congr 1
  · refine List.map_congr_left fun o ho => ?_
    rw [blocksLevel, if_neg (List.mem_range.1 ho).not_ge]
  · exact (map_range_eq_replicate fun o _ => if_pos (Nat.le_add_right _ _)).symm

/-! ### The levels of a bit, a byte, a word and a frame -/

section
variable (c : Cfg)

/-- The level at offset `o` of a bit cell (R80). -/
def bitLevel (b : Bool) (o : Nat) : Level :=
  if o < c.n1 then .high else if o < c.n1 + c.n2 then Level.ofBit b else .low

/-- The level at offset `o` of a byte: eight cells, bit 7 first, and the byte gap (R82). -/
def byteLevel (v : Byte) : Nat → Level :=
  blocksLevel 8 (bitCycles c) fun m => bitLevel c (v.getLsbD (7 - m))

/-- The level at offset `o` of a pixel word: four bytes and the pixel gap (R83). -/
def wordLevel (x : Sample) : Nat → Level :=
  blocksLevel 4 (byteCycles c) fun j => byteLevel c (sampleByte x j)

/-- The level at offset `o` of the frame of tick `t`: its pixel words, the latch and the delay (R195). -/
def frameLevel (t : Nat) : Nat → Level :=
  blocksLevel c.pixels (wordCycles c) fun i => wordLevel c (color c t i)

/-- The closed form of R199 is that of the frames, after the one cycle of `init`. -/
theorem wireAt_succ (m : Nat) :
    wireAt c (m + 1) = frameLevel c (m / frameCycles c % 2 ^ c.tickBits) (m % frameCycles c) := rfl

/-- A bit cell, cycle by cycle. -/
theorem bitWave_eq_map (b : Bool) : bitWave c b = (List.range (bitCycles c)).map (bitLevel c b) := by
  have hhigh : (List.range c.n1).map (bitLevel c b) = List.replicate c.n1 .high :=
    map_range_eq_replicate fun o ho => if_pos ho
  have hdata : (List.range c.n2).map (fun o => bitLevel c b (c.n1 + o)) = List.replicate c.n2 (Level.ofBit b) :=
    map_range_eq_replicate fun o ho => by rw [bitLevel, if_neg (by omega), if_pos (by omega)]
  have hlow : (List.range c.n3).map (fun o => bitLevel c b (c.n1 + c.n2 + o)) = List.replicate c.n3 .low :=
    map_range_eq_replicate fun o _ => by rw [bitLevel, if_neg (by omega), if_neg (by omega)]
  simp [bitWave, bitCycles, List.range_add, Function.comp_def, hhigh, hdata, hlow]

/-- A byte, cycle by cycle. -/
theorem byteWave_eq_map (v : Byte) : byteWave c v = (List.range (byteCycles c)).map (byteLevel c v) := by
  simp only [byteWave, bitWave_eq_map]
  exact blocks_append_low ..

/-- A pixel word, cycle by cycle. -/
theorem wordWave_eq_map (x : Sample) :
    wordWave c x.g x.r x.b x.w = (List.range (wordCycles c)).map (wordLevel c x) := by
  have hcycles : wordCycles c = 4 * byteCycles c + c.gPixel := by
    rw [wordCycles, byteCycles]
    omega
  rw [hcycles]
  refine Eq.trans ?_ (blocks_append_low ..)
  simp [wordWave, byteWave_eq_map, List.range_succ, sampleByte]

/-- The run list of a frame shows the levels of the frame. -/
theorem runsWave_frameRuns (t : Nat) : runsWave (frameRuns c t) = (List.range (frameCycles c)).map (frameLevel c t) := by
  rw [frameCycles, Nat.add_assoc]
  refine Eq.trans ?_ (blocks_append_low ..)
  simp [frameRuns, pixelRuns, runsWave_flatMap, wordWave_eq_map, latchRun, Level.ofBit]

/-- In frame `n` the closed form of R199 is that of the frame. -/
theorem wireAt_frame (n : Nat) {o : Nat} (ho : o < frameCycles c) :
    wireAt c (1 + n * frameCycles c + o) = frameLevel c (n % 2 ^ c.tickBits) o := by
  obtain ⟨hframe, hoffset⟩ := block_coordinates n ho
  rw [Nat.add_assoc, Nat.add_comm 1, wireAt_succ, hframe, hoffset]

/-- A frame more of the closed form is the run list of that frame (R199). -/
theorem map_wireAt_succ_frame (n : Nat) :
    (List.range (1 + (n + 1) * frameCycles c)).map (wireAt c) =
      (List.range (1 + n * frameCycles c)).map (wireAt c) ++ runsWave (frameRuns c (n % 2 ^ c.tickBits)) := by
  rw [Nat.succ_mul, ← Nat.add_assoc, List.range_add, List.map_append, List.map_map, runsWave_frameRuns]
  congr 1
  exact List.map_congr_left fun o ho => wireAt_frame c n (List.mem_range.1 ho)

end

/-! ### Frame after frame from reset -/

/-- The machine at the first cycle of frame `n` after reset: on its own, ready, `TICK` counted, the first run entered with the
pin at its level, and the wire so far that of the closed form (R198, R199). -/
structure FrameStart (cfg : Cfg) (n : Nat) (s : State) : Prop where
  alone : RunsAlone s
  ready : LinkReady s
  config : s.cfg = cfg
  seq : s.seq = .run 0 cfg.n1
  pin : s.pin = true
  tick : s.tick = n % 2 ^ cfg.tickBits
  levels : s.wire.levels = (List.range (1 + n * frameCycles cfg)).map (wireAt cfg)

/-- The initialisation step leads to frame 0. -/
theorem frameStart_initialise (cfg : Cfg) : FrameStart cfg 0 (State.resetWith cfg).initialise where
  alone := ⟨rfl, rfl⟩
  ready := ⟨rfl, rfl⟩
  config := rfl
  seq := rfl
  pin := runLevel_zero cfg 0
  tick := (Nat.zero_mod _).symm
  levels := by
    rw [Nat.zero_mul]
    rfl

/-- The end of a frame leads to the next one. -/
theorem FrameStart.endFrame {cfg : Cfg} {n : Nat} {s : State} (h : FrameStart cfg n s) :
    FrameStart cfg (n + 1) (s.endFrame (frameRuns s.cfg s.tick) 0) := by
  obtain ⟨alone, ready, rfl, seq, pin, tick, levels⟩ := h
  exact {
    alone := by simpa [RunsAlone, State.endFrame] using alone
    ready := by simpa [LinkReady, State.endFrame] using ready
    config := by simp [State.endFrame]
    seq := by simp [State.endFrame]
    pin := by simp [State.endFrame]
    tick := by simp [State.endFrame, tick]
    levels := by
      rw [map_wireAt_succ_frame, ← levels, ← tick]
      exact s.emitRuns_levels _ ready.1 }

/-- From reset the CORE reaches the first cycle of every frame (R198). -/
theorem runSteps_frameStart (cfg : Cfg) (n : Nat) :
    ∃ s, runSteps (1 + n * frameCycles cfg) (State.resetWith cfg) = .next s ∧ FrameStart cfg n s := by
  induction n with
  | zero =>
    refine ⟨_, ?_, frameStart_initialise cfg⟩
    rw [Nat.zero_mul, Nat.add_zero, runSteps_succ_next _ 0 _ (step_resetWith cfg), runSteps_zero]
  | succ n ih =>
    obtain ⟨s, hs, h⟩ := ih
    refine ⟨_, ?_, h.endFrame⟩
    obtain rfl := h.config
    rw [Nat.succ_mul, ← Nat.add_assoc, runSteps_add _ _ _ _ hs, runSteps_frame h.alone h.seq]

/-! ### Cycle after cycle -/

/-- A step of the CORE on its own is one clock cycle, and places nothing. -/
theorem RunsAlone.step {s t : State} (ha : RunsAlone s) (hx : step s = .next t) :
    RunsAlone t ∧ ∃ l, Emitted s t [l] := by
  rw [step_alone s ha] at hx
  obtain ⟨-, rfl⟩ | ⟨k, n, -, -, rfl⟩ := clockStep_eq_next hx
  · exact ⟨ha, .z, by rw [Emitted, State.initialise_wire, Trace.levels_push]; rfl⟩
  · exact ⟨by simpa [RunsAlone] using ha, _, by rw [Emitted, State.clockRun_wire, Trace.levels_push]; rfl⟩

/-- Several steps that complete are one step and the others. -/
theorem runSteps_succ_eq_next {s u : State} {n : Nat} (hx : runSteps (n + 1) s = .next u) :
    ∃ t, step s = .next t ∧ runSteps n t = .next u := by
  cases hstep : step s with
  | next t => exact ⟨t, rfl, runSteps_succ_next s n t hstep ▸ hx⟩
  | fault r => exact r.casesOn
  | refused r =>
    rw [runSteps_succ_refused s n r hstep] at hx
    cases hx

/-- The first of several steps that complete lead to the state that the others start from. -/
theorem runSteps_add_eq_next {s u : State} {m n : Nat} (hx : runSteps (m + n) s = .next u) :
    ∃ t, runSteps m s = .next t ∧ runSteps n t = .next u := by
  induction m generalizing s with
  | zero => exact ⟨s, rfl, Nat.zero_add n ▸ hx⟩
  | succ m ih =>
    rw [Nat.succ_add] at hx
    obtain ⟨v, hv, hx⟩ := runSteps_succ_eq_next hx
    obtain ⟨t, ht, hrest⟩ := ih hx
    exact ⟨t, (runSteps_succ_next s m v hv).trans ht, hrest⟩

/-- Steps of the CORE on its own are as many clock cycles. -/
theorem RunsAlone.runSteps {s t : State} {n : Nat} (ha : RunsAlone s) (hx : runSteps n s = .next t) :
    RunsAlone t ∧ ∃ ls, ls.length = n ∧ Emitted s t ls := by
  induction n generalizing s with
  | zero =>
    cases hx
    exact ⟨ha, [], rfl, (List.append_nil _).symm⟩
  | succ n ih =>
    obtain ⟨v, hv, hx⟩ := runSteps_succ_eq_next hx
    obtain ⟨hv, l, hl⟩ := ha.step hv
    obtain ⟨ht, ls, hlen, hls⟩ := ih hv hx
    refine ⟨ht, l :: ls, congrArg (· + 1) hlen, ?_⟩
    rw [Emitted, hls, hl, List.append_assoc, List.singleton_append]

/-- A frame takes time: there is a latch in it. -/
theorem frameCycles_pos (c : Cfg) : 0 < frameCycles c := by
  obtain ⟨-, -, -, -, -, hlatch, -⟩ := c.bounds
  rw [frameCycles]
  omega

/-- Settles O56: the first `n` steps are the beginning of those that lead to frame `n`, and each puts one cycle on the wire. -/
theorem wireFollowsClosedForm : Obligations.WireFollowsClosedForm := by
  intro cfg n
  obtain ⟨u, hu, hframe⟩ := runSteps_frameStart cfg n
  have hlevels := hframe.levels
  obtain ⟨d, hd⟩ : ∃ d, 1 + n * frameCycles cfg = n + d := by
    have hlong := Nat.le_mul_of_pos_right n (frameCycles_pos cfg)
    exact Nat.exists_eq_add_of_le (by omega)
  rw [hd] at hu hlevels
  obtain ⟨s, hs, hrest⟩ := runSteps_add_eq_next hu
  obtain ⟨ha, ls, hlen, hfirst⟩ := RunsAlone.runSteps ⟨rfl, rfl⟩ hs
  obtain ⟨-, ls', -, hlast⟩ := ha.runSteps hrest
  have hbegin : s.wire.levels = ls := hfirst
  rw [hlast, hbegin, List.range_add, List.map_append] at hlevels
  refine ⟨s, hs, hbegin.trans (List.append_inj hlevels ?_).1⟩
  rw [hlen, List.length_map, List.length_range]

end Sys2Proof.Machine
end

section
/-! Every well-formed operation is read back from its own code (R80, R83, R86 to R88, R92). -/

namespace Sys2Proof

/-- A packed command word is decoded to the row of its operation code with the operand bytes packed into it (R86). -/
theorem decode_packCommand {op : Nat} (hop : op < 8) (a b c d : Byte) :
    decode (.word .plcmd 35 (packCommand op a b c d)) = commandOfFields op a b c d := by
  obtain ⟨ha, hb, hc, hd⟩ := byteAt_packCommand op a b c d
  rw [decode_plcmd (packCommand_lt op a b c d hop), packCommand_shift, ha, hb, hc, hd]

/-- Four packed bytes are decoded to the pixel word of those bytes (R83). -/
theorem decode_packBytes (g r b w : Byte) : decode (.word .pix32 32 (packBytes g r b w)) = .ok (.pixelWord g r b w) := by
  obtain ⟨hg, hr, hb, hw⟩ := byteAt_packBytes g r b w
  rw [decode_pix32 (packBytes_lt g r b w), hg, hr, hb, hw]

/-- Settles O2: pixel words and command words come back field by field, a named operation operand by operand, and the codes
without operands are single words. -/
theorem encodedOperationDecodesToItself : Obligations.EncodedOperationDecodesToItself := by
  intro i _
  cases i with
  | pixelWord g r b w => exact decode_packBytes g r b w
  | sendByte v => exact decode_packCommand (by decide) v 0 0 0
  | writeColor g r b w | writeColorAll g r b w => exact decode_packCommand (by decide) g r b w
  | clear | latch => exact decode_packCommand (by decide) 0 0 0 0
  | b0 | b1 | latchSym | animChase | animHueBreath | animHueRotate | animSplit | animHires | convSec3 | convSec6 => decide
  | setPinHigh | setPinLow | setPinDirectionOutput | init | tickInc | map => rfl
  | sendBit | scale | hsv3 | hsv6 | hueOf | env | ramp | renderFrame | delay =>
    simp [encode, decode, decodeNamed, Decoded.ofOption]

/-- Settles O1: each word is a closed case of the decoder. -/
theorem wordsOfTheTableDecode : Obligations.WordsOfTheTableDecode := by
  unfold Obligations.WordsOfTheTableDecode
  decide

end Sys2Proof
end

section
/-! Which operation a step runs: the code placed, `init` where it has to wait, the clock step where there is none (R90, R190;
log entries 14, 15). -/

namespace Sys2Proof.Machine

variable {s : State} {c : Code}

/-- A code placed is taken at `INIT` if it is one of the configuration, and later in any case (log entry 14). -/
theorem State.codeToRun_of_code (hcode : s.code = some c) (hc : s.seq ≠ .init ∨ c.isConfig = true) :
    s.codeToRun = some c :=
  State.codeToRun_eq_some.2 ⟨hcode, hc.resolve_left ∘ not_not_intro⟩

/-- With reset released a step runs the operation of the code it takes, with the slot emptied (log entry 14). -/
theorem step_of_ok {i : Instr} (hrst : s.rstN = true) (hc : s.codeToRun = some c) (hi : decode c = .ok i) :
    step s = exec i { s with code := none } := by
  simp [step, hrst, hc, hi]

/-- With reset released a step whose code stands for no operation is refused (R90). -/
theorem step_of_illegal {e : DecodeError} (hrst : s.rstN = true) (hc : s.codeToRun = some c)
    (he : decode c = .illegal e) : step s = .refused (.illegalCode e) := by
  simp [step, hrst, hc, he]

/-- With reset released and no code to take, a step is the clock step (R196). -/
theorem step_of_codeToRun_none (hrst : s.rstN = true) (hc : s.codeToRun = none) : step s = clockStep s := by
  simp [step, hrst, hc]

/-- At `INIT` any code but one of the configuration waits (R190; log entry 14). -/
theorem State.codeToRun_waits (hseq : s.seq = .init) (hc : ∀ c, s.code = some c → c.isConfig = false) :
    s.codeToRun = none := by
  cases hcode : s.code with
  | none => simp [State.codeToRun, hcode]
  | some c => simp [State.codeToRun, hcode, hseq, hc c hcode]

/-- The clock step at `INIT` is the initialisation step (R190, R196). -/
theorem clockStep_init (hseq : s.seq = .init) : clockStep s = .next s.initialise := by
  simp [clockStep, hseq]

/-- Settles O6: the four cases are those of the code to be taken. -/
theorem stepRunsThePlacedOperation : Obligations.StepRunsThePlacedOperation := by
  intro s hrst
  refine ⟨fun c i hcode hi hc => ?_, fun c e hcode he hc => ?_, fun c hcode hseq hc => ?_, fun hcode => ?_⟩
  · exact step_of_ok hrst (State.codeToRun_of_code hcode hc) hi
  · exact step_of_illegal hrst (State.codeToRun_of_code hcode hc) he
  · have hwaits : ∀ d, s.code = some d → d.isConfig = false := fun d hd => by
      cases hcode.symm.trans hd
      exact hc
    exact (step_of_codeToRun_none hrst (State.codeToRun_waits hseq hwaits)).trans (clockStep_init hseq)
  · exact step_alone s ⟨hrst, hcode⟩

/-- The operation codes 5 to 7 stand for no command (R90). -/
theorem decode_plcmd_reserved {w : Nat} (hlo : 5 * 2 ^ 32 ≤ w) (hhi : w < 2 ^ 35) :
    decode (.word .plcmd 35 w) = .illegal .reservedOp := by
  rw [decode_plcmd hhi]
  have hop : w >>> 32 = 5 ∨ w >>> 32 = 6 ∨ w >>> 32 = 7 := by
    rw [Nat.shiftRight_eq_div_pow]
    omega
  obtain hop | hop | hop := hop <;> rw [hop] <;> rfl

/-- The values 5 to 7 of `ANIM_SEL` stand for no strategy (R90). -/
theorem decode_anim_reserved {w : Nat} (hlo : 5 ≤ w) (hhi : w ≤ 7) :
    decode (.word .anim 3 w) = .illegal .reservedAnim := by
  obtain rfl | rfl | rfl : w = 5 ∨ w = 6 ∨ w = 7 := by omega
  all_goals rfl

/-- Settles O4: the reserved values decode to no operation, and the step that takes such a code is refused. -/
theorem reservedCodesAreRefused : Obligations.ReservedCodesAreRefused := by
  intro s hrst
  refine ⟨fun w hlo hhi hseq hcode => ?_, fun w hlo hhi hcode => ?_⟩
  · exact step_of_illegal hrst (State.codeToRun_of_code hcode (.inl hseq)) (decode_plcmd_reserved hlo hhi)
  · exact step_of_illegal hrst (State.codeToRun_of_code hcode (.inr rfl)) (decode_anim_reserved hlo hhi)

/-- Settles O7: `withFetchWord` takes the `init` step exactly where the code would have to wait, so the next step runs the
operation the word decodes to. -/
theorem placedTableWordRunsNext : Obligations.PlacedTableWordRunsNext := by
  intro s nbits w i hrst hw
  have hi := (decodeTableWord_eq_some nbits w i).1 hw
  have hkind := isConfigCode_of_decode _ i hi
  refine ⟨fun hnow => ?_, fun hop hseq => ⟨_, rfl, ?_⟩⟩
  · have hplace : s.withFetchWord nbits w = { s with code := some (codeOfTableWord nbits w) } := by
      have hready : ¬ (s.seq = .init ∧ (codeOfTableWord nbits w).isConfig = false) := by
        rintro ⟨hseq, hwait⟩
        rw [hkind, hwait] at hnow
        simp [hseq] at hnow
      simp only [State.withFetchWord, if_neg hready, ← hrst]
    have htaken := State.codeToRun_of_code (s := s.withFetchWord nbits w) (c := codeOfTableWord nbits w) rfl (by
      rw [hplace, ← hkind]
      exact hnow.symm)
    rw [step_of_ok rfl htaken hi, hplace]
  · have hwait : s.seq = .init ∧ (codeOfTableWord nbits w).isConfig = false := ⟨hseq, hkind ▸ hop⟩
    have hplace : s.withFetchWord nbits w = { s.initialise with rstN := true, code := some (codeOfTableWord nbits w) } := by
      simp only [State.withFetchWord, if_pos hwait]
    rw [hplace, step_of_ok rfl (State.codeToRun_of_code rfl (.inl (by simp))) hi, ← hrst]
    rfl

end Sys2Proof.Machine
end

section
/-! Everything an operation can do to the state, by its kind, and from it which registers each operation leaves alone (R5, R20 to
R26, R88). -/

namespace Sys2Proof.Machine

/-! ### What an operation can do -/

/-- What an operation that completes has done, by its kind. -/
inductive Effect (i : Instr) (s t : State) : Prop
  | transmits (kind : isLinkOperation i = true ∨ endsWithLatch i = true) (ready : LinkReady s) (rs : List Run) (n : Nat)
      (ht : t = (s.emitRuns rs).setSent n)
  | configures (kind : isConfigCode i = true) (before : s.seq = .init) (c : Cfg) (width : c.tickBits = s.cfg.tickBits)
      (ht : t = { s with cfg := c })
  | answers (kind : isPureFunction i = true) (v : Ret) (ht : t = { s with ret := v })
  | setsPin (b : Bool) (kind : i = if b then .setPinHigh else .setPinLow) (driven : s.dir = true)
      (ht : t = { s with pin := b })
  | drives (kind : i = .setPinDirectionOutput) (ht : t = s.driveOutput)
  | initialises (kind : i = .init) (ht : t = s.initialise)
  | delays (n : Nat) (kind : i = .delay n) (ht : t = s.emit ⟨false, n⟩)
  | counts (kind : i = .tickInc) (ht : t = s.advanceTick)

/-- An operation that completes has one of these effects, that of its row. -/
theorem effect_of_exec {i : Instr} {s t : State} (hx : exec i s = .next t) : Effect i s t := by
  have transmits (kind : isLinkOperation i = true ∨ endsWithLatch i = true) (h : Transmits i s) : Effect i s t := by
    obtain ⟨ready, rs, n, ht⟩ := h.eq_next hx
    exact .transmits kind ready rs n ht
  have configures (kind : isConfigCode i = true) {c : Cfg} (h : s.configure c = .next t)
      (width : c.tickBits = s.cfg.tickBits) : Effect i s t := by
    obtain ⟨before, ht⟩ := (s.configure_eq_next _ _).1 h
    exact .configures kind before c width ht
  have answers (kind : isPureFunction i = true) : Effect i s t := by
    obtain ⟨v, ht⟩ := exec_pureFunction_eq_next kind hx
    exact .answers kind v ht
  cases i with
  | b0 | b1 | sendBit | sendByte | pixelWord | writeColor | writeColorAll | clear | latch | latchSym =>
    exact transmits (.inl rfl) (transmits_of_isLinkOperation rfl s)
  | renderFrame n p =>
    by_cases hp : 1 ≤ p ∧ p ≤ 255
    · exact transmits (.inr rfl) (transmits_renderFrame n hp s)
    · rw [exec_renderFrame_illegal n hp s] at hx
      cases hx
  | animChase | animHueBreath | animHueRotate | animSplit | animHires | convSec3 | convSec6 =>
    exact configures rfl hx rfl
  | map | scale | hsv3 | hsv6 | hueOf | env | ramp => exact answers rfl
  | setPinHigh =>
    obtain ⟨driven, ht⟩ := (s.whenDriven_eq_next _ _).1 hx
    exact .setsPin true rfl driven (Host.Outcome.next.inj ht).symm
  | setPinLow =>
    obtain ⟨driven, ht⟩ := (s.whenDriven_eq_next _ _).1 hx
    exact .setsPin false rfl driven (Host.Outcome.next.inj ht).symm
  | setPinDirectionOutput => exact .drives rfl (Host.Outcome.next.inj hx).symm
  | init => exact .initialises rfl (Host.Outcome.next.inj hx).symm
  | delay n => exact .delays n rfl (Host.Outcome.next.inj hx).symm
  | tickInc => exact .counts rfl (Host.Outcome.next.inj hx).symm

/-! ### What it leaves unchanged -/

/-- Settles O21: each effect writes its own register, and its kind is the exception the statement makes for it. -/
theorem eachRegisterHasItsOnlyWriters : Obligations.EachRegisterHasItsOnlyWriters := by
  intro i s t hx
  cases effect_of_exec hx with
  | transmits _ _ rs n ht => simp [ht]
  | configures kind _ c _ ht => simp [ht, kind]
  | answers kind v ht => simp [ht, kind]
  | setsPin b _ _ ht => simp [ht]
  | drives kind ht => simp [ht, kind]
  | initialises kind ht => simp [ht, kind]
  | delays n _ ht => simp [ht]
  | counts kind ht => simp [ht, kind]

/-- Settles O22: none of these operations emits, and only the first two pin primitives write `PIN`. -/
theorem operationsOffTheWireLeaveTheWire : Obligations.OperationsOffTheWireLeaveTheWire := by
  intro i s t hi hx
  obtain hi | hi | rfl | rfl | rfl | rfl := hi
  · obtain ⟨v, rfl⟩ := exec_pureFunction_eq_next hi hx
    exact ⟨rfl, rfl, rfl, fun _ _ => rfl⟩
  · obtain ⟨-, c, rfl⟩ := exec_configCode_eq_next hi hx
    exact ⟨rfl, rfl, rfl, fun _ _ => rfl⟩
  · obtain ⟨-, hnext⟩ := (s.whenDriven_eq_next _ _).1 hx
    cases hnext
    exact ⟨rfl, rfl, rfl, fun hne => absurd rfl hne⟩
  · obtain ⟨-, hnext⟩ := (s.whenDriven_eq_next _ _).1 hx
    cases hnext
    exact ⟨rfl, rfl, rfl, fun _ hne => absurd rfl hne⟩
  · cases hx
    exact ⟨rfl, rfl, rfl, fun _ _ => rfl⟩
  · cases hx
    exact ⟨rfl, rfl, rfl, fun _ _ => rfl⟩

/-! ### Configuration codes and operands outside a stated domain -/

/-- Before the run a configuration code writes CFG (log entry 15). -/
theorem State.configure_before {s : State} (hseq : s.seq = .init) (c : Cfg) :
    s.configure c = .next { s with cfg := c } := if_pos hseq

/-- Once the run has begun a configuration code is refused (log entry 15). -/
theorem exec_configCode_refused {i : Instr} {s : State} (hi : isConfigCode i = true) (hseq : s.seq ≠ .init) :
    exec i s = .refused .runtimeReconfiguration := by
  cases i with
  | animChase | animHueBreath | animHueRotate | animSplit | animHires | convSec3 | convSec6 => exact if_neg hseq
  | _ => cases hi

/-- The breath of a configuration does not depend on the strategy it selects: the envelope is read inside its domain (R164). -/
theorem colorBreath_setAnim (c : Cfg) (a : AnimSel) (t i : Nat) : colorBreath (c.setAnim a) t i = colorBreath c t i := by
  rw [colorBreath, colorBreath, env_mod_brPeriod, env_mod_brPeriod]
  rfl

/-- The rainbow of a configuration does not depend on the strategy it selects: the ramp is read inside its domain (R168). -/
theorem colorHires_setAnim {c : Cfg} {i : Nat} (hi : i < c.pixels) (a : AnimSel) (t : Nat) :
    colorHires (c.setAnim a) t i = colorHires c t i := by
  have hpos : hiresPosition c t % (255 * c.pixels) < 255 * c.pixels := Nat.mod_lt _ (by omega)
  have inside (c' : Cfg) (hP : c'.pixels = c.pixels) : ramp c' i (hiresPosition c t % (255 * c.pixels)) =
      rampCases i (hiresPosition c t % (255 * c.pixels)) := if_pos (by rw [hP]; exact ⟨hi, hpos⟩)
  have hramp := (inside (c.setAnim a) rfl).trans (inside c rfl).symm
  exact congrArg (fun up => sampleOfRgb (sectorRgb (hiresPosition c t / (255 * c.pixels)) up) 0) hramp

/-- Settles O47: each code writes its own selection, which is the one `Color` goes by. -/
theorem configurationCodesSelect : Obligations.ConfigurationCodesSelect := by
  refine ⟨fun s hseq => ?_, fun s i hi hseq => exec_configCode_refused hi hseq, fun _ _ => rfl, fun _ _ => rfl,
    fun c t i ht hi => ?_⟩
  · have writes := State.configure_before hseq
    exact ⟨writes _, writes _, writes _, writes _, writes _, writes _, writes _⟩
  · have selects (a : AnimSel) : color (c.setAnim a) t i = strategy (c.setAnim a) t i :=
      color_eq_strategy _ t i ht hi
    exact ⟨selects _, (selects _).trans (colorBreath_setAnim c _ t i), selects _, selects _,
      (selects _).trans (colorHires_setAnim hi _ t)⟩

/-- `init` puts one undriven cycle on the wire, wherever it is taken (R190; log entry 24). -/
theorem State.initialise_emitted (s : State) : Emitted s s.initialise [.z] := by
  rw [Emitted, State.initialise_wire, Trace.levels_push]
  rfl

/-- Settles O36: the pure functions answer whatever the operand, `init` has its effect, and the last two are refused. -/
theorem operandsOutsideTheStatedDomain : Obligations.OperandsOutsideTheStatedDomain := by
  intro e i p t s
  refine ⟨⟨_, rfl⟩, ⟨_, rfl⟩, ⟨_, rfl, rfl, rfl, rfl, rfl, s.initialise_emitted, rfl, rfl⟩, rfl, fun hp => ?_⟩
  exact exec_renderFrame_illegal t hp s

end Sys2Proof.Machine
end

section
/-! The clock step in its cases: a cycle counted, the next run entered, the next frame begun (R196). -/

namespace Sys2Proof.Machine

section
variable (s : State) (k : Nat)

/-- After its last cycle a run is left for the next one that takes time (R196). -/
theorem State.leaveRun_of_some {k' : Nat} (h : nextRun s.cfg k = some k') :
    s.leaveRun k = (s.setSent (sentAfter s.cfg k s.sent)).enter k' (runLen s.cfg k') := by
  simp [State.leaveRun, h]

/-- After its last cycle the last run of a frame is left for the next frame (R196). -/
theorem State.leaveRun_of_none (h : nextRun s.cfg k = none) :
    s.leaveRun k = (s.setSent (sentAfter s.cfg k s.sent)).advanceTick.enter 0 s.cfg.n1 := by
  simp [State.leaveRun, h]

/-- Leaving a run counts the bits it has sent (log entry 21). -/
@[simp] theorem State.leaveRun_sent : (s.leaveRun k).sent = sentAfter s.cfg k s.sent := by
  unfold State.leaveRun
  dsimp only
  split <;> simp

/-- Before the last cycle of a run a cycle is counted (R196). -/
theorem State.clockRun_of_lt {n : Nat} (hn : 1 < n) :
    s.clockRun k n = (s.emit ⟨runLevel s.cfg s.tick k, 1⟩).enter k (n - 1) := if_pos hn

/-- After the last cycle of a run it is left (R196). -/
theorem State.clockRun_one : s.clockRun k 1 = (s.emit ⟨runLevel s.cfg s.tick k, 1⟩).leaveRun k := rfl

/-- Entering a run sets `PIN` to its level (R196). -/
theorem State.enter_pinFollowsRun (n : Nat) : PinFollowsRun (s.enter k n) := by
  intro k' n' h
  cases h
  rfl

/-- A clock cycle of a run ends with the entry of a position: of the same run, of a later one, or of the next frame's first. -/
theorem State.clockRun_eq_enter (n : Nat) : ∃ (u : State) (k' n' : Nat), s.clockRun k n = u.enter k' n' := by
  rcases Nat.lt_or_ge 1 n with hn | hn
  · exact ⟨_, _, _, s.clockRun_of_lt k hn⟩
  · have hlast : s.clockRun k n = (s.emit ⟨runLevel s.cfg s.tick k, 1⟩).leaveRun k := if_neg hn.not_gt
    rw [hlast]
    cases hnext : nextRun (s.emit ⟨runLevel s.cfg s.tick k, 1⟩).cfg k with
    | some k' => exact ⟨_, _, _, State.leaveRun_of_some _ k hnext⟩
    | none => exact ⟨_, _, _, State.leaveRun_of_none _ k hnext⟩

/-- After a clock cycle `PIN` is the level of the current run (R24, R196). -/
theorem State.clockRun_pinFollowsRun (n : Nat) : PinFollowsRun (s.clockRun k n) := by
  obtain ⟨u, k', n', h⟩ := s.clockRun_eq_enter k n
  rw [h]
  exact u.enter_pinFollowsRun k' n'

/-- A clock cycle of a run does not lead back to `INIT`. -/
theorem State.clockRun_seq_ne_init (n : Nat) : (s.clockRun k n).seq ≠ .init := by
  obtain ⟨u, k', n', h⟩ := s.clockRun_eq_enter k n
  simp [h]

/-- Where a clock cycle from a position of the frame leads to is a position again, and the tick stays in its range (R21, R22). -/
theorem State.clockRun_position {n : Nat} (hpos : isPosition s.cfg (.run k n) = true) (htick : s.tick < 2 ^ s.cfg.tickBits) :
    isPosition s.cfg (s.clockRun k n).seq = true ∧ (s.clockRun k n).tick < 2 ^ s.cfg.tickBits := by
  obtain ⟨hk, hn, hlen⟩ := (isPosition_run _ _ _).1 hpos
  rcases Nat.lt_or_ge 1 n with hlt | hge
  · rw [s.clockRun_of_lt k hlt, State.enter_seq, isPosition_run]
    exact ⟨⟨hk, by omega, by omega⟩, by simpa using htick⟩
  · obtain rfl : n = 1 := by omega
    rw [s.clockRun_one k]
    cases hnext : nextRun (s.emit ⟨runLevel s.cfg s.tick k, 1⟩).cfg k with
    | some k' =>
      rw [State.leaveRun_of_some _ k hnext, State.enter_seq, State.emit_cfg, isPosition_run]
      rw [State.emit_cfg] at hnext
      obtain ⟨-, hk', hlen', -⟩ := nextRun_eq_some _ _ _ hnext
      exact ⟨⟨hk', hlen', le_rfl⟩, by simpa using htick⟩
    | none =>
      rw [State.leaveRun_of_none _ k hnext, State.enter_seq, State.emit_cfg]
      exact ⟨isPosition_start s.cfg, Nat.mod_lt _ (Nat.two_pow_pos _)⟩

end

/-! ### Steps once the run has begun -/

section
variable {s t : State}

/-- Once the run has begun, a step with reset released does not lead back to `INIT`, keeps CFG and leaves reset released: no
configuration code completes, and no other operation writes these (R4, R190). -/
theorem step_after_init (hrst : s.rstN = true) (hseq : s.seq ≠ .init) (hx : step s = .next t) :
    t.seq ≠ .init ∧ t.cfg = s.cfg ∧ t.rstN = true := by
  obtain hclock | ⟨c, i, -, -, -, hexec⟩ := step_eq_next hrst hx
  · obtain ⟨hinit, -⟩ | ⟨k, n, -, -, rfl⟩ := clockStep_eq_next hclock
    · exact absurd hinit hseq
    · exact ⟨s.clockRun_seq_ne_init k n, s.clockRun_cfg k n, (s.clockRun_rstN k n).trans hrst⟩
  · have hrun : isConfigCode i = false := by
      cases hi : isConfigCode i with
      | false => rfl
      | true => exact absurd (exec_configCode_eq_next hi hexec).1 hseq
    obtain ⟨hrstN, -, -, hpos, -, hcfg, -⟩ := eachRegisterHasItsOnlyWriters i _ t hexec
    refine ⟨?_, hcfg hrun, hrstN.trans hrst⟩
    by_cases hi : i = .init
    · subst hi
      cases hexec
      simp
    · rw [(hpos hi).1]
      exact hseq

/-- Settles O10: `init` is the initialisation step, taken at `INIT` while any other code but one of the configuration waits; and
no step of the run leads back there. -/
theorem initDrivesPinMasksInterrupts : Obligations.InitDrivesPinMasksInterrupts := by
  refine ⟨fun s hseq => ?_, fun s t hrst hseq hx => (step_after_init hrst hseq hx).1⟩
  refine ⟨s.initialise, rfl, rfl, rfl, rfl, ?_, s.initialise_emitted, rfl, s.chain.undriven_fresh, rfl, rfl, rfl, rfl, rfl,
    fun hrst hcode => ?_⟩
  · rw [State.initialise_pin, runLevel_zero]
  · rw [step_of_codeToRun_none hrst (State.codeToRun_waits hseq hcode), clockStep_init hseq]

/-- Settles O9: the values are those of the reset state; on release the initialisation step follows, which shows an unknown
chain nothing. -/
theorem assertedResetWinsOverEverything : Obligations.AssertedResetWinsOverEverything := by
  intro s hrst
  refine ⟨s.applyReset, if_pos hrst, rfl, rfl, rfl, rfl, rfl, hrst, rfl, rfl, rfl, rfl, fun _ => rfl, rfl, rfl, rfl, ?_⟩
  refine ⟨State.initialise { s.applyReset with rstN := true }, step_alone _ ⟨rfl, rfl⟩, rfl, rfl, rfl, rfl, ?_, rfl⟩
  exact State.initialise_emitted { s.applyReset with rstN := true }

end

end Sys2Proof.Machine
end

section
/-! The invariant: every operation, the clock step and reset keep it, and under it the CORE on its own goes on (R21 to R26, R58,
R119). -/

namespace Sys2Proof.Machine

section
variable {s t : State}

/-- The chain's part of the invariant. -/
theorem Inv.chainOk (h : Inv s) : s.chain.Ok := ⟨h.disp, h.part⟩

/-- Once the run has begun, the invariant asks for the pin driven and interrupts masked, and nothing of `INIT`. -/
theorem inv_of_running (htick : s.tick < 2 ^ s.cfg.tickBits) (hpos : isPosition s.cfg s.seq = true) (hrun : s.seq ≠ .init)
    (hready : LinkReady s) (hwire : s.wire.wf = true) (hchain : s.chain.Ok) : Inv s where
  tick := htick
  position := hpos
  beforeInit := fun hinit => absurd hinit hrun
  afterInit := fun _ => hready
  wire := hwire
  disp := hchain.1
  part := hchain.2

/-- The initialisation step leads to a running machine of the invariant (R190). -/
theorem Inv.initialise (h : Inv s) : Inv s.initialise :=
  inv_of_running h.tick (isPosition_start s.cfg) (by simp) ⟨rfl, rfl⟩ (Trace.wf_push _ .z 1 h.wire)
    h.chainOk.undriven

/-- A clock cycle of a run keeps the invariant (R196). -/
theorem Inv.clockRun (h : Inv s) {k n : Nat} (hseq : s.seq = .run k n) : Inv (s.clockRun k n) := by
  obtain ⟨hpos, htick⟩ := s.clockRun_position k (hseq ▸ h.position) h.tick
  have hready : LinkReady s := h.afterInit (by simp [hseq])
  exact inv_of_running (by simpa using htick) (by simpa using hpos) (s.clockRun_seq_ne_init k n)
    (by simpa [LinkReady] using hready) (by simpa using Trace.wf_push _ _ _ h.wire)
    (by simpa using h.chainOk.feed s.cfg _ _)

/-- The clock step keeps the invariant (R196). -/
theorem Inv.clockStep (h : Inv s) (hx : clockStep s = .next t) : Inv t := by
  obtain ⟨-, rfl⟩ | ⟨k, n, hseq, -, rfl⟩ := clockStep_eq_next hx
  · exact h.initialise
  · exact h.clockRun hseq

/-- An operation keeps the invariant where a step may run it: at `INIT` if it is a configuration code, later in any case. -/
theorem Inv.exec {i : Instr} (h : Inv s) (hplace : s.seq = .init → isConfigCode i = true) (hx : exec i s = .next t) :
    Inv t := by
  have running (hi : isConfigCode i = false) : s.seq ≠ .init ∧ LinkReady s := by
    have hseq : s.seq ≠ .init := fun hinit => Bool.false_ne_true (hi.symm.trans (hplace hinit))
    exact ⟨hseq, h.afterInit hseq⟩
  cases effect_of_exec hx with
  | configures _ hinit c hwidth ht =>
    subst ht
    exact {
      tick := hwidth ▸ h.tick
      position := by rw [hinit]; rfl
      beforeInit := h.beforeInit
      afterInit := h.afterInit
      wire := h.wire
      disp := h.disp
      part := h.part }
  | answers _ v ht =>
    subst ht
    exact ⟨h.tick, h.position, h.beforeInit, h.afterInit, h.wire, h.disp, h.part⟩
  | setsPin b _ _ ht =>
    subst ht
    exact ⟨h.tick, h.position, h.beforeInit, h.afterInit, h.wire, h.disp, h.part⟩
  | initialises _ ht =>
    subst ht
    exact h.initialise
  | transmits _ hready rs n ht =>
    subst ht
    have hrun : s.seq ≠ .init := fun hinit => Bool.false_ne_true ((h.beforeInit hinit).1.symm.trans hready.1)
    exact inv_of_running (by simpa using h.tick) (by simpa using h.position) (by simpa using hrun)
      (by simpa [LinkReady] using hready) (s.emitRuns_wf rs h.wire) (s.emitRuns_chainOk rs h.chainOk)
  | drives kind ht =>
    subst ht kind
    obtain ⟨hrun, -, hie⟩ := running rfl
    exact inv_of_running h.tick h.position hrun ⟨rfl, hie⟩ h.wire h.chainOk
  | delays n kind ht =>
    subst ht kind
    obtain ⟨hrun, hready⟩ := running rfl
    exact inv_of_running (by simpa using h.tick) (by simpa using h.position) (by simpa using hrun)
      (by simpa [LinkReady] using hready) (s.emitRuns_wf [_] h.wire) (s.emit_chainOk _ h.chainOk)
  | counts kind ht =>
    subst ht kind
    obtain ⟨hrun, hready⟩ := running rfl
    exact inv_of_running (Nat.mod_lt _ (Nat.two_pow_pos _)) h.position hrun hready h.wire h.chainOk

/-- The invariant holds of a reset state whatever the level of the reset input, over an untouched chain (R31). -/
theorem inv_resetWith (cfg : Cfg) (rstN : Bool) {ch : Chain} (hch : ch.Ok) (hline : ch.line = .lead 0) :
    Inv { State.resetWith cfg with rstN := rstN, chain := ch } where
  tick := Nat.two_pow_pos _
  position := rfl
  beforeInit := fun _ => ⟨rfl, hline⟩
  afterInit := fun hrun => absurd rfl hrun
  wire := rfl
  disp := hch.1
  part := hch.2

end

/-- Settles O57: reset gives a reset state over the unknown chain; the clock step and the operation placed keep the invariant. -/
theorem everyStepKeepsTheInvariant : Obligations.EveryStepKeepsTheInvariant := by
  intro s t h hx
  cases hrst : s.rstN with
  | false =>
    rw [step, if_pos hrst] at hx
    cases hx
    exact inv_resetWith s.cfg s.rstN ⟨rfl, by decide⟩ rfl
  | true =>
    obtain hclock | ⟨c, i, -, hconfig, hi, hexec⟩ := step_eq_next hrst hx
    · exact h.clockStep hclock
    · have hplace (hinit : s.seq = .init) : isConfigCode i = true := (isConfigCode_of_decode c i hi).trans (hconfig hinit)
      have hinv : Inv { s with code := none } := ⟨h.tick, h.position, h.beforeInit, h.afterInit, h.wire, h.disp, h.part⟩
      exact hinv.exec hplace hexec

/-- Settles O58: the reset state of the model, over the chain a model starts with. -/
theorem resetStateSatisfiesTheInvariant : Obligations.ResetStateSatisfiesTheInvariant :=
  fun cfg => inv_resetWith cfg true ⟨rfl, by decide⟩ rfl

/-- Settles O59: reset answers a state, and so does the clock step from every position; each leaves the slot empty and, once
the run has begun, `PIN` at the level of the run entered. -/
theorem theCoreNeverStops : Obligations.TheCoreNeverStops := by
  intro s h hcode
  suffices hstep : ∃ t, step s = .next t ∧ t.code = none ∧ PinFollowsRun t by
    obtain ⟨t, hx, hslot, hpin⟩ := hstep
    exact ⟨t, hx, hslot, everyStepKeepsTheInvariant s t h hx, hpin⟩
  cases hrst : s.rstN with
  | false => exact ⟨s.applyReset, if_pos hrst, rfl, fun k n hseq => by cases hseq⟩
  | true =>
    rw [step_alone s ⟨hrst, hcode⟩]
    cases hseq : s.seq with
    | init => exact ⟨s.initialise, clockStep_init hseq, hcode, State.enter_pinFollowsRun _ 0 _⟩
    | run k n =>
      exact ⟨s.clockRun k n, clockStep_run s k n hseq (hseq ▸ h.position), by simpa using hcode,
        s.clockRun_pinFollowsRun k n⟩

/-- Settles O60: the invariant gives the pin driven and interrupts masked, which every step after `INIT` keeps. -/
theorem configurationAndPinStayFixedAfterInit : Obligations.ConfigurationAndPinStayFixedAfterInit := by
  intro s t h hrst hseq hx
  obtain ⟨hrun, hcfg, hrstN⟩ := step_after_init hrst hseq hx
  obtain ⟨hdir, hie⟩ := LinkReady.step (h.afterInit hseq) hrst hx
  exact ⟨hcfg, hrun, hdir, hie, hrstN⟩

end Sys2Proof.Machine
end

section
/-! The clock steps of a frame against its run list and against the main loop (R191, R195, R196, R198). -/

namespace Sys2Proof.Machine

/-- Settles O51: the coordinates the clock step reads are those of the run list. -/
theorem runCoordinatesMatchRunList : Obligations.RunCoordinatesMatchRunList :=
  fun c t _ hk => getElem?_frameRuns_runLevel_runLen c t hk

/-! ### The count of bits sent (log entry 21) -/

/-- Run `k` is the third region of a bit cell: bit cell `m` of byte `j` of pixel `i` (R23). -/
def EndsBit (c : Cfg) (k : Nat) : Prop := ∃ i j m, i < c.pixels ∧ j < 4 ∧ m < 8 ∧ k = 101 * i + 25 * j + 3 * m + 2

/-- The third regions of the bit cells, by the coordinates of R23. -/
theorem endsBit_iff (c : Cfg) (k : Nat) :
    EndsBit c k ↔ k < 101 * c.pixels ∧ k % 101 ≠ 100 ∧ k % 101 % 25 ≠ 24 ∧ k % 101 % 25 % 3 = 2 := by
  constructor
  · rintro ⟨i, j, m, hi, hj, hm, rfl⟩
    have hmod : (101 * i + 25 * j + 3 * m + 2) % 101 = 25 * j + (3 * m + 2) := by omega
    have hrun : (25 * j + (3 * m + 2)) % 25 = 3 * m + 2 := by omega
    rw [hmod, hrun]
    omega
  · rintro ⟨hk, hgap, hlast, hregion⟩
    exact ⟨k / 101, k % 101 / 25, k % 101 % 25 / 3, by omega, by omega, by omega, by omega⟩

/-- The end of a bit's third region counts a bit. -/
theorem sentAfter_of_endsBit {c : Cfg} {k : Nat} (h : EndsBit c k) (sent : Nat) : sentAfter c k sent = sent + 1 := by
  obtain ⟨hk, hregion⟩ := (endsBit_iff c k).1 h
  rw [sentAfter, if_pos hk, if_pos hregion]

/-- The end of the latch run ends the count. -/
theorem sentAfter_latch (c : Cfg) (sent : Nat) : sentAfter c (101 * c.pixels) sent = 0 := by
  simp [sentAfter]

/-- The end of any other run leaves the count alone. -/
theorem sentAfter_of_other {c : Cfg} {k : Nat} (h : ¬ EndsBit c k) (hlatch : k ≠ 101 * c.pixels) (sent : Nat) :
    sentAfter c k sent = sent := by
  rw [endsBit_iff] at h
  rw [sentAfter, if_neg hlatch, ite_eq_right_iff]
  exact fun hk => if_neg fun hregion => h ⟨hk, hregion⟩

/-! ### One clock step (R196) -/

/-- Settles O53: a clock cycle of a run counts a cycle, or leaves the run for the next one that takes time or for the next
frame, and in leaving it counts the bit it has ended. -/
theorem clockStepFollowsTheRunList : Obligations.ClockStepFollowsTheRunList := by
  intro s ha
  refine ⟨fun hseq => ⟨s.initialise, rfl, (step_alone s ha).trans (clockStep_init hseq), s.initialise_emitted⟩,
    fun k n hseq hpos => ?_⟩
  have hpos : isPosition s.cfg (.run k n) = true := hseq ▸ hpos
  obtain ⟨-, hn, -⟩ := (isPosition_run _ _ _).1 hpos
  have hmore (hlt : 1 < n) := s.clockRun_of_lt k hlt
  have hlast (h1 : n = 1) : s.clockRun k n = (s.emit ⟨runLevel s.cfg s.tick k, 1⟩).leaveRun k := h1 ▸ s.clockRun_one k
  have hsent (h1 : n = 1) : (s.clockRun k n).sent = sentAfter s.cfg k s.sent := by simp [hlast h1]
  refine ⟨s.clockRun k n, (step_alone s ha).trans (clockStep_run s k n hseq hpos), ?_, s.clockRun_dir k n, s.clockRun_ie k n,
    s.clockRun_cfg k n, s.clockRun_ret k n, by simpa [RunsAlone] using ha, s.clockRun_pinFollowsRun k n,
    fun hlt => by simp [hmore hlt], fun h1 k' hk hk' hlen hbetween => ?_, fun h1 hrest => ?_,
    fun hlt => by simp [hmore hlt], fun h1 hbit => ?_, fun h1 hlatch => ?_, fun hbit hlatch => ?_⟩
  · rw [Emitted, State.clockRun_wire, Trace.levels_push]
    rfl
  · rw [hlast h1, State.leaveRun_of_some _ k (by simpa using nextRun_eq s.cfg k k' hk hk' hlen hbetween)]
    simp
  · rw [hlast h1, State.leaveRun_of_none _ k (by simpa using nextRun_none s.cfg k hrest)]
    simp
  · rw [hsent h1]
    exact sentAfter_of_endsBit hbit s.sent
  · rw [hsent h1, hlatch]
    exact sentAfter_latch s.cfg s.sent
  · rcases Nat.eq_or_lt_of_le hn with h1 | hlt
    · rw [hsent h1.symm]
      exact sentAfter_of_other hbit hlatch s.sent
    · simp [hmore hlt]

/-! ### The steps of a frame (R198) -/

/-- In a ready machine between words, `renderFrame` emits the words of the frame and the latch (R160). -/
theorem exec_renderFrame_eq_next {s : State} (h : LinkReady s) (hw : WholeWords s) (t : Nat) :
    exec (.renderFrame t s.cfg.pixels) s = .next ((s.emitRuns (pixelRuns s.cfg t ++ [latchRun s.cfg])).setSent 0) := by
  rw [exec_renderFrame_pixels, State.transmitAndLatch_eq_next]
  exact ⟨h, by omega, rfl⟩

/-- One iteration of the main loop emits the run list of the frame, ends the count of bits sent and counts the tick (R191). -/
theorem execAll_mainLoop {s : State} (h : LinkReady s) (hw : WholeWords s) :
    execAll [.renderFrame s.tick s.cfg.pixels, .delay s.cfg.nDelay, .tickInc] s =
      .next ((s.emitRuns (frameRuns s.cfg s.tick)).setSent 0).advanceTick := by
  have hruns : frameRuns s.cfg s.tick = (pixelRuns s.cfg s.tick ++ [latchRun s.cfg]) ++ [⟨false, s.cfg.nDelay⟩] := by
    simp [frameRuns]
  rw [execAll_cons_next _ _ _ _ (exec_renderFrame_eq_next h hw s.tick), hruns, State.emitRuns_append s (_ ++ _),
    ← State.emitRuns_setSent (rs := [_])]
  rfl

/-- Settles O54: both emit the run list of the frame and count the tick; the steps have also entered the first run of the next
frame, at the position where they began. -/
theorem framePeriodOfStepsIsOneLoopIteration : Obligations.FramePeriodOfStepsIsOneLoopIteration := by
  intro s ha h hw hseq
  refine ⟨_, execAll_mainLoop h hw, ?_⟩
  rw [runSteps_frame ha hseq, State.endFrame, State.enter, runLevel_zero, ← hseq]
  simp [State.advanceTick, State.setSent]

/-- Settles O55: the start of frame `n` is where so many steps lead. -/
theorem frameStartsEveryPeriod : Obligations.FrameStartsEveryPeriod := by
  intro cfg n
  obtain ⟨s, hs, h⟩ := runSteps_frameStart cfg n
  refine ⟨s, hs, h.seq, h.tick, ?_, h.pin, h.ready.1, h.ready.2, h.config⟩
  rw [← Trace.length_levels, h.levels, List.length_map, List.length_range]

end Sys2Proof.Machine
end

section
/-! `latch()` after whole words, `renderFrame` of another pixel count, and the laws of `map` (R54, R118, R140, R141, R160). -/

namespace Sys2Proof.Machine

/-! ### Latching (R118) -/

/-- In a ready machine, bits that do not end whole words may not be latched (R54, R118). -/
theorem State.transmitAndLatch_insideWord {s : State} (h : LinkReady s) (bits : Nat) (rs : List Run)
    (hw : (s.sent + bits) % 32 ≠ 0) : s.transmitAndLatch bits rs = .refused .latchInsideWord :=
  (State.whenLinkReady_ready _ _ h).trans (if_neg hw)

/-- A transmission with a latch ends with the pin low and CFG unchanged. -/
theorem State.transmitAndLatch_pin_cfg {s t : State} {bits : Nat} {rs : List Run}
    (hx : s.transmitAndLatch bits rs = .next t) : t.pin = false ∧ t.cfg = s.cfg := by
  obtain ⟨-, -, rfl⟩ := (s.transmitAndLatch_eq_next _ _ _).1 hx
  exact ⟨(endsLow_latchRun s.cfg).append_left rs s, by simp⟩

/-- Settles O17: the latch alone sends no bits, and pixel words send whole words, so what was sent before decides; each bit
operation sends one. -/
theorem latchHoldsLowAfterWholeWordsOnly : Obligations.LatchHoldsLowAfterWholeWordsOnly := by
  intro s h
  refine ⟨fun i hi => ?_, fun t p hlo hhi hw => ?_, fun i hi => ?_⟩
  · have hexec : exec i s = s.transmitAndLatch 0 [] := by obtain rfl | rfl := hi <;> rfl
    rw [hexec]
    refine ⟨fun hw => ?_, fun hw => State.transmitAndLatch_insideWord h 0 [] hw⟩
    obtain ⟨t, ht, hwave, hsent⟩ := State.transmitAndLatch_of_linkReady h 0 [] hw
    exact ⟨t, ht, hwave, (State.transmitAndLatch_pin_cfg ht).1, hsent⟩
  · rw [exec_renderFrame t ⟨hlo, hhi⟩]
    exact State.transmitAndLatch_insideWord h _ _ (by omega)
  · obtain ⟨b, hexec⟩ : ∃ b, exec i s = s.transmit 1 (bitRuns s.cfg b) := by
      obtain rfl | rfl | rfl | rfl := hi <;> exact ⟨_, rfl⟩
    obtain ⟨t, ht, -, -, hsent⟩ := State.transmit_of_linkReady h 1 (bitRuns s.cfg b)
    exact ⟨t, hexec.trans ht, hsent⟩

/-- Settles O38: the words of the other pixel count have the same cycles, and the operations that send them are the same. -/
theorem renderFrameTakesAnyLegalPixelCount : Obligations.RenderFrameTakesAnyLegalPixelCount := by
  intro s t p hp h hw c is
  have hruns : pixelRuns (s.cfg.withPixels p hp) t = (List.range p).flatMap fun i => wordRuns s.cfg (c i) := rfl
  have hwhole : (s.sent + 32 * p) % 32 = 0 := by omega
  obtain ⟨u, hu, -, hsent⟩ := State.transmitAndLatch_of_linkReady h (32 * p) (pixelRuns (s.cfg.withPixels p hp) t) hwhole
  obtain ⟨hpin, hcfg⟩ := State.transmitAndLatch_pin_cfg hu
  rw [exec_renderFrame t hp]
  refine ⟨?_, u, hu, ?_, hpin, hsent, hcfg⟩
  · rw [hruns, execAll_append_latch h (execAll_writeColors h c p)]
  · obtain ⟨-, -, rfl⟩ := (s.transmitAndLatch_eq_next _ _ _).1 hu
    rw [State.setSent_wire, State.emitRuns_cycles, hruns, runsCycles_append, runsCycles_flatMap_words, Nat.add_assoc]
    simp [latchRun]

/-! ### `map` (R140, R141) -/

section
variable {a b c d x y : Int}

/-- The lower end of the input range goes to the start of the output range. -/
theorem remap_start : remap a a b c d = c := by simp [remap]

/-- The upper end of the input range goes to the end of the output range. -/
theorem remap_end (hab : a ≠ b) : remap b a b c d = d := by
  have hne : b - a ≠ 0 := sub_ne_zero.2 hab.symm
  rw [remap, Int.mul_tdiv_cancel_left _ hne]
  ring

/-- Onto a rising range `map` rises: the truncated quotient keeps the order. -/
theorem remap_mono (hab : a < b) (hcd : c ≤ d) (hxy : x ≤ y) : remap x a b c d ≤ remap y a b c d := by
  have hprod : (x - a) * (d - c) ≤ (y - a) * (d - c) := mul_le_mul_of_nonneg_right (by omega) (by omega)
  have hquot := Int.tdiv_le_tdiv (show 0 < b - a by omega) hprod
  rw [remap, remap]
  omega

/-- Onto a falling range `map` falls. -/
theorem remap_anti (hab : a < b) (hdc : d ≤ c) (hxy : x ≤ y) : remap y a b c d ≤ remap x a b c d := by
  have hprod : (y - a) * (d - c) ≤ (x - a) * (d - c) := mul_le_mul_of_nonpos_right (by omega) (by omega)
  have hquot := Int.tdiv_le_tdiv (show 0 < b - a by omega) hprod
  rw [remap, remap]
  omega

end

/-- Settles O28: between its exact ends `map` is monotone, so it stays between their images. -/
theorem mapLaws : Obligations.MapLaws := by
  refine ⟨fun a b c d hab => ⟨remap_start, remap_end hab⟩,
    fun a b c d x y hab hxy => ⟨fun hcd => remap_mono hab hcd hxy, fun hdc => remap_anti hab hdc hxy⟩,
    fun a b c d x hab hax hxb => ?_, by decide, by decide, by decide, by decide⟩
  have hstart : remap a a b c d = c := remap_start
  have hend : remap b a b c d = d := remap_end hab.ne
  rcases le_total c d with hcd | hdc
  · have hlo := remap_mono hab hcd hax
    have hhi := remap_mono hab hcd hxb
    omega
  · have hhi := remap_anti hab hdc hax
    have hlo := remap_anti hab hdc hxb
    omega

end Sys2Proof.Machine
end

section
/-! The receiver's rules, one run at a time: bits by their high time, low runs by their length, the lost chain, the undriven wire
(R59; log entries 10, 38). -/

namespace Sys2Proof.Machine

namespace Chain

variable {cfg : Cfg} {c : Chain} {m n : Nat}

/-- The high run of a bit, ended by a low run too short for a latch, adds its bit to a word that it does not complete (R59). -/
theorem feed_low_of_bit (hs : c.status = .tracking) (hl : c.line = .high m) (hn : n < cfg.nRstHi) (b : Bool)
    (hm : m = if b then cfg.n1 + cfg.n2 else cfg.n1) (hpart : c.part.length < 31) :
    c.feed cfg .low n = { c with line := .low n, part := c.part ++ [b] } := by
  have hword : (c.part ++ [b]).length ≠ 32 := by
    rw [List.length_append, List.length_singleton]
    omega
  have hpush : pushBit (c.rx, c.part) b = (c.rx, c.part ++ [b]) := if_neg hword
  rw [Chain.feed, Chain.feedLow_of_high cfg c n m hl hn, Chain.takeBit_tracking c m b hs hm, hpush]

/-- A high run of any other length is refused (R59, U15). -/
theorem feed_low_of_wrong_highTime (hs : c.status = .tracking) (hl : c.line = .high m) (hn : n < cfg.nRstHi)
    (h0 : m ≠ cfg.n1) (h1 : m ≠ cfg.n1 + cfg.n2) : (c.feed cfg .low n).status = .refused .highTime := by
  rw [Chain.feed, Chain.feedLow_of_high cfg c n m hl hn]
  simp [Chain.takeBit, Chain.refuse, hs, h0, h1]

/-- A low run ended by a rising edge is skipped if it was short or has latched (R59). -/
theorem feed_high_of_quiet (hs : c.status = .tracking) (hl : c.line = .low m) (hm : m ≤ cfg.nRstLo ∨ cfg.nRstHi ≤ m) :
    c.feed cfg .high n = { c with line := .high n } := by
  simp [Chain.feed, Chain.feedHigh, Chain.lowEnds, hl, hs, hm.symm]

/-- A low run between the two thresholds is refused when it ends (R59, U5). -/
theorem feed_high_of_between (hs : c.status = .tracking) (hl : c.line = .low m) (hlo : cfg.nRstLo < m)
    (hhi : m < cfg.nRstHi) : (c.feed cfg .high n).status = .refused .lowTime := by
  simp [Chain.feed, Chain.feedHigh, Chain.lowEnds, Chain.refuse, hl, hs, hlo.not_ge, hhi.not_ge]

/-- A low run that reaches the threshold is a latch event (R59). -/
theorem feed_low_of_reaches (hl : c.line = .low m) (hm : m < cfg.nRstHi) (hn : cfg.nRstHi ≤ m + n) :
    c.feed cfg .low n = { c.latchEvent cfg with line := .low (m + n) } := by
  simp [Chain.feed, Chain.feedLow, Chain.lowGrows, hl, hm, hn]

/-- A low run that has latched already does nothing more (R59). -/
theorem feed_low_of_latched (hl : c.line = .low m) (hm : cfg.nRstHi ≤ m) :
    c.feed cfg .low n = { c with line := .low (m + n) } := by
  simp [Chain.feed, Chain.feedLow, Chain.lowGrows, hl, hm.not_gt]

/-- A latch inside a word is refused (R59, U6). -/
theorem latchEvent_insideWord (hs : c.status = .tracking) (hpart : c.part ≠ []) :
    c.latchEvent cfg = c.refuse .latchInsideWord := by
  simp [Chain.latchEvent, hs, hpart]

/-- A latch between words displays the words received, as far as the chain reaches, and empties the buffer (R59, R61). -/
theorem latchEvent_wholeWords (hs : c.status = .tracking) (hpart : c.part = []) :
    c.latchEvent cfg = { c with disp := c.disp.writeFrom 0 (c.rx.take cfg.lChain), rx := [] } := by
  simp [Chain.latchEvent, hs, hpart]

/-- After its first latch a lost chain is known to be empty (R241; log entry 10). -/
theorem latchEvent_lost (hs : c.status = .lost) : c.latchEvent cfg = { c with status := .tracking, rx := [], part := [] } := by
  simp [Chain.latchEvent, hs]

/-- A lost chain takes no bit as known (R241). -/
theorem feed_high_of_lost (hs : c.status = .lost) : (c.feed cfg .high n).status = .lost := by
  cases hl : c.line <;> simp [Chain.feed, Chain.feedHigh, Chain.lowEnds, hl, hs]

/-- Once the wire has been driven, a cycle of `Z` makes the chain unknown unless it has refused (log entry 38). -/
theorem undriven_of_driven (hl : c.line ≠ .lead 0) (hs : ∀ why, c.status ≠ .refused why) : c.undriven = Chain.unknown := by
  rw [Chain.undriven, if_neg hl]
  cases hstatus : c.status with
  | tracking => rfl
  | lost => rfl
  | refused why => exact absurd hstatus (hs why)

/-- An undriven wire leaves a chain that has refused alone (log entry 38). -/
theorem undriven_of_refused {why : ChainRefusal} (hs : c.status = .refused why) : c.undriven = c := by
  simp [Chain.undriven, hs]

end Chain

/-- Settles O24: a lemma above for each clause. -/
theorem receiverReadsBitsByTheirHighTime : Obligations.ReceiverReadsBitsByTheirHighTime := by
  intro c ch m n _
  refine ⟨fun hs hl hn => ⟨Chain.feed_low_of_bit hs hl hn, Chain.feed_low_of_wrong_highTime hs hl hn⟩,
    fun hs hl => ⟨Chain.feed_high_of_quiet hs hl, Chain.feed_high_of_between hs hl, fun hpart hm hn => ?_⟩,
    fun hs => ⟨Chain.feed_high_of_lost hs, Chain.disp_feedHigh c ch n, fun hl hm hn => ?_⟩,
    ch.undriven_fresh, Chain.undriven_of_driven, fun why hs => Chain.undriven_of_refused hs⟩
  · rw [Chain.feed_low_of_reaches hl hm hn, Chain.latchEvent_insideWord hs hpart]
    rfl
  · rw [Chain.feed_low_of_reaches hl hm hn, Chain.latchEvent_lost hs]
    exact ⟨rfl, rfl, rfl, rfl⟩

/-! ### A low run that reaches the threshold (R61, R62) -/

/-- Holding a driven line low shows the chain so many low cycles. -/
theorem State.emit_low_chain {s : State} (hdir : s.dir = true) {n : Nat} (hn : 1 ≤ n) :
    (s.emit ⟨false, n⟩).chain = s.chain.feed s.cfg .low n := by
  rw [State.emit_chain, if_neg (by simp; omega), s.shows_driven _ hdir]
  rfl

/-- What the pixels show after a latch event between words: the words received where there are such, and what they showed. -/
theorem Chain.read_latchEvent {cfg : Cfg} {c : Chain} (hs : c.status = .tracking) (hpart : c.part = [])
    (hw : c.disp.wf = true) (k : Nat) : (c.latchEvent cfg).disp.read k =
      if k < min c.rx.length cfg.lChain then c.rx[k]? else c.disp.read k := by
  rw [Chain.latchEvent_wholeWords hs hpart]
  dsimp only
  rw [Memory.read_writeFrom _ _ _ _ hw, List.length_take, Nat.zero_add, Nat.min_comm]
  by_cases hk : k < min c.rx.length cfg.lChain
  · rw [if_pos ⟨k.zero_le, hk⟩, if_pos hk, Nat.sub_zero, List.getElem?_take_of_lt (lt_min_iff.1 hk).2]
  · rw [if_neg fun h => hk h.2, if_neg hk]

/-- Settles O25: each of these operations is one `Emit` of low cycles, which reaches the threshold once or has reached it. -/
theorem longLowRunLatchesOnce : Obligations.LongLowRunLatchesOnce := by
  intro s m n i h hw hs hpart hl hdisp hi
  obtain ⟨t, ht, hchain⟩ : ∃ t, exec i s = .next t ∧ t.chain = (s.emit ⟨false, n⟩).chain := by
    obtain ⟨hlatch, rfl⟩ | rfl := hi
    · have hexec : exec i s = s.transmitAndLatch 0 [] := by obtain rfl | rfl := hlatch <;> rfl
      exact ⟨_, hexec.trans ((s.transmitAndLatch_eq_next _ _ _).2 ⟨h, hw, rfl⟩), rfl⟩
    · exact ⟨_, rfl, rfl⟩
  refine ⟨t, ht, fun hm hn => ?_, fun hm => ?_⟩
  · rw [hchain, State.emit_low_chain h.1 (by omega), Chain.feed_low_of_reaches hl hm hn]
    exact ⟨by rw [Chain.latchEvent_wholeWords hs hpart], Chain.read_latchEvent hs hpart hdisp⟩
  · rcases Nat.eq_zero_or_pos n with rfl | hn
    · rw [hchain, State.emit_empty]
      exact ⟨rfl, rfl⟩
    · rw [hchain, State.emit_low_chain h.1 hn, Chain.feed_low_of_latched hl hm]
      exact ⟨rfl, rfl⟩

end Sys2Proof.Machine
end

section
/-! What the pixels show while a machine sends: nothing new before a latch, nothing new beyond the chain, and after a frame its
colours (R57, R61, R65). -/

namespace Sys2Proof.Machine

/-! ### Runs that latch nothing -/

/-- Emitted on a driven line, whatever the chain made of the wire before, these runs change no displayed colour and leave the
line low for at most `n` cycles. -/
def KeepsDisplay (c : Cfg) (n : Nat) (rs : List Run) : Prop :=
  ∀ t : State, t.dir = true → t.cfg = c →
    (t.emitRuns rs).chain.disp = t.chain.disp ∧ LowFor n (t.emitRuns rs)

section
variable {c : Cfg} {m n : Nat} {rs rs' : List Run}

/-- The bound on the low time may be taken larger. -/
theorem KeepsDisplay.mono (h : KeepsDisplay c m rs) (hmn : m ≤ n) : KeepsDisplay c n rs := by
  intro t hdir hcfg
  obtain ⟨hdisp, l, hl, hle⟩ := h t hdir hcfg
  exact ⟨hdisp, l, hl, hle.trans hmn⟩

/-- One such list of runs after another. -/
theorem KeepsDisplay.append (h : KeepsDisplay c m rs) (h' : KeepsDisplay c n rs') : KeepsDisplay c n (rs ++ rs') := by
  intro t hdir hcfg
  obtain ⟨hdisp, -⟩ := h t hdir hcfg
  obtain ⟨hdisp', hlow⟩ := h' (t.emitRuns rs) (by simpa using hdir) (by simpa using hcfg)
  rw [State.emitRuns_append]
  exact ⟨hdisp'.trans hdisp, hlow⟩

/-- A low gap that stays below the threshold. -/
theorem KeepsDisplay.gap (h : KeepsDisplay c m rs) {k : Nat} (hk : m + k < c.nRstHi) :
    KeepsDisplay c (m + k) (rs ++ [⟨false, k⟩]) := by
  intro t hdir hcfg
  obtain ⟨hdisp, l, hl, hle⟩ := h t hdir hcfg
  rw [State.emitRuns_append, State.emitRuns_cons, State.emitRuns_nil]
  rcases Nat.eq_zero_or_pos k with rfl | hpos
  · exact ⟨hdisp, l, hl, hle⟩
  · rw [LowFor, State.emit_low_chain (by simpa using hdir) hpos, State.emitRuns_cfg, hcfg, Chain.feed,
      Chain.feedLow_of_low c _ k l hl (by omega)]
    exact ⟨hdisp, _, rfl, by omega⟩

/-- Blocks of such runs, at least one. -/
theorem keepsDisplay_flatMap {α : Type} {f : α → List Run} (h : ∀ a, KeepsDisplay c n (f a)) {xs : List α}
    (hne : xs ≠ []) : KeepsDisplay c n (xs.flatMap f) := by
  induction xs with
  | nil => exact absurd rfl hne
  | cons x xs ih =>
    rw [List.flatMap_cons]
    cases xs with
    | nil => simpa using h x
    | cons y ys => exact (h x).append (ih (List.cons_ne_nil y ys))

end

/-! ### Bits, bytes and words (R246) -/

section
variable (c : Cfg)

/-- A high run of a driven line, then a low run that stays below the threshold: the chain reads a bit or refuses it. -/
theorem keepsDisplay_pulse {h l : Nat} (hh : 1 ≤ h) (hl : 1 ≤ l) (hlow : l < c.nRstHi) :
    KeepsDisplay c l [⟨true, h⟩, ⟨false, l⟩] := by
  intro t hdir hcfg
  have hrise : (t.emit ⟨true, h⟩).chain = t.chain.feedHigh c h := by
    rw [State.emit_chain, if_neg (Nat.ne_of_gt hh), t.shows_driven _ hdir, hcfg]
    rfl
  obtain ⟨m, hm⟩ := Chain.line_feedHigh c t.chain h
  rw [State.emitRuns_cons, State.emitRuns_cons, State.emitRuns_nil, LowFor,
    State.emit_low_chain (by simpa using hdir) hl, State.emit_cfg, hcfg, hrise, Chain.feed,
    Chain.feedLow_of_high c _ l m hm hlow]
  exact ⟨by simp, l, rfl, le_rfl⟩

/-- A bit cell is such a pulse: its second region lengthens the high run or the low run (R80). -/
theorem keepsDisplay_bitRuns (b : Bool) (hlow : c.n2 + c.n3 < c.nRstHi) : KeepsDisplay c (c.n2 + c.n3) (bitRuns c b) := by
  obtain ⟨-, -, hn1, hn2, hn3, -⟩ := c.bounds
  cases b with
  | false => exact (keepsDisplay_pulse c hn1 hn2 (by omega)).gap hlow
  | true =>
    intro t hdir hcfg
    have hmerge : t.emitRuns (bitRuns c true) = t.emitRuns [⟨true, c.n1 + c.n2⟩, ⟨false, c.n3⟩] := by
      simp [bitRuns, t.emit_split true _ _ hn1 hn2]
    rw [hmerge]
    exact (keepsDisplay_pulse c (by omega) hn3 (by omega)).mono (Nat.le_add_left _ _) t hdir hcfg

variable {c} (hL : NoEarlyLatch c)
include hL

/-- A byte latches nothing where no early latch is possible (R246). -/
theorem keepsDisplay_byteRuns (v : Byte) : KeepsDisplay c (c.n2 + c.n3 + c.gByte) (byteRuns c v) := by
  obtain ⟨-, -, -, -, -, -, hrst, -⟩ := c.bounds
  exact (keepsDisplay_flatMap (fun b => keepsDisplay_bitRuns c b (by omega)) (List.cons_ne_nil _ _)).gap (by omega)

/-- A pixel word latches nothing where no early latch is possible (R246). -/
theorem keepsDisplay_wordRuns (x : Sample) : KeepsDisplay c c.nRstLo (wordRuns c x) := by
  obtain ⟨-, -, -, -, -, -, hrst, -⟩ := c.bounds
  have byte := keepsDisplay_byteRuns hL
  exact (((((byte x.g).append (byte x.r)).append (byte x.b)).append (byte x.w)).gap (by omega)).mono hL

/-- Pixel words in a row, at least one, latch nothing where no early latch is possible (R246). -/
theorem keepsDisplay_words {xs : List Sample} (hne : xs ≠ []) : KeepsDisplay c c.nRstLo (xs.flatMap (wordRuns c)) :=
  keepsDisplay_flatMap (keepsDisplay_wordRuns hL) hne

/-- Copies of a pixel word, at least one, latch nothing where no early latch is possible (R246). -/
theorem keepsDisplay_copiesOf {n : Nat} (hn : 1 ≤ n) (x : Sample) : KeepsDisplay c c.nRstLo (copiesOf c n x) := by
  rw [copiesOf_eq_flatMap]
  exact keepsDisplay_words hL (by simpa using Nat.ne_of_gt hn)

end

/-- An operation that sends without a latch transmits runs that latch nothing (R61, R246). -/
theorem sends_keepsDisplay {i : Instr} {s : State} (hL : NoEarlyLatch s.cfg) (hi : isLinkOperation i = true)
    (hend : endsWithLatch i = false) :
    ∃ bits rs, exec i s = s.transmit bits rs ∧ KeepsDisplay s.cfg s.cfg.nRstLo rs := by
  obtain ⟨hP, -, -, -, -, -, hrst, -⟩ := s.cfg.bounds
  have bit (b : Bool) := (keepsDisplay_bitRuns s.cfg b (by omega)).mono (n := s.cfg.nRstLo) (by omega)
  have byte (v : Byte) := (keepsDisplay_byteRuns hL v).mono (n := s.cfg.nRstLo) (by omega)
  cases i with
  | b0 | b1 | sendBit b => exact ⟨_, _, rfl, bit _⟩
  | sendByte v => exact ⟨_, _, rfl, byte v⟩
  | pixelWord g r b w | writeColor g r b w => exact ⟨_, _, rfl, keepsDisplay_wordRuns hL _⟩
  | writeColorAll g r b w => exact ⟨_, _, rfl, keepsDisplay_copiesOf hL hP _⟩
  | clear => exact ⟨_, _, rfl, keepsDisplay_copiesOf hL (by omega) _⟩
  | latch | latchSym => cases hend
  | _ => cases hi

/-! ### Beyond the chain (R57) -/

/-- From `d` to `d'` at most the pixels of the chain have been written: what latch events do (R57, R59). -/
def WritesChainOnly (cfg : Cfg) (d d' : Memory) : Prop :=
  ∃ ws : List PixelWord, ws.length ≤ cfg.lChain ∧ d' = d.writeFrom 0 ws

section
variable {cfg : Cfg} {d d' : Memory}

/-- Writing nothing. -/
theorem WritesChainOnly.refl (cfg : Cfg) (d : Memory) : WritesChainOnly cfg d d := ⟨[], Nat.zero_le _, rfl⟩

/-- Such writes keep the canonical form, and change no pixel at `L_CHAIN` or beyond. -/
theorem WritesChainOnly.far (h : WritesChainOnly cfg d d') (hw : d.wf = true) :
    d'.wf = true ∧ ∀ k, cfg.lChain ≤ k → d'.read k = d.read k := by
  obtain ⟨ws, hlen, rfl⟩ := h
  refine ⟨Memory.wf_writeFrom _ _ _ hw, fun k hk => ?_⟩
  rw [Memory.read_writeFrom _ _ _ _ hw, if_neg (by omega)]

/-- A latch event displays at most so many words as the chain has pixels (R57, R59). -/
theorem Chain.writesChainOnly_latchEvent (cfg : Cfg) (c : Chain) : WritesChainOnly cfg c.disp (c.latchEvent cfg).disp := by
  unfold Chain.latchEvent
  split
  · split
    · exact ⟨c.rx.take cfg.lChain, List.length_take_le _ _, rfl⟩
    · exact .refl cfg c.disp
  · exact .refl cfg c.disp
  · exact .refl cfg c.disp

/-- A low run writes pixels where it latches only (R59). -/
theorem Chain.writesChainOnly_lowGrows (cfg : Cfg) (c : Chain) (m n : Nat) :
    WritesChainOnly cfg c.disp (c.lowGrows cfg m n).disp := by
  unfold Chain.lowGrows
  split
  · exact Chain.writesChainOnly_latchEvent cfg c
  · exact .refl cfg c.disp

/-- A driven line writes pixels of the chain only (R57, R59). -/
theorem Chain.writesChainOnly_feed (cfg : Cfg) (c : Chain) (b : Bool) (n : Nat) :
    WritesChainOnly cfg c.disp (c.feed cfg (Level.ofBit b) n).disp := by
  cases b with
  | true => exact ⟨[], Nat.zero_le _, c.disp_feedHigh cfg n⟩
  | false =>
    change WritesChainOnly cfg c.disp (c.feedLow cfg n).disp
    unfold Chain.feedLow
    cases c.line with
    | lead | low => exact Chain.writesChainOnly_lowGrows cfg c _ _
    | high h => exact c.disp_takeBit cfg h ▸ Chain.writesChainOnly_lowGrows cfg (c.takeBit cfg h) _ _

end

/-- A list of `Emit`s on a driven line changes no pixel at `L_CHAIN` or beyond (R57). -/
theorem State.emitRuns_read_far {s : State} (hdir : s.dir = true) (hw : s.chain.disp.wf = true) (rs : List Run) {k : Nat}
    (hk : s.cfg.lChain ≤ k) : (s.emitRuns rs).chain.disp.read k = s.chain.disp.read k := by
  induction rs generalizing s with
  | nil => rfl
  | cons r rs ih =>
    have hwrites : WritesChainOnly s.cfg s.chain.disp (s.emit r).chain.disp := by
      rw [State.emit_chain, s.shows_driven _ hdir]
      split
      · exact .refl _ _
      · exact Chain.writesChainOnly_feed _ _ _ _
    obtain ⟨hw', hfar⟩ := hwrites.far hw
    rw [State.emitRuns_cons, ih (by simpa using hdir) hw' (by simpa using hk), hfar k hk]

/-- An operation that sends or latches and completes has transmitted. -/
theorem transmits_of_exec {i : Instr} {s t : State} (hi : isLinkOperation i = true ∨ endsWithLatch i = true)
    (hx : exec i s = .next t) : Transmits i s := by
  obtain hi | hi := hi
  · exact transmits_of_isLinkOperation hi s
  · cases i with
    | latch | latchSym => exact transmits_of_isLinkOperation rfl s
    | renderFrame n p =>
      by_cases hp : 1 ≤ p ∧ p ≤ 255
      · exact transmits_renderFrame n hp s
      · rw [exec_renderFrame_illegal n hp s] at hx
        cases hx
    | _ => cases hi

/-- Settles O23: without an early latch what is sent latches nothing, and what latches writes pixels of the chain only. -/
theorem sendingChangesNoDisplayedColour : Obligations.SendingChangesNoDisplayedColour := by
  intro i s t hw hx
  refine ⟨fun hL hi hend k => ?_, fun hi k hk => ?_⟩
  · obtain ⟨bits, rs, hexec, hkeeps⟩ := sends_keepsDisplay hL hi hend
    obtain ⟨⟨hdir, -⟩, rfl⟩ := (s.transmit_eq_next _ _ _).1 (hexec.symm.trans hx)
    rw [State.setSent_chain, (hkeeps s hdir rfl).1]
  · obtain ⟨⟨hdir, -⟩, rs, n, rfl⟩ := (transmits_of_exec hi hx).eq_next hx
    exact State.emitRuns_read_far hdir hw rs hk

/-! ### A rendered frame (R61, R65) -/

/-- The words of a frame are those of its colours, in ascending index order (R160). -/
theorem pixelRuns_eq_flatMap (c : Cfg) (t : Nat) :
    pixelRuns c t = ((List.range c.pixels).map (color c t)).flatMap (wordRuns c) := by
  rw [List.flatMap_map]
  rfl

/-- Over a quiet and empty chain a frame is received in order and ends with a short low run, which the latch after it makes
reach the threshold: one latch event, which displays the words of the frame (R59, R246). -/
theorem State.emitRuns_frame_chain {s : State} (hdir : s.dir = true) (hL : NoEarlyLatch s.cfg)
    (hq : ChainQuiet s.cfg s.chain) (hrx : s.chain.rx = []) (t : Nat) :
    ∃ (ch : Chain) (l : Nat),
      (s.emitRuns (pixelRuns s.cfg t ++ [latchRun s.cfg])).chain = { ch.latchEvent s.cfg with line := .low l } ∧
      s.cfg.nRstHi ≤ l ∧ ch.status = .tracking ∧ ch.part = [] ∧ ch.disp = s.chain.disp ∧
      ch.rx = (List.range s.cfg.pixels).map fun k => packSample (color s.cfg t k) := by
  obtain ⟨hP, -, -, -, -, hlatch, hrst, hlong⟩ := s.cfg.bounds
  have hne : (List.range s.cfg.pixels).map (color s.cfg t) ≠ [] := by simpa using Nat.ne_of_gt hP
  obtain ⟨hwords, hshown, hstatus, hpart, -⟩ :=
    State.emitRuns_words_chain hdir hL hq ((List.range s.cfg.pixels).map (color s.cfg t))
  obtain ⟨-, m, hline, hm⟩ := keepsDisplay_words hL hne s hdir rfl
  rw [← pixelRuns_eq_flatMap] at hwords hshown hstatus hpart hline
  refine ⟨(s.emitRuns (pixelRuns s.cfg t)).chain, m + s.cfg.nLatch, ?_, by omega, hstatus, hpart, hshown, ?_⟩
  · rw [State.emitRuns_append, State.emitRuns_cons, State.emitRuns_nil, latchRun,
      State.emit_low_chain (by simpa using hdir) hlatch, State.emitRuns_cfg,
      Chain.feed_low_of_reaches hline (by omega) (by omega)]
  · rw [hwords, hrx, List.nil_append, List.map_map]
    rfl

/-- Settles O26: the frame's one latch event displays its words, and leaves the line low past the threshold. -/
theorem renderedFrameIsDisplayed : Obligations.RenderedFrameIsDisplayed := by
  intro s t h hw hL hq hrx hdisp
  obtain ⟨ch, l, hchain, hl, hstatus, hpart, hshown, hwords⟩ := State.emitRuns_frame_chain h.1 hL hq hrx t
  refine ⟨_, exec_renderFrame_eq_next h hw t, ?_⟩
  have hread := Chain.read_latchEvent (cfg := s.cfg) hstatus hpart (hshown ▸ hdisp)
  rw [hwords, List.length_map, List.length_range, hshown] at hread
  rw [State.setSent_chain, hchain]
  refine ⟨fun k hk => ?_, fun k hk => ?_, ?_, ?_⟩
  · rw [hread, if_pos hk]
    simp [(lt_min_iff.1 hk).1, packSample]
  · rw [hread, if_neg hk.not_gt]
  · rw [Chain.latchEvent_wholeWords hstatus hpart]
    exact ⟨hstatus, hpart, .inr hl⟩
  · rw [Chain.latchEvent_wholeWords hstatus hpart]

end Sys2Proof.Machine
end

section
/-! The symbols of a wire trace, run after run: a bit cell adds its symbol, a gap none, a latch one; and from it the symbol trace
of a frame (R11, R80, R84, R91; log entry 37). -/

namespace Sys2Proof.Machine

/-! ### Symbols of a trace that grows -/

section
variable (cfg : Cfg)

/-- A high run that more runs follow is a bit symbol before theirs. -/
theorem symbolsOf_high_cons (h : Nat) {rs : List (Level × Nat)} (hne : rs ≠ []) :
    symbolsOf cfg ((.high, h) :: rs) =
      (symbolOfHigh cfg h).bind fun a => (symbolsOf cfg rs).bind fun tail => some (a :: tail) := by
  cases rs with
  | nil => exact absurd rfl hne
  | cons r rs => rfl

/-- A low run is a `LATCH` before the symbols of the runs after it, or no symbol (R91). -/
theorem symbolsOf_low_cons (n : Nat) (rs : List (Level × Nat)) :
    symbolsOf cfg ((.low, n) :: rs) =
      (symbolsOf cfg rs).bind fun tail => some ((if cfg.nLatch ≤ n then [.latch] else []) ++ tail) := by
  rw [symbolsOf]
  split <;> rfl

/-- The symbols of a trace that does not end high, and then those of what follows it. -/
theorem symbolsOf_append (xs ys : List (Level × Nat)) (hx : ∀ r, xs.getLast? = some r → r.1 ≠ .high) :
    symbolsOf cfg (xs ++ ys) =
      (symbolsOf cfg xs).bind fun a => (symbolsOf cfg ys).bind fun b => some (a ++ b) := by
  induction xs with
  | nil => simp [symbolsOf]
  | cons r xs ih =>
    obtain ⟨l, n⟩ := r
    have hrest := ih fun r hr => hx r (by simp [List.getLast?_cons, hr])
    cases l with
    | z => exact hrest
    | low => simp [symbolsOf_low_cons, hrest, Option.bind_assoc]
    | high =>
      have hne : xs ≠ [] := fun hnil => hx (.high, n) (by rw [hnil]; rfl) rfl
      rw [List.cons_append, symbolsOf_high_cons _ _ hne, symbolsOf_high_cons _ _ (by simp [hne]), hrest]
      simp [Option.bind_assoc]

/-- The low run that ends a trace adds a `LATCH` to the symbols before it, or none, by its length alone (R91). -/
theorem symbolsOf_concat_low (xs : List (Level × Nat)) (n : Nat) :
    symbolsOf cfg (xs ++ [(.low, n)]) =
      (symbolsOf cfg (xs ++ [(.low, 0)])).map (· ++ if cfg.nLatch ≤ n then [.latch] else []) := by
  obtain ⟨-, -, -, -, -, hlatch, -⟩ := cfg.bounds
  induction xs with
  | nil =>
    have hnone : ¬ cfg.nLatch ≤ 0 := by omega
    simp [symbolsOf_low_cons, symbolsOf, hnone]
  | cons r xs ih =>
    obtain ⟨l, m⟩ := r
    cases l with
    | z => exact ih
    | low => simp [symbolsOf_low_cons, ih, Option.map_bind, Option.bind_map]
    | high =>
      rw [List.cons_append, List.cons_append, symbolsOf_high_cons _ _ (by simp), symbolsOf_high_cons _ _ (by simp), ih]
      simp [Option.map_bind, Option.bind_map]

end

/-! ### Runs put on a driven line -/

/-- The trace after these runs on a driven line. -/
def Trace.pushRuns (w : Trace) (rs : List Run) : Trace := rs.foldl (fun w r => w.push (Level.ofBit r.level) r.len) w

/-- The trace does not end high, inside a bit cell. -/
def Trace.NotHigh (w : Trace) : Prop := ∀ r, w.head? = some r → r.1 ≠ .high

/-- The trace ends with at most `n` low cycles. -/
def Trace.LowTail (n : Nat) (w : Trace) : Prop := ∃ m rest, w = (.low, m) :: rest ∧ m ≤ n

/-- A driven line shows the runs emitted (R10, R24). -/
theorem State.emitRuns_wire {s : State} (hdir : s.dir = true) (rs : List Run) :
    (s.emitRuns rs).wire = s.wire.pushRuns rs := by
  induction rs generalizing s with
  | nil => rfl
  | cons r rs ih =>
    rw [State.emitRuns_cons, ih (by simpa using hdir), State.emit_wire, s.shows_driven _ hdir]
    rfl

namespace Trace

variable {cfg : Cfg} {w : Trace} {m n : Nat}

/-- Runs put on the wire in two parts. -/
theorem pushRuns_append (w : Trace) (rs rs' : List Run) : w.pushRuns (rs ++ rs') = (w.pushRuns rs).pushRuns rs' :=
  List.foldl_append

/-- A trace that ends low does not end high. -/
theorem LowTail.notHigh (h : w.LowTail n) : w.NotHigh := by
  obtain ⟨m, rest, rfl, -⟩ := h
  intro r hr
  cases hr
  exact Level.noConfusion

/-- A low run lengthens the low run that ends a trace. -/
theorem push_low_of_low (m : Nat) (rest : Trace) (k : Nat) : push ((.low, m) :: rest) .low k = (.low, m + k) :: rest := by
  rcases Nat.eq_zero_or_pos k with rfl | hk
  · rfl
  · simp [push, Nat.ne_of_gt hk]

/-- A high run after a trace that does not end high is a run of its own. -/
theorem push_high_of_notHigh (h : w.NotHigh) {k : Nat} (hk : 1 ≤ k) : w.push .high k = (.high, k) :: w := by
  cases w with
  | nil => simp [push, Nat.ne_of_gt hk]
  | cons r rest => simp [push, Nat.ne_of_gt hk, h r rfl]

/-- More low cycles after a low end too short for a latch: a `LATCH` when they reach its length together, no symbol before
(R91). -/
theorem symbols_lengthen_low {rest : Trace} {a : List WireSymbol} (hm : m < cfg.nLatch)
    (ha : symbols cfg ((.low, m) :: rest) = some a) (n : Nat) :
    symbols cfg ((.low, n) :: rest) = some (a ++ if cfg.nLatch ≤ n then [.latch] else []) := by
  rw [symbols, List.reverse_cons, symbolsOf_concat_low, if_neg hm.not_ge] at ha
  rw [symbols, List.reverse_cons, symbolsOf_concat_low]
  simp only [List.append_nil, Option.map_id'] at ha
  rw [ha]
  rfl

/-- A high run and a low run too short for a latch, after a trace that does not end high, add the bit symbol of the high time
(R80). -/
theorem symbols_pulse {a : List WireSymbol} (hw : w.NotHigh) (ha : w.symbols cfg = some a) {h l : Nat} {b : WireSymbol}
    (hb : symbolOfHigh cfg h = some b) (hl : l < cfg.nLatch) :
    symbols cfg ((.low, l) :: (.high, h) :: w) = some (a ++ [b]) := by
  have hreverse : ((.low, l) :: (.high, h) :: w : Trace).reverse = w.reverse ++ [(.high, h), (.low, l)] := by simp
  have hpulse : symbolsOf cfg [(.high, h), (.low, l)] = some [b] := by
    rw [symbolsOf_high_cons _ _ (List.cons_ne_nil _ _), symbolsOf_low_cons, hb, if_neg hl.not_ge]
    rfl
  rw [symbols] at ha
  rw [symbols, hreverse, symbolsOf_append _ _ _ (List.getLast?_reverse ▸ hw), ha, hpulse]
  rfl

end Trace

/-! ### What runs spell -/

/-- After any trace that does not end high these runs add the symbols `syms`, and leave the line low for at most `n` cycles. -/
def Spells (c : Cfg) (n : Nat) (rs : List Run) (syms : List WireSymbol) : Prop :=
  ∀ (w : Trace) (a : List WireSymbol), w.NotHigh → w.symbols c = some a →
    (w.pushRuns rs).LowTail n ∧ (w.pushRuns rs).symbols c = some (a ++ syms)

section
variable {c : Cfg} {m n : Nat} {rs rs' : List Run} {syms syms' : List WireSymbol}

/-- The bound on the low time may be taken larger. -/
theorem Spells.mono (h : Spells c m rs syms) (hmn : m ≤ n) : Spells c n rs syms := by
  intro w a hw ha
  obtain ⟨⟨l, rest, hl, hle⟩, hsyms⟩ := h w a hw ha
  exact ⟨⟨l, rest, hl, hle.trans hmn⟩, hsyms⟩

/-- One list of runs after another spells the symbols of both. -/
theorem Spells.append (h : Spells c m rs syms) (h' : Spells c n rs' syms') :
    Spells c n (rs ++ rs') (syms ++ syms') := by
  intro w a hw ha
  obtain ⟨hlow, hsyms⟩ := h w a hw ha
  rw [Trace.pushRuns_append, ← List.append_assoc]
  exact h' _ _ hlow.notHigh hsyms

/-- A low gap that stays below the length of a latch spells nothing. -/
theorem Spells.gap (h : Spells c m rs syms) {k : Nat} (hk : m + k < c.nLatch) :
    Spells c (m + k) (rs ++ [⟨false, k⟩]) syms := by
  intro w a hw ha
  obtain ⟨⟨l, rest, hl, hle⟩, hsyms⟩ := h w a hw ha
  have hpush : w.pushRuns (rs ++ [⟨false, k⟩]) = (.low, l + k) :: rest := by
    rw [Trace.pushRuns_append, hl]
    exact Trace.push_low_of_low l rest k
  rw [hl] at hsyms
  have hlonger := Trace.symbols_lengthen_low (by omega) hsyms (l + k)
  rw [if_neg (by omega), List.append_nil] at hlonger
  rw [hpush]
  exact ⟨⟨_, _, rfl, by omega⟩, hlonger⟩

/-- A latch after runs that end with a shorter low spells one `LATCH` (R91). -/
theorem Spells.latch (h : Spells c m rs syms) (hm : m < c.nLatch) {w : Trace} {a : List WireSymbol} (hw : w.NotHigh)
    (ha : w.symbols c = some a) : (w.pushRuns (rs ++ [latchRun c])).symbols c = some (a ++ syms ++ [.latch]) := by
  obtain ⟨⟨l, rest, hl, hle⟩, hsyms⟩ := h w a hw ha
  have hpush : w.pushRuns (rs ++ [latchRun c]) = (.low, l + c.nLatch) :: rest := by
    rw [Trace.pushRuns_append, hl]
    exact Trace.push_low_of_low l rest c.nLatch
  rw [hl] at hsyms
  rw [hpush, Trace.symbols_lengthen_low (by omega) hsyms, if_pos (Nat.le_add_left _ _)]

/-- Blocks of runs, at least one, spell their symbols in order. -/
theorem spells_flatMap {α : Type} {f : α → List Run} {g : α → List WireSymbol} (h : ∀ a, Spells c n (f a) (g a))
    {xs : List α} (hne : xs ≠ []) : Spells c n (xs.flatMap f) (xs.flatMap g) := by
  induction xs with
  | nil => exact absurd rfl hne
  | cons x xs ih =>
    rw [List.flatMap_cons, List.flatMap_cons]
    cases xs with
    | nil => simpa using h x
    | cons y ys => exact (h x).append (ih (List.cons_ne_nil y ys))

end

/-! ### Bits, bytes, words and frames (R80, R82 to R84) -/

/-- The symbol of a bit (R80). -/
def bitSymbol (b : Bool) : WireSymbol := if b then .b1 else .b0

/-- The symbols of a byte, bit 7 first (R82). -/
def byteSymbols (v : Byte) : List WireSymbol := (List.range 8).map fun m => bitSymbol (v.getLsbD (7 - m))

/-- The symbols of a pixel word: green, red, blue, white (R83). -/
def wordSymbols (x : Sample) : List WireSymbol := (List.range 4).flatMap fun j => byteSymbols (sampleByte x j)

section
variable (c : Cfg)

/-- The high time of a bit cell tells its symbol (R80). -/
theorem symbolOfHigh_bit (b : Bool) : symbolOfHigh c (if b then c.n1 + c.n2 else c.n1) = some (bitSymbol b) := by
  obtain ⟨-, -, -, hn2, -⟩ := c.bounds
  cases b with
  | false => exact if_pos rfl
  | true => simp [symbolOfHigh, bitSymbol, Nat.ne_of_gt hn2]

/-- A high run and a low run too short for a latch spell the bit of the high time. -/
theorem spells_pulse {h l : Nat} {b : WireSymbol} (hb : symbolOfHigh c h = some b) (hh : 1 ≤ h) (hl : 1 ≤ l)
    (hlow : l < c.nLatch) : Spells c l [⟨true, h⟩, ⟨false, l⟩] [b] := by
  intro w a hw ha
  have hpush : w.pushRuns [⟨true, h⟩, ⟨false, l⟩] = (.low, l) :: (.high, h) :: w := by
    change (w.push .high h).push .low l = _
    rw [Trace.push_high_of_notHigh hw hh]
    simp [Trace.push, Nat.ne_of_gt hl]
  rw [hpush]
  exact ⟨⟨l, _, rfl, le_rfl⟩, Trace.symbols_pulse hw ha hb hlow⟩

/-- A bit cell spells its bit: the second region lengthens the high run or the low run (R80). -/
theorem spells_bitRuns (hlow : c.n2 + c.n3 < c.nLatch) (b : Bool) :
    Spells c (c.n2 + c.n3) (bitRuns c b) [bitSymbol b] := by
  obtain ⟨-, -, hn1, hn2, hn3, -⟩ := c.bounds
  cases b with
  | false => exact (spells_pulse c (symbolOfHigh_bit c false) hn1 hn2 (by omega)).gap hlow
  | true =>
    intro w a hw ha
    have hmerge : w.pushRuns (bitRuns c true) = w.pushRuns [⟨true, c.n1 + c.n2⟩, ⟨false, c.n3⟩] :=
      congrArg (Trace.push · .low c.n3) (w.push_push .high c.n1 c.n2)
    rw [hmerge]
    exact (spells_pulse c (symbolOfHigh_bit c true) (by simp; omega) hn3 (by omega)).mono (Nat.le_add_left _ _) w a hw ha

variable {c} (hL : NoEarlyLatch c)
include hL

/-- A byte spells its bits, bit 7 first (R82). -/
theorem spells_byteRuns (v : Byte) : Spells c (c.n2 + c.n3 + c.gByte) (byteRuns c v) (byteSymbols v) := by
  obtain ⟨-, -, -, -, -, -, hrst, hlong⟩ := c.bounds
  exact (spells_flatMap (spells_bitRuns c (by omega)) (xs := byteBits v) (List.cons_ne_nil _ _)).gap (by omega)

/-- A pixel word spells its bytes in wire order (R83). -/
theorem spells_wordRuns (x : Sample) : Spells c c.nRstLo (wordRuns c x) (wordSymbols x) := by
  obtain ⟨-, -, -, -, -, -, hrst, hlong⟩ := c.bounds
  have byte := spells_byteRuns hL
  have hbytes : wordSymbols x = byteSymbols x.g ++ byteSymbols x.r ++ byteSymbols x.b ++ byteSymbols x.w := by
    simp [wordSymbols, List.range_succ, sampleByte]
  rw [hbytes]
  exact (((((byte x.g).append (byte x.r)).append (byte x.b)).append (byte x.w)).gap (by omega)).mono hL

/-- The pixel words of a frame spell their samples in ascending index order (R84). -/
theorem spells_pixelRuns (t : Nat) :
    Spells c c.nRstLo (pixelRuns c t) ((List.range c.pixels).flatMap fun i => wordSymbols (color c t i)) := by
  obtain ⟨hP, -⟩ := c.bounds
  exact spells_flatMap (fun i => spells_wordRuns hL (color c t i)) (by simpa using Nat.ne_of_gt hP)

end

/-- Settles O46: the words of the frame spell their bits after whatever the wire showed, and the latch one `LATCH`. -/
theorem frameSymbolTrace : Obligations.FrameSymbolTrace := by
  intro s t sofar h hw hL hhigh hsofar
  obtain ⟨-, -, -, -, -, -, hrst, hlong⟩ := s.cfg.bounds
  refine ⟨_, exec_renderFrame_eq_next h hw t, ?_⟩
  rw [State.setSent_wire, State.emitRuns_wire h.1]
  exact (spells_pixelRuns hL t).latch (by omega) hhigh hsofar

end Sys2Proof.Machine
end
